-- ==== Sys2Proof/Word.lean ====
section
/-! DEFINITION. The word of the engine: its two widths (R6) and the 64-bit cell that holds one. -/

namespace Sys2Proof

/-- A cell that holds one `W`-bit word of the engine, in its low `W` bits (assumption 6). -/
abbrev Word := BitVec 64

/-- The two legal values of the parameter `W` (R6). -/
inductive Width where
  | w32
  | w64
deriving DecidableEq, Repr

/-- `W`, the number of bits of a word (R6). -/
def Width.bits : Width → Nat
  | .w32 => 32
  | .w64 => 64

/-- `2^W`, the base `b` of multi-precision numbers (R9, R15). -/
def Width.base (w : Width) : Nat := 2 ^ w.bits

/-- The number a cell holds: its low `W` bits, unsigned (R8). -/
def Width.low (w : Width) (v : Word) : Nat := v.toNat % w.base

/-- The cell that holds `n mod 2^W`. -/
def Width.cell (w : Width) (n : Nat) : Word := BitVec.ofNat 64 (n % w.base)

end Sys2Proof
end

