-- ==== Sys2Proof/Syntax.lean ====
section
/-! DEFINITION. The commands of R96, one constructor a row of the opcode table, the pseudo-instruction
of R104, and the host actions a program is made of (R105). -/

namespace Sys2Proof

/-- Index of a word register `X0` to `X15` (R93). -/
abbrev XReg := Fin 16

/-- Index of a descriptor `D0` to `D7` (R94). -/
abbrev DReg := Fin 8

/-- Index of a Barrett slot, `0` to `7`; one at or above `NCTX` is a legal encoding (R94). -/
abbrev CtxIx := Fin 8

/-- The 27 commands of R96, operands in the order of R103's field lists. No field is an immediate
(R95), and each index type has exactly the values its field can spell. -/
inductive Instr where
  /-- `NOP` (R280) -/
  | nop
  /-- `CLRERR` (R281) -/
  | clrerr
  /-- `W3.CLR` (R121) -/
  | w3Clr
  /-- `W3.ADD` (R122) -/
  | w3Add (rs1 : XReg)
  /-- `W3.MUL` (R123) -/
  | w3Mul (rs1 rs2 : XReg)
  /-- `W3.MSTEP` (R124): `rs1` is `p0`, `rs2` is `pd` -/
  | w3Mstep (rd rs1 rs2 : XReg)
  /-- `W3.MSTEPX` (R125): `rs1` is `p0`, `rs2` is `pd` -/
  | w3Mstepx (rd rs1 rs2 : XReg)
  /-- `W3.EXTRACT` (R126) -/
  | w3Extract (rd : XReg)
  /-- `CT.MASKB` (R151) -/
  | ctMaskb (rd rs1 : XReg)
  /-- `CT.MASKNZ` (R152) -/
  | ctMasknz (rd rs1 : XReg)
  /-- `CT.MASKZ` (R153) -/
  | ctMaskz (rd rs1 : XReg)
  /-- `CT.MASKEQ` (R154) -/
  | ctMaskeq (rd rs1 rs2 : XReg)
  /-- `CT.MASKLT` (R155) -/
  | ctMasklt (rd rs1 rs2 : XReg)
  /-- `CT.SEL` (R156): `rs1` is the mask -/
  | ctSel (rd rs1 rs2 rs3 : XReg)
  /-- `CT.SELM` (R157): `xr` is the mask -/
  | ctSelm (dr da db : DReg) (xr : XReg)
  /-- `CT.CMPLTM` (R158): `xr` is the destination -/
  | ctCmpltm (da db : DReg) (xr : XReg)
  /-- `CT.CMPEQM` (R159): `xr` is the destination -/
  | ctCmpeqm (da db : DReg) (xr : XReg)
  /-- `MP.MUL` (R190) -/
  | mpMul (dr da db : DReg)
  /-- `MONT.PDASH` (R201) -/
  | montPdash (rd rs1 : XReg)
  /-- `MONT.REDC` (R202): `da` is `z`, `db` is `p`, `xr` holds `p_dash` -/
  | montRedc (dr da db : DReg) (xr : XReg)
  /-- `BAR.SETUPS` (R231) -/
  | barSetups (da : DReg) (ctx : CtxIx)
  /-- `BAR.SETUPP` (R232) -/
  | barSetupp (da : DReg) (ctx : CtxIx)
  /-- `BAR.FREE` (R234) -/
  | barFree (ctx : CtxIx)
  /-- `BAR.RED` (R238) -/
  | barRed (dr da : DReg) (ctx : CtxIx)
  /-- `BAR.MUL` (R239) -/
  | barMul (dr da db : DReg) (ctx : CtxIx)
  /-- `BAR.SQR` (R240) -/
  | barSqr (dr da : DReg) (ctx : CtxIx)
  /-- `BAR.CUBE` (R241) -/
  | barCube (dr da : DReg) (ctx : CtxIx)
deriving DecidableEq, Repr

/-- The one pseudo-instruction of R104, `MONT.MULR dr, da, db, dp, xpd, dt`. -/
structure Mulr where
  dr : DReg
  da : DReg
  db : DReg
  dp : DReg
  xpd : XReg
  dt : DReg
deriving DecidableEq, Repr

/-- `MONT.MULR` expands to `MP.MUL dt, da, db` and then `MONT.REDC dr, dt, dp, xpd` (R104). -/
def Mulr.expand (p : Mulr) : List Instr :=
  [.mpMul p.dt p.da p.db, .montRedc p.dr p.dt p.dp p.xpd]

/-- A slot address: a 17-bit number (R62). -/
abbrev SlotAddr := BitVec 17

/-- What the outside world does to the engine, one action at a time (R75, R105, R340). -/
inductive HostAction where
  /-- the host reads a slot (`RD`) -/
  | read (slot : SlotAddr)
  /-- the host writes a slot (`WR`); a write of `CMD` executes a command -/
  | write (slot : SlotAddr) (value : Word)
  /-- the platform applies reset between two host accesses (R340) -/
  | reset
deriving DecidableEq, Repr

end Sys2Proof
end

