-- ==== Sys2Proof/Decode.lean ====
section
/-! DEFINITION. Decoding a command word (R90 to R101) and the encoder, from the tables of R92 to R96. -/

namespace Sys2Proof

/-- The two decode errors of R97 and R98. -/
inductive DecodeError where
  /-- the opcode is no row of R96 (R98) -/
  | undefOpcode
  /-- a reserved or unused field is not 0 (R90, R97) -/
  | reservedField
deriving DecidableEq, Repr

/-! ### Fields -/

/-- `OP`, bits `[31:26]` (R91). -/
def opField (c : BitVec 32) : BitVec 6 := c.extractLsb' 26 6

/-- The word-register index in the four bits from `lo` up (R93, R95). -/
def xField (c : BitVec 32) (lo : Nat) : XReg := ⟨(c.extractLsb' lo 4).toNat, (c.extractLsb' lo 4).isLt⟩

/-- The descriptor or slot index in the three bits from `lo` up (R94, R95). -/
def dField (c : BitVec 32) (lo : Nat) : Fin 8 := ⟨(c.extractLsb' lo 3).toNat, (c.extractLsb' lo 3).isLt⟩

/-- `RD`, bits `[25:22]` of format R (R93). -/
def fieldRD (c : BitVec 32) : XReg := xField c 22
/-- `RS1`, bits `[21:18]` of format R (R93). -/
def fieldRS1 (c : BitVec 32) : XReg := xField c 18
/-- `RS2`, bits `[17:14]` of format R (R93). -/
def fieldRS2 (c : BitVec 32) : XReg := xField c 14
/-- `RS3`, bits `[13:10]` of format R (R93). -/
def fieldRS3 (c : BitVec 32) : XReg := xField c 10
/-- `DR`, bits `[25:23]` of format M (R94). -/
def fieldDR (c : BitVec 32) : DReg := dField c 23
/-- `DA`, bits `[22:20]` of format M (R94). -/
def fieldDA (c : BitVec 32) : DReg := dField c 20
/-- `DB`, bits `[19:17]` of format M (R94). -/
def fieldDB (c : BitVec 32) : DReg := dField c 17
/-- `XR`, bits `[16:13]` of format M (R94). -/
def fieldXR (c : BitVec 32) : XReg := xField c 13
/-- `CTX`, bits `[12:10]` of format M (R94). -/
def fieldCTX (c : BitVec 32) : CtxIx := dField c 10

/-! ### The opcode map -/

/-- One row of R96: the opcode, `match`, `mask`, and the command with its fields. -/
structure OpRow where
  op : BitVec 6
  pattern : BitVec 32
  mask : BitVec 32
  build : BitVec 32 → Instr

/-- Rows of R96: engine control and the word3 accumulator. -/
def controlRows : List OpRow :=
  [ ⟨0x00#6, 0x00000000#32, 0xFFFFFFFF#32, fun _ => .nop⟩,
    ⟨0x01#6, 0x04000000#32, 0xFFFFFFFF#32, fun _ => .clrerr⟩,
    ⟨0x08#6, 0x20000000#32, 0xFFFFFFFF#32, fun _ => .w3Clr⟩,
    ⟨0x09#6, 0x24000000#32, 0xFFC3FFFF#32, fun c => .w3Add (fieldRS1 c)⟩,
    ⟨0x0A#6, 0x28000000#32, 0xFFC03FFF#32, fun c => .w3Mul (fieldRS1 c) (fieldRS2 c)⟩,
    ⟨0x0B#6, 0x2C000000#32, 0xFC003FFF#32, fun c => .w3Mstep (fieldRD c) (fieldRS1 c) (fieldRS2 c)⟩,
    ⟨0x0C#6, 0x30000000#32, 0xFC003FFF#32, fun c => .w3Mstepx (fieldRD c) (fieldRS1 c) (fieldRS2 c)⟩,
    ⟨0x0D#6, 0x34000000#32, 0xFC3FFFFF#32, fun c => .w3Extract (fieldRD c)⟩ ]

/-- Rows of R96: the constant-time primitives. -/
def constantTimeRows : List OpRow :=
  [ ⟨0x10#6, 0x40000000#32, 0xFC03FFFF#32, fun c => .ctMaskb (fieldRD c) (fieldRS1 c)⟩,
    ⟨0x11#6, 0x44000000#32, 0xFC03FFFF#32, fun c => .ctMasknz (fieldRD c) (fieldRS1 c)⟩,
    ⟨0x12#6, 0x48000000#32, 0xFC03FFFF#32, fun c => .ctMaskz (fieldRD c) (fieldRS1 c)⟩,
    ⟨0x13#6, 0x4C000000#32, 0xFC003FFF#32, fun c => .ctMaskeq (fieldRD c) (fieldRS1 c) (fieldRS2 c)⟩,
    ⟨0x14#6, 0x50000000#32, 0xFC003FFF#32, fun c => .ctMasklt (fieldRD c) (fieldRS1 c) (fieldRS2 c)⟩,
    ⟨0x15#6, 0x54000000#32, 0xFC0003FF#32,
      fun c => .ctSel (fieldRD c) (fieldRS1 c) (fieldRS2 c) (fieldRS3 c)⟩,
    ⟨0x16#6, 0x58000000#32, 0xFC001FFF#32,
      fun c => .ctSelm (fieldDR c) (fieldDA c) (fieldDB c) (fieldXR c)⟩,
    ⟨0x17#6, 0x5C000000#32, 0xFF801FFF#32, fun c => .ctCmpltm (fieldDA c) (fieldDB c) (fieldXR c)⟩,
    ⟨0x18#6, 0x60000000#32, 0xFF801FFF#32, fun c => .ctCmpeqm (fieldDA c) (fieldDB c) (fieldXR c)⟩ ]

/-- Rows of R96: multiply, Montgomery and Barrett. -/
def reductionRows : List OpRow :=
  [ ⟨0x20#6, 0x80000000#32, 0xFC01FFFF#32, fun c => .mpMul (fieldDR c) (fieldDA c) (fieldDB c)⟩,
    ⟨0x21#6, 0x84000000#32, 0xFC03FFFF#32, fun c => .montPdash (fieldRD c) (fieldRS1 c)⟩,
    ⟨0x22#6, 0x88000000#32, 0xFC001FFF#32,
      fun c => .montRedc (fieldDR c) (fieldDA c) (fieldDB c) (fieldXR c)⟩,
    ⟨0x28#6, 0xA0000000#32, 0xFF8FE3FF#32, fun c => .barSetups (fieldDA c) (fieldCTX c)⟩,
    ⟨0x29#6, 0xA4000000#32, 0xFF8FE3FF#32, fun c => .barSetupp (fieldDA c) (fieldCTX c)⟩,
    ⟨0x2A#6, 0xA8000000#32, 0xFFFFE3FF#32, fun c => .barFree (fieldCTX c)⟩,
    ⟨0x2B#6, 0xAC000000#32, 0xFC0FE3FF#32, fun c => .barRed (fieldDR c) (fieldDA c) (fieldCTX c)⟩,
    ⟨0x2C#6, 0xB0000000#32, 0xFC01E3FF#32,
      fun c => .barMul (fieldDR c) (fieldDA c) (fieldDB c) (fieldCTX c)⟩,
    ⟨0x2D#6, 0xB4000000#32, 0xFC0FE3FF#32, fun c => .barSqr (fieldDR c) (fieldDA c) (fieldCTX c)⟩,
    ⟨0x2E#6, 0xB8000000#32, 0xFC0FE3FF#32, fun c => .barCube (fieldDR c) (fieldDA c) (fieldCTX c)⟩ ]

/-- The opcode map of R96. -/
def opRows : List OpRow := controlRows ++ constantTimeRows ++ reductionRows

/-! ### Decoding -/

/-- R100 on the 32-bit command word: the row of the opcode, then its reserved bits. -/
def decodeWord (c : BitVec 32) : Except DecodeError Instr :=
  match opRows.find? (fun r => r.op == opField c) with
  | none => .error .undefOpcode
  | some r => if c &&& r.mask = r.pattern then .ok (r.build c) else .error .reservedField

/-- R100 on the value written to `CMD`: with `W = 64` bits `[63:32]` must be 0 (R90); with `W = 32` a
slot carries only bits `[31:0]`. -/
def decode (w : Width) (v : Word) : Except DecodeError Instr :=
  if w = .w64 ∧ v.extractLsb' 32 32 ≠ 0#32 then .error .reservedField
  else decodeWord (v.extractLsb' 0 32)

/-- The instruction the decoder reads from the table's bits `w` of an `nbits`-bit row. -/
def decodeTableWord (nbits w : Nat) : Option Instr :=
  match decodeWord (BitVec.ofNat 32 (w % 2 ^ nbits)) with
  | .ok i => some i
  | .error _ => none

/-! ### Encoding -/

/-- Format N (R92). -/
def formatN (op : BitVec 6) : BitVec 32 := op ++ 0#26

/-- Format R (R93). -/
def formatR (op : BitVec 6) (rd rs1 rs2 rs3 : XReg) : BitVec 32 :=
  op ++ BitVec.ofFin (w := 4) rd ++ BitVec.ofFin (w := 4) rs1 ++ BitVec.ofFin (w := 4) rs2 ++
    BitVec.ofFin (w := 4) rs3 ++ 0#10

/-- Format M (R94). -/
def formatM (op : BitVec 6) (dr da db : DReg) (xr : XReg) (ctx : CtxIx) : BitVec 32 :=
  op ++ BitVec.ofFin (w := 3) dr ++ BitVec.ofFin (w := 3) da ++ BitVec.ofFin (w := 3) db ++
    BitVec.ofFin (w := 4) xr ++ BitVec.ofFin (w := 3) ctx ++ 0#10

/-- The command word of a command: its opcode and format (R96), every field it does not use 0 (R97). -/
def encode : Instr → BitVec 32
  | .nop => formatN 0x00#6
  | .clrerr => formatN 0x01#6
  | .w3Clr => formatN 0x08#6
  | .w3Add rs1 => formatR 0x09#6 0 rs1 0 0
  | .w3Mul rs1 rs2 => formatR 0x0A#6 0 rs1 rs2 0
  | .w3Mstep rd rs1 rs2 => formatR 0x0B#6 rd rs1 rs2 0
  | .w3Mstepx rd rs1 rs2 => formatR 0x0C#6 rd rs1 rs2 0
  | .w3Extract rd => formatR 0x0D#6 rd 0 0 0
  | .ctMaskb rd rs1 => formatR 0x10#6 rd rs1 0 0
  | .ctMasknz rd rs1 => formatR 0x11#6 rd rs1 0 0
  | .ctMaskz rd rs1 => formatR 0x12#6 rd rs1 0 0
  | .ctMaskeq rd rs1 rs2 => formatR 0x13#6 rd rs1 rs2 0
  | .ctMasklt rd rs1 rs2 => formatR 0x14#6 rd rs1 rs2 0
  | .ctSel rd rs1 rs2 rs3 => formatR 0x15#6 rd rs1 rs2 rs3
  | .ctSelm dr da db xr => formatM 0x16#6 dr da db xr 0
  | .ctCmpltm da db xr => formatM 0x17#6 0 da db xr 0
  | .ctCmpeqm da db xr => formatM 0x18#6 0 da db xr 0
  | .mpMul dr da db => formatM 0x20#6 dr da db 0 0
  | .montPdash rd rs1 => formatR 0x21#6 rd rs1 0 0
  | .montRedc dr da db xr => formatM 0x22#6 dr da db xr 0
  | .barSetups da ctx => formatM 0x28#6 0 da 0 0 ctx
  | .barSetupp da ctx => formatM 0x29#6 0 da 0 0 ctx
  | .barFree ctx => formatM 0x2A#6 0 0 0 0 ctx
  | .barRed dr da ctx => formatM 0x2B#6 dr da 0 0 ctx
  | .barMul dr da db ctx => formatM 0x2C#6 dr da db 0 ctx
  | .barSqr dr da ctx => formatM 0x2D#6 dr da 0 0 ctx
  | .barCube dr da ctx => formatM 0x2E#6 dr da 0 0 ctx

/-- The value a host writes to `CMD` to run a command (R90): the command word, upper half 0. -/
def commandValue (i : Instr) : Word := (encode i).setWidth 64

end Sys2Proof
end

