-- ==== Sys2Proof/Config.lean ====
section
/-! DEFINITION. What one engine instance fixes: the parameters of R6, and the free values of R61 and
R363. -/

namespace Sys2Proof

/-- The parameters of one engine instance (R6). `legal` is R6's column of legal values, so a
configuration outside the legal range does not exist. `LAT` is not here: no rule depends on its
value (R360, assumption 13). -/
structure Config where
  /-- `W` -/
  width : Width
  /-- `MEM_WORDS` -/
  memWords : Nat
  /-- `NMAX` -/
  nmax : Nat
  /-- `NCTX` -/
  nctx : Nat
  legal : 1 ≤ memWords ∧ memWords ≤ 65536 ∧ 1 ≤ nmax ∧ nmax ≤ 65535 ∧ 1 ≤ nctx ∧ nctx ≤ 8
deriving DecidableEq, Repr

/-- The free draw of R61 and I1: what the read number `position` of the access number `draw` returns
from an OPMEM word never written since reset. It has no body, so nothing can be proved of its value
(assumption 3). -/
opaque Config.freeWord (draw position : Nat) : Word

/-- The free value of R363: whether a command that raises with `detail` made the read number `position` of
those it may have made (`possibleReads`). R363 leaves it open; R365 lets it depend on no more than the command
word, its public `inputs` and `detail`. It has no body, so nothing can be proved of its value
(assumption 21). -/
opaque Config.failedRead (cfg : Config) (command : BitVec 32) (inputs : List Nat) (detail : BitVec 8)
    (position : Nat) : Bool

/-- `W = 32`, `MEM_WORDS = 64`, `NMAX = 8`, `NCTX = 4`: the configuration `95_test_vectors.md` uses.
DESIGN CHOICE for the reset state only (assumption 2); every other configuration is as legal. -/
def Config.example32 : Config := ⟨.w32, 64, 8, 4, by decide⟩

/-- The same parameters with `W = 64`, the other configuration of `95_test_vectors.md`. -/
def Config.example64 : Config := ⟨.w64, 64, 8, 4, by decide⟩

end Sys2Proof
end

