-- ==== Sys2Proof/Machine/State.lean ====
section
/-! DEFINITION. The state of the engine (`10_state.md`, `20_memory.md` R60), the host's side of its
interface, and the state after reset (R43). Plain data. -/

namespace Sys2Proof.Machine

/-- A descriptor `D[i]` (R24). -/
structure Descriptor where
  /-- `BASE`, in the low `W` bits -/
  base : Word
  /-- `LEN`, in the low `W-1` bits -/
  len : BitVec 63
  /-- `NEG`: true is 1, negative -/
  neg : Bool
deriving DecidableEq, Repr

/-- `MODE` of a Barrett slot (R35). -/
inductive Mode where
  /-- 0: built by `BAR.SETUPS` -/
  | secretModulus
  /-- 1: built by `BAR.SETUPP` -/
  | publicModulus
deriving DecidableEq, Repr

/-- A Barrett context slot `BCTX[s]` (R35). `m` and `mu` are the numbers the slot's words denote
(assumption 12). -/
structure BarrettCtx where
  valid : Bool
  mode : Mode
  k : BitVec 16
  m : Nat
  mu : Nat
deriving DecidableEq, Repr

/-- The uninitialised slot: `{VALID: 0, MODE: 0, K: 0, M: 0, MU: 0}` (R43, R234). -/
def BarrettCtx.empty : BarrettCtx := ⟨false, .secretModulus, 0#16, 0, 0⟩

/-- `STATUS` by its fields (R29); the reserved bits read 0 and hold nothing (assumption 16). -/
structure Status where
  code : BitVec 4
  detail : BitVec 8
  sticky : Bool
deriving DecidableEq, Repr

/-- `STATUS = 0` (R43). -/
def Status.zero : Status := ⟨0#4, 0#8, false⟩

/-- The error causes of R302. -/
inductive Err where
  | undefOpcode
  | reservedField
  | ctxIndex
  | descBounds
  | negZero
  | negative
  | zeroModulus
  | capacity
  | size
  | aliased
  | range
  | even
  | ctxUninit
  | ctxInuse
deriving DecidableEq, Repr

/-- Words by word address, strictly rising. -/
abbrev Memory := List (Nat × Word)

/-- The state of one engine and of its host's interface. -/
structure State where
  /-- the instance's parameters, which no step changes (R6, R42; assumption 1) -/
  cfg : Config
  /-- `X0` to `X15` (R20) -/
  regs : Vector Word 16
  /-- `ACC.A0` (R22) -/
  a0 : Word
  /-- `ACC.A1` (R22) -/
  a1 : Word
  /-- `ACC.A2` (R22) -/
  a2 : Word
  /-- `D0` to `D7` (R24) -/
  descs : Vector Descriptor 8
  /-- `STATUS` (R29) -/
  status : Status
  /-- `BCTX[0]` to `BCTX[NCTX-1]`; the cells from `NCTX` up are no state of the engine (R35) -/
  bctx : Vector BarrettCtx 8
  /-- `WSRAM` between commands: the words that are not 0 (R38; assumption 11) -/
  wsram : Memory
  /-- `OPMEM`: the words written since reset (R60, R61; assumption 5) -/
  opmem : Memory
  /-- the host actions still to come: the program (R40, R105; assumption 7) -/
  host : List HostAction
  /-- the values host reads returned, newest first (assumption 8) -/
  reads : List Word
  /-- the model's counter of accesses, the index of free draws (R61; assumption 3) -/
  draws : Nat
deriving DecidableEq, Repr

/-- The engine never stops with a fault: no error traps, stops the engine or leaves it stuck (R300,
R317; assumption 15). No constructor, so nothing raises one: safe. -/
inductive Fault where
deriving DecidableEq, Repr

/-- Why the model gives a command no meaning. -/
inductive Refusal where
  /-- Raised by `exec` for a command with no meaning yet; no arm raises it now. Safe. -/
  | notModelled (mnemonic : String)
deriving DecidableEq, Repr

/-- The reset state of R43 for any configuration, with the model's own fields given. -/
def State.resetWith (cfg : Config) (host : List HostAction) (reads : List Word) (draws : Nat) : State where
  cfg := cfg
  regs := Vector.replicate 16 0#64
  a0 := 0#64
  a1 := 0#64
  a2 := 0#64
  descs := Vector.replicate 8 ⟨0#64, 0#63, false⟩
  status := Status.zero
  bctx := Vector.replicate 8 BarrettCtx.empty
  wsram := []
  opmem := []
  host := host
  reads := reads
  draws := draws

/-- The machine right after reset (R43, R340). The configuration and the empty host list are the
model's choices (assumptions 2, 3, 7, 8). -/
def State.reset : State := State.resetWith Config.example32 [] [] 0

end Sys2Proof.Machine
end

