-- ==== Sys2Proof/Machine/Flags.lean ====
section
/-! DEFINITION. The engine's only flag-like state, `STATUS` (R29 to R32, R301, R302), and the masks that
comparisons return in its place (R39, R150). -/

namespace Sys2Proof.Machine

/-- `STATUS.CODE` of an error: its class (R301, column CODE of R302). -/
def Err.code : Err → BitVec 4
  | .undefOpcode | .reservedField => 3#4
  | .ctxUninit | .ctxInuse => 2#4
  | .ctxIndex | .descBounds | .negZero | .negative | .zeroModulus | .capacity | .size | .aliased
  | .range | .even => 1#4

/-- `STATUS.DETAIL` of an error (R302). -/
def Err.detail : Err → BitVec 8
  | .undefOpcode => 0x01#8
  | .reservedField => 0x02#8
  | .ctxIndex => 0x10#8
  | .descBounds => 0x11#8
  | .negZero => 0x12#8
  | .negative => 0x13#8
  | .zeroModulus => 0x14#8
  | .capacity => 0x15#8
  | .size => 0x16#8
  | .aliased => 0x17#8
  | .range => 0x18#8
  | .even => 0x19#8
  | .ctxUninit => 0x20#8
  | .ctxInuse => 0x21#8

/-- `STATUS` after a command that completes (R305): `CODE` and `DETAIL` 0, `STICKY` as it was. -/
def Status.success (st : Status) : Status := ⟨0#4, 0#8, st.sticky⟩

/-- `STATUS` after a command that raises `e` (R306). -/
def Status.failure (e : Err) : Status := ⟨e.code, e.detail, true⟩

/-- `STATUS` with `STICKY` cleared (R281). -/
def Status.clearSticky (st : Status) : Status := { st with sticky := false }

/-- `STATUS` as the host reads it (R29): `CODE` in `[3:0]`, `DETAIL` in `[11:4]`, `STICKY` in `[31]`. -/
def Status.word (st : Status) : Nat :=
  st.code.toNat + st.detail.toNat * 2 ^ 4 + (if st.sticky then 2 ^ 31 else 0)

/-- `MASK(c)`: all ones if `c` holds, else 0 (R10, R150). -/
def maskOf (w : Width) (c : Bool) : Nat := if c then w.base - 1 else 0

/-- `(m & a) | (~m & b)` on `W`-bit words, with `~m = (2^W - 1) - m` (R8, R156). -/
def blend (w : Width) (m a b : Nat) : Nat := (m &&& a) ||| ((w.base - 1 - m) &&& b)

end Sys2Proof.Machine
end

