-- ==== Sys2Proof/Machine/Ops.lean ====
section
/-! DEFINITION. The named operations over registers, memory and `STATUS`: R10's pseudocode primitives,
the success effect (R305) and the error effect (R306). Every read goes through an accessor here, and
a value read from a cell is its low `W` bits. -/

namespace Sys2Proof.Machine

/-- The three outcomes of a command. -/
abbrev Result := Host.Outcome State Fault Refusal

/-! ### How a command ends -/

/-- What every command does at its end: `WSRAM` is cleared (R38) and the next access draws fresh values
(R61). -/
def State.conclude (s : State) (st : Status) : State :=
  { s with status := st, wsram := [], draws := s.draws + 1 }

/-- The success effect: the command's own results, already written in `s`, and R305. -/
def succeed (s : State) : Result := .next (s.conclude s.status.success)

/-- The error effect, this hardware's whole exception model (R300, R306): the state as before the
command, apart from `STATUS`. -/
def raise (e : Err) (s : State) : Result := .next (s.conclude (Status.failure e))

/-- The error a failed decode raises (R97, R98). -/
def errOfDecode : DecodeError → Err
  | .undefOpcode => .undefOpcode
  | .reservedField => .reservedField

/-! ### Word registers -/

/-- `X[i]` (R10, R20). -/
def State.x (s : State) (i : XReg) : Nat := s.cfg.width.low s.regs[i]

/-- `X[i] <- v` (R10). -/
def State.setX (s : State) (i : XReg) (v : Nat) : State :=
  { s with regs := s.regs.set i (s.cfg.width.cell v) }

/-! ### The accumulator -/

/-- `ACC` as one `3W`-bit number (R22). -/
def State.acc (s : State) : Nat :=
  s.cfg.width.low s.a0 + s.cfg.width.low s.a1 * s.cfg.width.base +
    s.cfg.width.low s.a2 * s.cfg.width.base ^ 2

/-- `ACC.A0` (R22). -/
def State.accLow (s : State) : Nat := s.cfg.width.low s.a0

/-- `ACC <- v`, which keeps `v mod 2^(3W)` (R10, R120). -/
def State.setAcc (s : State) (v : Nat) : State :=
  { s with
    a0 := s.cfg.width.cell v
    a1 := s.cfg.width.cell (v / s.cfg.width.base)
    a2 := s.cfg.width.cell (v / s.cfg.width.base ^ 2) }

/-! ### OPMEM -/

/-- The word at address `a`, none if none is listed there. -/
def Memory.word : Memory → Nat → Option Word
  | [], _ => none
  | (k, v) :: m, a => if k = a then some v else Memory.word m a

/-- The memory with word `v` at address `a`; addresses stay strictly rising. -/
def Memory.store : Memory → Nat → Word → Memory
  | [], a, v => [(a, v)]
  | (k, u) :: m, a, v =>
    if a < k then (a, v) :: (k, u) :: m
    else if a = k then (a, v) :: m
    else (k, u) :: Memory.store m a v

/-- The memory with the words `ws` from address `a` up. -/
def Memory.storeAll : Memory → Nat → List Word → Memory
  | m, _, [] => m
  | m, a, v :: vs => Memory.storeAll (m.store a v) (a + 1) vs

/-- The canonical form: addresses strictly rising. An unlisted address reads as no value (R61), so no
entry equals what it would read as. -/
abbrev Memory.wf (m : Memory) : Prop := m.Pairwise (fun p q => p.1 < q.1)

/-- The word written at OPMEM address `a`, none if none was since reset. -/
def State.memWord (s : State) (a : Nat) : Option Nat := (s.opmem.word a).map s.cfg.width.low

/-- A read of OPMEM word `a`, the `pos`-th read of this access: the word written there, or a fresh draw
where none was since reset (R61, I1). DESIGN CHOICE: an address at or above `MEM_WORDS`, which R72 keeps any
command's result from, reads as a draw too (assumption 24). -/
def State.readWord (s : State) (a pos : Nat) : Nat :=
  (s.memWord a).getD (s.cfg.width.low (Config.freeWord s.draws pos))

/-- The `n` words from address `a` up, read in ascending order as reads `pos`, `pos + 1`, ... (R363). -/
def State.readWords (s : State) (a pos : Nat) : Nat → List Nat
  | 0 => []
  | n + 1 => s.readWord a pos :: s.readWords (a + 1) (pos + 1) n

/-- Writes the words `ws` from address `a` up. -/
def State.writeWords (s : State) (a : Nat) (ws : List Nat) : State :=
  { s with opmem := s.opmem.storeAll a (ws.map s.cfg.width.cell) }

/-- `Σ ws[j]·2^(W·j)` (R9). -/
def natOfWords (w : Width) : List Nat → Nat
  | [] => 0
  | x :: xs => x + w.base * natOfWords w xs

/-- The `n` low words of `v`, least significant first (R10, `MemWrite`). -/
def wordsOfNat (w : Width) : Nat → Nat → List Nat
  | 0, _ => []
  | n + 1, v => v % w.base :: wordsOfNat w n (v / w.base)

/-- `sig_words(v)`: the least `n` with `v < 2^(W·n)` (R9). -/
def sigWords (w : Width) (v : Nat) : Nat := if v = 0 then 0 else v.log2 / w.bits + 1

end Sys2Proof.Machine
end

