-- ==== Sys2Proof/Machine/Operands.lean ====
section
/-! DEFINITION. The operand forms of the engine: descriptors (R24 to R27, R71 to R73) and Barrett slots
(R35 to R37). Each word of an input operand is read once in a command, `DA` first and then `DB`
(R363), so an operand comes with the position of its first read. -/

namespace Sys2Proof.Machine

/-- `D[d].BASE` (R24): the low `W` bits. -/
def State.base (s : State) (d : DReg) : Nat := s.cfg.width.low s.descs[d].base

/-- `D[d].LEN` (R24): the low `W - 1` bits. -/
def State.len (s : State) (d : DReg) : Nat := s.descs[d].len.toNat % 2 ^ (s.cfg.width.bits - 1)

/-- `D[d].NEG` (R24). -/
def State.neg (s : State) (d : DReg) : Bool := s.descs[d].neg

/-- `D[d].BASE <- v` by the host (R25, R65). -/
def State.setBase (s : State) (d : DReg) (v : Nat) : State :=
  { s with descs := s.descs.set d { s.descs[d] with base := s.cfg.width.cell v } }

/-- `LEN` and `NEG` written together from the slot value `v` (R25, R65): `LEN <- v[W-2:0]`,
`NEG <- v[W-1]`. -/
def State.setLenNeg (s : State) (d : DReg) (v : Nat) : State :=
  { s with
    descs := s.descs.set d
      { s.descs[d] with
        len := BitVec.ofNat 63 (v % 2 ^ (s.cfg.width.bits - 1))
        neg := v.testBit (s.cfg.width.bits - 1) } }

/-- `D[d].NEG <- 0` (R10, R27). -/
def State.clearNeg (s : State) (d : DReg) : State :=
  { s with descs := s.descs.set d { s.descs[d] with neg := false } }

/-- The words of descriptor `d`, read from position `pos` on (R71). -/
def State.words (s : State) (d : DReg) (pos : Nat) : List Nat := s.readWords (s.base d) pos (s.len d)

/-- `Val(d)` (R10, R26), read from position `pos` on. -/
def State.val (s : State) (d : DReg) (pos : Nat) : Nat := natOfWords s.cfg.width (s.words d pos)

/-- `D[d].BASE + D[d].LEN <= MEM_WORDS`, in unbounded integers (R72). -/
def State.inBounds (s : State) (d : DReg) : Bool := decide (s.base d + s.len d ≤ s.cfg.memWords)

/-- `overlap(d1, d2)` (R10). -/
def State.overlap (s : State) (d1 d2 : DReg) : Bool :=
  decide (0 < s.len d1) && decide (0 < s.len d2) && decide (s.base d1 < s.base d2 + s.len d2) &&
    decide (s.base d2 < s.base d1 + s.len d1)

/-- `D[d].NEG = 1 and Val(d) = 0`: a negative zero (R26). -/
def State.negZero (s : State) (d : DReg) (pos : Nat) : Bool := s.neg d && decide (s.val d pos = 0)

/-- `WriteResult(d, v)` (R10): `v` zero-extended to `D[d].LEN` words, then `D[d].NEG <- 0`. -/
def State.writeResult (s : State) (d : DReg) (v : Nat) : State :=
  (s.writeWords (s.base d) (wordsOfNat s.cfg.width (s.len d) v)).clearNeg d

/-- `BCTX[c]` (R35). -/
def State.ctx (s : State) (c : CtxIx) : BarrettCtx := s.bctx[c]

/-- `BCTX[c] <- v` (R35). -/
def State.setCtx (s : State) (c : CtxIx) (v : BarrettCtx) : State := { s with bctx := s.bctx.set c v }

/-- `K` of a slot (R35). -/
def BarrettCtx.words (b : BarrettCtx) : Nat := b.k.toNat

end Sys2Proof.Machine
end

