-- ==== Sys2Proof/Machine/Barrett.lean ====
section
/-! DEFINITION. The Barrett reduction commands (`45_barrett.md`). -/

namespace Sys2Proof.Machine

/-! ### Slot lifecycle -/

/-- The first check of a setup that fails, in R231's order. -/
def setupError (da : DReg) (ctx : CtxIx) (s : State) : Option Err :=
  if s.cfg.nctx ≤ ctx.val then some .ctxIndex
  else if (s.ctx ctx).valid then some .ctxInuse
  else if !s.inBounds da then some .descBounds
  else if s.negZero da 0 then some .negZero
  else if s.neg da then some .negative
  else if s.val da 0 = 0 then some .zeroModulus
  else if s.cfg.nmax < sigWords s.cfg.width (s.val da 0) then some .capacity
  else none

/-- The reducer of modulus `m` (R230, R231): `K = sig_words(m)` and `MU = floor(b^(2K) / m)`. -/
def barrettCtxOf (w : Width) (mode : Mode) (m : Nat) : BarrettCtx where
  valid := true
  mode := mode
  k := BitVec.ofNat 16 (sigWords w m)
  m := m
  mu := w.base ^ (2 * sigWords w m) / m

/-- `BAR.SETUPS cs, dm` (R231). -/
def execBarSetups (da : DReg) (ctx : CtxIx) (s : State) : Result :=
  match setupError da ctx s with
  | some e => raise e s
  | none => succeed (s.setCtx ctx (barrettCtxOf s.cfg.width .secretModulus (s.val da 0)))

/-- `BAR.SETUPP cs, dm` (R232): as `BAR.SETUPS`, with `MODE <- 1`. -/
def execBarSetupp (da : DReg) (ctx : CtxIx) (s : State) : Result :=
  match setupError da ctx s with
  | some e => raise e s
  | none => succeed (s.setCtx ctx (barrettCtxOf s.cfg.width .publicModulus (s.val da 0)))

/-- `BAR.FREE cs` (R234). -/
def execBarFree (ctx : CtxIx) (s : State) : Result :=
  if s.cfg.nctx ≤ ctx.val then raise .ctxIndex s else succeed (s.setCtx ctx BarrettCtx.empty)

/-! ### Reduction -/

/-- `CTCondSub(r, m)` (R160): `r - m` unless it borrows. -/
def ctCondSub (r m : Nat) : Nat := if m ≤ r then r - m else r

/-- `BarrettCore(x, s)` (R236), on the slot's `k`, `m` and `mu`. -/
def barrettCore (w : Width) (k m mu x : Nat) : Nat :=
  let q1 := x / w.base ^ (k - 1)
  let q2 := q1 * mu
  let q3 := q2 / w.base ^ (k + 1)
  let r1 := x % w.base ^ (k + 1)
  let r2 := q3 * m % w.base ^ (k + 1)
  let t : Int := (r1 : Int) - (r2 : Int)
  let neg : Int := if t < 0 then 1 else 0
  let r := (t + neg * ((w.base ^ (k + 1) : Nat) : Int)).toNat
  ctCondSub (ctCondSub r m) m

/-- `BarrettCore(x, c)` on slot `c` of state `s`. -/
def State.barrett (s : State) (ctx : CtxIx) (x : Nat) : Nat :=
  barrettCore s.cfg.width (s.ctx ctx).words (s.ctx ctx).m (s.ctx ctx).mu x

/-- The first common check of R235 that fails. `ins` are the inputs, each with its read position;
`ranged` says whether the command has the `RANGE` check. -/
def reduceError (ranged : Bool) (dr : DReg) (ins : List (DReg × Nat)) (ctx : CtxIx) (s : State) :
    Option Err :=
  if s.cfg.nctx ≤ ctx.val then some .ctxIndex
  else if !(s.ctx ctx).valid then some .ctxUninit
  else if !(s.inBounds dr && ins.all fun d => s.inBounds d.1) then some .descBounds
  else if ins.any fun d => s.negZero d.1 d.2 then some .negZero
  else if ins.any fun d => s.neg d.1 then some .negative
  else if s.len dr < (s.ctx ctx).words then some .size
  else if ins.any fun d => s.overlap dr d.1 then some .aliased
  else if ranged && ins.any fun d => decide ((s.ctx ctx).m ≤ s.val d.1 d.2) then some .range
  else none

/-- `BAR.RED cs, dr, dx` (R238): `BarrettCore`, or `x mod m` when `sig_words(x) > 2k`. -/
def execBarRed (dr da : DReg) (ctx : CtxIx) (s : State) : Result :=
  match reduceError false dr [(da, 0)] ctx s with
  | some e => raise e s
  | none => succeed (s.writeResult dr
      (if 2 * (s.ctx ctx).words < sigWords s.cfg.width (s.val da 0) then s.val da 0 % (s.ctx ctx).m
       else s.barrett ctx (s.val da 0)))

/-- `BAR.MUL cs, dr, dx, dy` (R239). -/
def execBarMul (dr da db : DReg) (ctx : CtxIx) (s : State) : Result :=
  match reduceError true dr [(da, 0), (db, s.len da)] ctx s with
  | some e => raise e s
  | none => succeed (s.writeResult dr (s.barrett ctx (s.val da 0 * s.val db (s.len da))))

/-- `BAR.SQR cs, dr, dx` (R240). -/
def execBarSqr (dr da : DReg) (ctx : CtxIx) (s : State) : Result :=
  match reduceError true dr [(da, 0)] ctx s with
  | some e => raise e s
  | none => succeed (s.writeResult dr (s.barrett ctx (s.val da 0 * s.val da 0)))

/-- `BAR.CUBE cs, dr, dx` (R241): square, then multiply by `x`. -/
def execBarCube (dr da : DReg) (ctx : CtxIx) (s : State) : Result :=
  match reduceError true dr [(da, 0)] ctx s with
  | some e => raise e s
  | none => succeed (s.writeResult dr
      (s.barrett ctx (s.val da 0 * s.barrett ctx (s.val da 0 * s.val da 0))))

end Sys2Proof.Machine
end

