-- ==== Sys2Proof/Machine/ConstantTime.lean ====
section
/-! DEFINITION. The constant-time masking, selection and comparison commands (`42_ct_primitives.md`). -/

namespace Sys2Proof.Machine

/-- Writes `MASK(c)` into `X[d]` (R150). -/
def writeMask (d : XReg) (c : Bool) (s : State) : Result := succeed (s.setX d (maskOf s.cfg.width c))

/-- `CT.MASKB xd, xs` (R151): only bit 0 is read. -/
def execCtMaskb (rd rs1 : XReg) (s : State) : Result := writeMask rd (decide (s.x rs1 % 2 = 1)) s

/-- `CT.MASKNZ xd, xs` (R152). -/
def execCtMasknz (rd rs1 : XReg) (s : State) : Result := writeMask rd (decide (s.x rs1 ≠ 0)) s

/-- `CT.MASKZ xd, xs` (R153). -/
def execCtMaskz (rd rs1 : XReg) (s : State) : Result := writeMask rd (decide (s.x rs1 = 0)) s

/-- `CT.MASKEQ xd, xa, xb` (R154). -/
def execCtMaskeq (rd rs1 rs2 : XReg) (s : State) : Result :=
  writeMask rd (decide (s.x rs1 = s.x rs2)) s

/-- `CT.MASKLT xd, xa, xb` (R155): unsigned. -/
def execCtMasklt (rd rs1 rs2 : XReg) (s : State) : Result :=
  writeMask rd (decide (s.x rs1 < s.x rs2)) s

/-- `CT.SEL xd, xm, xa, xb` (R156). -/
def execCtSel (rd rs1 rs2 rs3 : XReg) (s : State) : Result :=
  succeed (s.setX rd (blend s.cfg.width (s.x rs1) (s.x rs2) (s.x rs3)))

/-- The first check of `CT.SELM` that fails (R157): `DR` may have an input's own `BASE`, and no other
overlap. -/
def selmError (dr da db : DReg) (s : State) : Option Err :=
  if !(s.inBounds dr && s.inBounds da && s.inBounds db) then some .descBounds
  else if s.len da ≠ s.len dr ∨ s.len db ≠ s.len dr then some .size
  else if (s.overlap dr da && decide (s.base dr ≠ s.base da)) ||
      (s.overlap dr db && decide (s.base dr ≠ s.base db)) then some .aliased
  else none

/-- `CT.SELM dr, da, db, xm` (R157): all reads first; `D[DR].NEG` is not written. -/
def execCtSelm (dr da db : DReg) (xr : XReg) (s : State) : Result :=
  match selmError dr da db s with
  | some e => raise e s
  | none => succeed (s.writeWords (s.base dr)
      (List.zipWith (blend s.cfg.width (s.x xr)) (s.words da 0) (s.words db (s.len da))))

/-- The check of `CT.CMPLTM` and `CT.CMPEQM` (R158, R159). -/
def compareError (da db : DReg) (s : State) : Option Err :=
  if !(s.inBounds da && s.inBounds db) then some .descBounds else none

/-- `CT.CMPLTM xd, da, db` (R158): magnitudes, whatever the lengths and signs. -/
def execCtCmpltm (da db : DReg) (xr : XReg) (s : State) : Result :=
  match compareError da db s with
  | some e => raise e s
  | none => writeMask xr (decide (s.val da 0 < s.val db (s.len da))) s

/-- `CT.CMPEQM xd, da, db` (R159). -/
def execCtCmpeqm (da db : DReg) (xr : XReg) (s : State) : Result :=
  match compareError da db s with
  | some e => raise e s
  | none => writeMask xr (decide (s.val da 0 = s.val db (s.len da))) s

end Sys2Proof.Machine
end

