-- ==== Sys2Proof/Machine/EngineControl.lean ====
section
/-! DEFINITION. The engine control commands (`46_engine_control.md`). -/

namespace Sys2Proof.Machine

/-- `NOP` (R280): nothing but the success effect. -/
def execNop (s : State) : Result := succeed s

/-- `CLRERR` (R281): `STATUS.STICKY <- 0`. -/
def execClrerr (s : State) : Result := succeed { s with status := s.status.clearSticky }

end Sys2Proof.Machine
end

