-- ==== Sys2Proof/Machine/Montgomery.lean ====
section
/-! DEFINITION. The Montgomery reduction commands (`44_montgomery.md`). -/

namespace Sys2Proof.Machine

/-- The inverse of an odd `x` modulo `2^k`, one bit at a time: the `y` below `2^k` with
`x·y ≡ 1 (mod 2^k)` (R201). -/
def inversePow2 (x : Nat) : Nat → Nat
  | 0 => 0
  | k + 1 =>
    if x * inversePow2 x k % 2 ^ (k + 1) = 1 then inversePow2 x k else inversePow2 x k + 2 ^ k

/-- `p' = (2^W - (x^-1 mod 2^W)) mod 2^W` (R200, R201). -/
def pDash (w : Width) (x : Nat) : Nat := (w.base - inversePow2 x w.bits) % w.base

/-- `MONT.PDASH xd, xs` (R201). -/
def execMontPdash (rd rs1 : XReg) (s : State) : Result :=
  if s.x rs1 % 2 = 0 then raise .even s else succeed (s.setX rd (pDash s.cfg.width (s.x rs1)))

/-- `Σ_{j<n} f j`. -/
def sumBelow (f : Nat → Nat) : Nat → Nat
  | 0 => 0
  | n + 1 => sumBelow f n + f n

/-- One pass of R203's first loop, at column `i`: from the accumulator `a` and the digits
`ws[0..i)`, the accumulator after the shift, and the digits with `u` added. -/
def foldColumn (w : Width) (z p : List Nat) (pd i : Nat) (st : Nat × List Nat) : Nat × List Nat :=
  let a := st.1 + sumBelow (fun j => st.2.getD j 0 * p.getD (i - j) 0) i + z.getD i 0
  let u := a % w.base * pd % w.base
  ((a + u * p.getD 0 0) / w.base, st.2 ++ [u])

/-- The first `i` passes of R203's first loop (step 1). -/
def foldLoop (w : Width) (z p : List Nat) (pd : Nat) : Nat → Nat × List Nat
  | 0 => (0, [])
  | i + 1 => foldColumn w z p pd i (foldLoop w z p pd i)

/-- One pass of R203's second loop, at column `i`: the remaining cross terms, the high half of `z`, and
`ws[i]` extracted in place of the digit no later pass reads. -/
def highColumn (w : Width) (z p : List Nat) (n i : Nat) (st : Nat × List Nat) : Nat × List Nat :=
  let a := st.1 + sumBelow (fun t => st.2.getD (i + 1 + t) 0 * p.getD (n - 1 - t) 0) (n - 1 - i) +
    z.getD (n + i) 0
  (a / w.base, st.2.set i (a % w.base))

/-- The first `i` passes of R203's second loop (steps 2 and 3). -/
def highLoop (w : Width) (z p : List Nat) (n : Nat) (start : Nat × List Nat) : Nat → Nat × List Nat
  | 0 => start
  | i + 1 => highColumn w z p n i (highLoop w z p n start i)

/-- `MontyMaybeSub(C, w1, p, n)` (R204); `big` is `2^(W·n)`, and `c < big`. -/
def montyMaybeSub (big c w1 p : Nat) : Nat :=
  if w1 = 0 ∧ c < p then c else (c + big - p) % big

/-- `MontyRedcCore(z, p, n, pd)` (R203). -/
def montyRedcCore (w : Width) (z p : List Nat) (n pd : Nat) : Nat :=
  let st := highLoop w z p n (foldLoop w z p pd n) n
  montyMaybeSub (w.base ^ n) (natOfWords w st.2) (st.1 % w.base) (natOfWords w p)

/-- The first check of `MONT.REDC` that fails, in R202's order. -/
def redcError (dr da db : DReg) (s : State) : Option Err :=
  if !(s.inBounds dr && s.inBounds da && s.inBounds db) then some .descBounds
  else if s.negZero da 0 || s.negZero db (s.len da) then some .negZero
  else if s.neg da || s.neg db then some .negative
  else if s.len db = 0 then some .zeroModulus
  else if s.cfg.nmax < s.len db then some .capacity
  else if s.len da < 2 * s.len db ∨ s.len dr < s.len db then some .size
  else if s.overlap dr da || s.overlap dr db then some .aliased
  else none

/-- `MONT.REDC dr, dz, dp, xpd` (R202): only `z[0..2n)` is read; no precondition of R200 is checked
(R206). -/
def execMontRedc (dr da db : DReg) (xr : XReg) (s : State) : Result :=
  match redcError dr da db s with
  | some e => raise e s
  | none => succeed (s.writeResult dr
      (montyRedcCore s.cfg.width (s.readWords (s.base da) 0 (2 * s.len db)) (s.words db (s.len da))
        (s.len db) (s.x xr)))

end Sys2Proof.Machine
end

