-- ==== Sys2Proof/Machine/MultiPrecision.lean ====
section
/-! DEFINITION. The multi-precision multiply (`43_mp_multiply.md`). -/

namespace Sys2Proof.Machine

/-- The first check of `MP.MUL` that fails, in R190's order. -/
def mpMulError (dr da db : DReg) (s : State) : Option Err :=
  if !(s.inBounds dr && s.inBounds da && s.inBounds db) then some .descBounds
  else if s.negZero da 0 || s.negZero db (s.len da) then some .negZero
  else if s.neg da || s.neg db then some .negative
  else if s.cfg.nmax < s.len da ∨ s.cfg.nmax < s.len db then some .capacity
  else if s.len dr < s.len da + s.len db then some .size
  else if s.overlap dr da || s.overlap dr db then some .aliased
  else none

/-- `MP.MUL dr, da, db` (R190): the exact product. -/
def execMpMul (dr da db : DReg) (s : State) : Result :=
  match mpMulError dr da db s with
  | some e => raise e s
  | none => succeed (s.writeResult dr (s.val da 0 * s.val db (s.len da)))

end Sys2Proof.Machine
end

