-- ==== Sys2Proof/Machine/Word3.lean ====
section
/-! DEFINITION. The word-triple accumulator commands (`41_word3.md`); arithmetic modulo `2^(3W)` (R120). -/

namespace Sys2Proof.Machine

/-- The Montgomery quotient digit `u = (ACC.A0 · X[pd]) mod 2^W` (R124, R125). -/
def State.quotientDigit (s : State) (pd : XReg) : Nat := s.accLow * s.x pd % s.cfg.width.base

/-- `W3.CLR` (R121). -/
def execW3Clr (s : State) : Result := succeed (s.setAcc 0)

/-- `W3.ADD xs` (R122). -/
def execW3Add (rs1 : XReg) (s : State) : Result := succeed (s.setAcc (s.acc + s.x rs1))

/-- `W3.MUL xa, xb` (R123). -/
def execW3Mul (rs1 rs2 : XReg) (s : State) : Result := succeed (s.setAcc (s.acc + s.x rs1 * s.x rs2))

/-- `W3.MSTEP xd, xp0, xpd` (R124). -/
def execW3Mstep (rd rs1 rs2 : XReg) (s : State) : Result :=
  succeed ((s.setAcc (s.acc + s.quotientDigit rs2 * s.x rs1)).setX rd (s.quotientDigit rs2))

/-- `W3.MSTEPX xd, xp0, xpd` (R125): as `W3.MSTEP`, then the shift by one word, after the sum is
reduced modulo `2^(3W)`. -/
def execW3Mstepx (rd rs1 rs2 : XReg) (s : State) : Result :=
  succeed ((s.setAcc
    ((s.acc + s.quotientDigit rs2 * s.x rs1) % s.cfg.width.base ^ 3 / s.cfg.width.base)).setX rd
      (s.quotientDigit rs2))

/-- `W3.EXTRACT xd` (R126). -/
def execW3Extract (rd : XReg) (s : State) : Result :=
  succeed ((s.setAcc (s.acc / s.cfg.width.base)).setX rd s.accLow)

end Sys2Proof.Machine
end

