-- ==== Sys2Proof/Machine/Dispatch.lean ====
section
/-! DEFINITION. One arm per command of R96: its meaning. -/

namespace Sys2Proof.Machine

/-- What a command does (R96, column "semantics"). -/
def exec (i : Instr) (s : State) : Host.Outcome State Fault Refusal :=
  match i with
  | .nop => Sys2Proof.Machine.execNop s
  | .clrerr => Sys2Proof.Machine.execClrerr s
  | .w3Clr => Sys2Proof.Machine.execW3Clr s
  | .w3Add rs1 => Sys2Proof.Machine.execW3Add rs1 s
  | .w3Mul rs1 rs2 => Sys2Proof.Machine.execW3Mul rs1 rs2 s
  | .w3Mstep rd rs1 rs2 => Sys2Proof.Machine.execW3Mstep rd rs1 rs2 s
  | .w3Mstepx rd rs1 rs2 => Sys2Proof.Machine.execW3Mstepx rd rs1 rs2 s
  | .w3Extract rd => Sys2Proof.Machine.execW3Extract rd s
  | .ctMaskb rd rs1 => Sys2Proof.Machine.execCtMaskb rd rs1 s
  | .ctMasknz rd rs1 => Sys2Proof.Machine.execCtMasknz rd rs1 s
  | .ctMaskz rd rs1 => Sys2Proof.Machine.execCtMaskz rd rs1 s
  | .ctMaskeq rd rs1 rs2 => Sys2Proof.Machine.execCtMaskeq rd rs1 rs2 s
  | .ctMasklt rd rs1 rs2 => Sys2Proof.Machine.execCtMasklt rd rs1 rs2 s
  | .ctSel rd rs1 rs2 rs3 => Sys2Proof.Machine.execCtSel rd rs1 rs2 rs3 s
  | .ctSelm dr da db xr => Sys2Proof.Machine.execCtSelm dr da db xr s
  | .ctCmpltm da db xr => Sys2Proof.Machine.execCtCmpltm da db xr s
  | .ctCmpeqm da db xr => Sys2Proof.Machine.execCtCmpeqm da db xr s
  | .mpMul dr da db => Sys2Proof.Machine.execMpMul dr da db s
  | .montPdash rd rs1 => Sys2Proof.Machine.execMontPdash rd rs1 s
  | .montRedc dr da db xr => Sys2Proof.Machine.execMontRedc dr da db xr s
  | .barSetups da ctx => Sys2Proof.Machine.execBarSetups da ctx s
  | .barSetupp da ctx => Sys2Proof.Machine.execBarSetupp da ctx s
  | .barFree ctx => Sys2Proof.Machine.execBarFree ctx s
  | .barRed dr da ctx => Sys2Proof.Machine.execBarRed dr da ctx s
  | .barMul dr da db ctx => Sys2Proof.Machine.execBarMul dr da db ctx s
  | .barSqr dr da ctx => Sys2Proof.Machine.execBarSqr dr da ctx s
  | .barCube dr da ctx => Sys2Proof.Machine.execBarCube dr da ctx s

end Sys2Proof.Machine
end

