-- ==== Sys2Proof/Machine/HostPort.lean ====
section
/-! DEFINITION. The host's slot map (R62 to R66) and the accesses to every slot but a write of `CMD`. -/

namespace Sys2Proof.Machine

/-- What a slot address names (R63). -/
inductive Port where
  | id
  | config
  | memsize
  | status
  | cmd
  | x (i : XReg)
  | dbase (i : DReg)
  | dlen (i : DReg)
  | acc (j : Fin 3)
  | bctxinfo (c : CtxIx)
  | opmem (a : Nat)
  | reserved
deriving DecidableEq, Repr

/-- The slot map of R63. -/
def portOf (cfg : Config) (slot : SlotAddr) : Port :=
  let a := slot.toNat
  if a = 0x0 then .id
  else if a = 0x1 then .config
  else if a = 0x2 then .memsize
  else if a = 0x3 then .status
  else if a = 0x4 then .cmd
  else if a < 0x10 then .reserved
  else if h : a - 0x10 < 16 then .x ⟨a - 0x10, h⟩
  else if h : (a - 0x20) / 2 < 8 then
    if a % 2 = 0 then .dbase ⟨(a - 0x20) / 2, h⟩ else .dlen ⟨(a - 0x20) / 2, h⟩
  else if h : a - 0x30 < 3 then .acc ⟨a - 0x30, h⟩
  else if a < 0x40 then .reserved
  else if h : a - 0x40 < 8 then
    if a - 0x40 < cfg.nctx then .bctxinfo ⟨a - 0x40, h⟩ else .reserved
  else if a < 0x10000 then .reserved
  else if a - 0x10000 < cfg.memWords then .opmem (a - 0x10000)
  else .reserved

/-- `CONFIG` (R33): `W` in `[7:0]`, `NCTX` in `[15:8]`, `NMAX` in `[31:16]`. -/
def configWord (cfg : Config) : Nat := cfg.width.bits + cfg.nctx * 2 ^ 8 + cfg.nmax * 2 ^ 16

/-- `MODE` as a bit (R35). -/
def Mode.bit : Mode → Nat
  | .secretModulus => 0
  | .publicModulus => 1

/-- `BCTXINFO` (R36): `VALID` in bit 0, `MODE` in bit 1, `K` in `[31:16]`. -/
def BarrettCtx.info (b : BarrettCtx) : Nat :=
  (if b.valid then 1 else 0) + b.mode.bit * 2 + b.k.toNat * 2 ^ 16

/-- `ACC` word `j` (R22, R63). -/
def State.accWord (s : State) (j : Fin 3) : Nat :=
  match j with
  | 0 => s.cfg.width.low s.a0
  | 1 => s.cfg.width.low s.a1
  | 2 => s.cfg.width.low s.a2

/-- A host write of `ACC` word `j` (R63). -/
def State.setAccWord (s : State) (j : Fin 3) (v : Nat) : State :=
  match j with
  | 0 => { s with a0 := s.cfg.width.cell v }
  | 1 => { s with a1 := s.cfg.width.cell v }
  | 2 => { s with a2 := s.cfg.width.cell v }

/-- `DLEN` as the host reads it (R25): `LEN` in `[W-2:0]`, `NEG` in `[W-1]`. -/
def State.lenNeg (s : State) (d : DReg) : Nat :=
  s.len d + (if s.neg d then 2 ^ (s.cfg.width.bits - 1) else 0)

/-- The value a host read returns (R63 to R66). -/
def State.portValue (s : State) : Port → Nat
  | .id => 0x4D524544
  | .config => configWord s.cfg
  | .memsize => s.cfg.memWords
  | .status => s.status.word
  | .cmd => 0
  | .x i => s.x i
  | .dbase i => s.base i
  | .dlen i => s.lenNeg i
  | .acc j => s.accWord j
  | .bctxinfo c => (s.ctx c).info
  | .opmem a => s.readWord a 0
  | .reserved => 0

/-- The state a host write of the value `v` leaves (R63 to R66); `CMD` is not written here. -/
def State.setPort (s : State) (v : Nat) : Port → State
  | .id => s
  | .config => s
  | .memsize => s
  | .status => s
  | .cmd => s
  | .x i => s.setX i v
  | .dbase i => s.setBase i v
  | .dlen i => s.setLenNeg i v
  | .acc j => s.setAccWord j v
  | .bctxinfo _ => s
  | .opmem a => s.writeWords a [v]
  | .reserved => s

/-- A host read (R65, R74): the value goes to the host, and nothing of the engine changes. -/
def hostRead (slot : SlotAddr) (s : State) : State :=
  { s with
    reads := s.cfg.width.cell (s.portValue (portOf s.cfg slot)) :: s.reads
    draws := s.draws + 1 }

/-- A host write of a slot other than `CMD` (R65); the slot carries the low `W` bits of `v` (R62). -/
def hostWrite (slot : SlotAddr) (v : Word) (s : State) : State :=
  { s.setPort (s.cfg.width.low v) (portOf s.cfg slot) with draws := s.draws + 1 }

/-- Reset, between two host accesses (R340, R43). The instance, the host's list and the values it has
read are not the engine's state, and the draws after a reset are fresh (R343). -/
def platformReset (s : State) : State := State.resetWith s.cfg s.host s.reads (s.draws + 1)

/-- The slot address of `CMD` (R63). -/
def cmdSlot : SlotAddr := 0x4#17

end Sys2Proof.Machine
end

