-- ==== Sys2Proof/Machine/Step.lean ====
section
/-! DEFINITION. One step: the next host action, taken whole (R70, R75). -/

namespace Sys2Proof.Machine

/-- The state once the host has issued its first action and `rest` is still to come. -/
def State.withHost (s : State) (rest : List HostAction) : State := { s with host := rest }

/-- A write of the value `v` to `CMD` (R41, R100): the command runs, or its decode error is raised. -/
def runCommand (v : Word) (s : State) : Result :=
  match decode s.cfg.width v with
  | .ok i => exec i s
  | .error e => raise (errOfDecode e) s

/-- One step. With no action left the run has ended and the engine is idle, holding its state (R315,
R348). -/
def step (s : State) : Host.Outcome State Fault Refusal :=
  match s.host with
  | [] => .next s
  | .read slot :: rest => .next (hostRead slot (s.withHost rest))
  | .write slot v :: rest =>
    if slot = cmdSlot then runCommand v (s.withHost rest) else .next (hostWrite slot v (s.withHost rest))
  | .reset :: rest => .next (platformReset (s.withHost rest))

/-- `s` with a host write of the command word `w` to `CMD` as its next action: the engine fetches
nothing (R40, R78), so this is where its next instruction comes from (assumption 7). -/
def State.withFetchWord (s : State) (nbits w : Nat) : State :=
  { s with host := .write cmdSlot (BitVec.ofNat 64 (w % 2 ^ nbits % 2 ^ 32)) :: s.host }

end Sys2Proof.Machine
end

