-- ==== Sys2Proof/Machine/Trace.lean ====
section
/-! DEFINITION. The access half of the constant-time rules: the OPMEM access trace of a command (R363)
and its public inputs (R361), the model's own functions beside the step, which `exec` does not use
(assumption 13). Time itself is not modelled (R360). -/

namespace Sys2Proof.Machine

/-- The direction of an OPMEM access (R363). -/
inductive AccessDir where
  | read
  | write
deriving DecidableEq, Repr

/-- One OPMEM access of a trace: a direction and a word address (R363). -/
structure OpmemAccess where
  dir : AccessDir
  addr : Nat
deriving DecidableEq, Repr

/-- Accesses to the `n` words from address `a` up, in ascending order (R363). -/
def sweep (dir : AccessDir) (a : Nat) : Nat → List OpmemAccess
  | 0 => []
  | n + 1 => ⟨dir, a⟩ :: sweep dir (a + 1) n

/-- The reads of every word of an input (R363). -/
def State.readSweep (s : State) (d : DReg) : List OpmemAccess := sweep .read (s.base d) (s.len d)

/-- The writes of every word of the result (R363). -/
def State.writeSweep (s : State) (d : DReg) : List OpmemAccess := sweep .write (s.base d) (s.len d)

/-! ### The descriptors of a command -/

/-- The descriptor through which a command writes OPMEM when it completes (R71, R73). -/
def resultDesc : Instr → Option DReg
  | .ctSelm dr _ _ _ | .mpMul dr _ _ | .montRedc dr _ _ _ | .barRed dr _ _ | .barMul dr _ _ _
  | .barSqr dr _ _ | .barCube dr _ _ => some dr
  | _ => none

/-- The input descriptors of a command: `DA` first and then `DB` (R363). -/
def inputDescs : Instr → List DReg
  | .nop | .clrerr | .w3Clr | .w3Add .. | .w3Mul .. | .w3Mstep .. | .w3Mstepx .. | .w3Extract ..
  | .ctMaskb .. | .ctMasknz .. | .ctMaskz .. | .ctMaskeq .. | .ctMasklt .. | .ctSel ..
  | .montPdash .. | .barFree .. => []
  | .ctSelm _ da db _ | .ctCmpltm da db _ | .ctCmpeqm da db _ | .mpMul _ da db | .montRedc _ da db _
  | .barMul _ da db _ => [da, db]
  | .barSetups da _ | .barSetupp da _ | .barRed _ da _ | .barSqr _ da _ | .barCube _ da _ => [da]

/-! ### A command that completes -/

/-- The OPMEM reads of a command that completes: every word of each input, but for `MONT.REDC`, which reads
exactly `2n` words of `DA` (R363). -/
def completedReads (i : Instr) (s : State) : List OpmemAccess :=
  match i with
  | .montRedc _ da db _ => sweep .read (s.base da) (2 * s.len db) ++ s.readSweep db
  | i => (inputDescs i).flatMap s.readSweep

/-- The OPMEM writes of a command that completes: every word of `DR` (R363). -/
def completedWrites (i : Instr) (s : State) : List OpmemAccess := (resultDesc i).toList.flatMap s.writeSweep

/-- Whether `BAR.RED` takes its fallback path (R238). -/
def State.fallback (s : State) (da : DReg) (ctx : CtxIx) : Bool :=
  decide (2 * (s.ctx ctx).words < sigWords s.cfg.width (s.val da 0))

/-- The variable-time cases, whose timing and trace R364 leaves open. -/
def variableTime (i : Instr) (s : State) : Bool :=
  match i with
  | .barSetupp _ _ => true
  | .barRed _ da ctx => s.fallback da ctx
  | _ => false

/-- The OPMEM trace of a command that completes: its reads, then its writes (R363). `none`: the spec leaves it
open, in the variable-time cases of R364. -/
def completedTrace (i : Instr) (s : State) : Option (List OpmemAccess) :=
  if variableTime i s then none else some (completedReads i s ++ completedWrites i s)

/-! ### The public inputs -/

/-- What a command's timing and trace may depend on beyond its descriptors (R361). DESIGN CHOICE for a command
that raises: a `BAR.RED` that runs no path counts as on the one its `x` and `K` would select (assumption 23),
and an operand outside OPMEM has the value that `State.val` gives it (assumption 24). -/
def furtherPublicInputs (i : Instr) (s : State) : List Nat :=
  match i with
  | .barSetups da _ => [sigWords s.cfg.width (s.val da 0)]
  | .barSetupp da _ => [s.val da 0]
  | .barRed _ da ctx =>
    if s.fallback da ctx then [(s.ctx ctx).words, 1, s.val da 0, (s.ctx ctx).m] else [(s.ctx ctx).words, 0]
  | .barMul _ _ _ ctx | .barSqr _ _ ctx | .barCube _ _ ctx => [(s.ctx ctx).words]
  | _ => []

/-- The public inputs of a command: the `BASE` and `LEN` of every descriptor it uses, and the further ones
(R361). `NEG` is not public. -/
def publicInputs (i : Instr) (s : State) : List Nat :=
  ((resultDesc i).toList ++ inputDescs i).flatMap (fun d => [s.base d, s.len d]) ++ furtherPublicInputs i s

/-- Two states of one instance agree on a command's public inputs (R361). -/
def samePublic (i : Instr) (s t : State) : Prop := s.cfg = t.cfg ∧ publicInputs i s = publicInputs i t

/-! ### A command that ends in error, and the trace of any command -/

/-- The detail code a command reports when it ends in error (R306); `none` when it completes. -/
def errorDetail (i : Instr) (s : State) : Option (BitVec 8) :=
  match exec i s with
  | .next t => if t.status.code = 0#4 then none else some t.status.detail
  | .fault _ => none
  | .refused _ => none

/-- Whether a command that ends in error with `detail` may have read operand data: not when it raises
`DESC_BOUNDS`, which is checked before operand data is read (R72), nor a check of R304's order before it. -/
def mayHaveRead (detail : BitVec 8) : Bool :=
  [Err.ctxIndex, .ctxInuse, .ctxUninit, .descBounds].all fun e => e.detail != detail

/-- The OPMEM reads that a command which ends in error may have made: those of R363. They
are a function of its public inputs (R362), and those of `MONT.REDC` hold no word of `DA` at `2n` and above
(R206), whatever the `NEG` of `DA` is (assumption 25). -/
def possibleReads (i : Instr) (s : State) : List OpmemAccess :=
  match i with
  | .montRedc _ da db _ =>
    sweep .read (s.base da) (min (s.len da) (2 * s.len db)) ++ s.readSweep db
  | i => (inputDescs i).flatMap s.readSweep

/-- The OPMEM trace of a command that ends in error with `detail`: no write, and of the reads it may have made
those that the free value `Config.failedRead` picks (R363, assumption 21). -/
def failedTrace (i : Instr) (s : State) (detail : BitVec 8) : List OpmemAccess :=
  if mayHaveRead detail then
    ((possibleReads i s).zipIdx.filter fun p =>
      s.cfg.failedRead (encode i) (publicInputs i s) detail p.2).map Prod.fst
  else []

/-- The OPMEM trace of a command, whichever way it ends (R363); `none` where R364 leaves it open. -/
def opmemTrace (i : Instr) (s : State) : Option (List OpmemAccess) :=
  match errorDetail i s with
  | some detail => some (failedTrace i s detail)
  | none => completedTrace i s

/-- The OPMEM trace of a write of `v` to `CMD` (R41, R363): that of the command, and no access where `v`
encodes none, since decoding comes before every other check (R304) and names no descriptor. -/
def commandWriteTrace (v : Word) (s : State) : Option (List OpmemAccess) :=
  match decode s.cfg.width v with
  | .ok i => opmemTrace i s
  | .error _ => some []

end Sys2Proof.Machine
end

