-- ==== Sys2Proof/Safety.lean ====
section
/-! DEFINITION. The terms claims are stated in: the invariant of the machine, what a command leaves
unchanged, what counts as a safe run, and the duties the spec puts on software (R342, R345). -/

namespace Sys2Proof.Machine

/-! ### The invariant -/

/-- `STATUS` holds a class and detail that some command can write (R30, R302, I2). -/
def Status.Legal (st : Status) : Prop :=
  (st.code = 0#4 ∧ st.detail = 0#8) ∨ ∃ e : Err, st = Status.failure e

/-- A Barrett slot of instance `cfg` holds a reducer, or nothing (R35, R37, R230). -/
def BarrettCtx.Legal (cfg : Config) (b : BarrettCtx) : Prop :=
  if b.valid then
    1 ≤ b.words ∧ b.words ≤ cfg.nmax ∧ cfg.width.base ^ (b.words - 1) ≤ b.m ∧
      b.m < cfg.width.base ^ b.words ∧ b.mu = cfg.width.base ^ (2 * b.words) / b.m
  else b = BarrettCtx.empty

/-- What every step keeps, whatever the host does. -/
structure State.Inv (s : State) : Prop where
  /-- registers hold `W`-bit words (R20) -/
  regs : ∀ i : XReg, s.regs[i].toNat < s.cfg.width.base
  /-- so do the accumulator's words (R22) -/
  acc : s.a0.toNat < s.cfg.width.base ∧ s.a1.toNat < s.cfg.width.base ∧ s.a2.toNat < s.cfg.width.base
  /-- `BASE` has `W` bits and `LEN` has `W - 1` (R24) -/
  descs : ∀ d : DReg, s.descs[d].base.toNat < s.cfg.width.base ∧
    s.descs[d].len.toNat < 2 ^ (s.cfg.width.bits - 1)
  /-- `STATUS` holds a value some command can write (R302) -/
  status : s.status.Legal
  /-- every slot is a reducer or empty (R35, R37), and the cells above `NCTX` are no slots -/
  bctx : ∀ c : CtxIx, (s.ctx c).Legal s.cfg ∧ (s.cfg.nctx ≤ c.val → s.ctx c = BarrettCtx.empty)
  /-- no workspace survives a command (R38) -/
  wsram : s.wsram = []
  /-- OPMEM is in canonical form -/
  opmemWf : s.opmem.wf
  /-- OPMEM has `MEM_WORDS` words of `W` bits (R60) -/
  opmemRange : ∀ p ∈ s.opmem, p.1 < s.cfg.memWords ∧ p.2.toNat < s.cfg.width.base

/-! ### What a command leaves unchanged -/

/-- The host's side and the instance are as before, and the next access draws fresh values. -/
def SameHost (s t : State) : Prop :=
  t.cfg = s.cfg ∧ t.host = s.host ∧ t.reads = s.reads ∧ t.draws = s.draws + 1

/-- Every word register is as before. -/
def SameX (s t : State) : Prop := ∀ r : XReg, t.x r = s.x r

/-- Every word register but `d` is as before. -/
def SameXBut (d : XReg) (s t : State) : Prop := ∀ r : XReg, r ≠ d → t.x r = s.x r

/-- The three words of `ACC` are as before. -/
def SameAcc (s t : State) : Prop := t.a0 = s.a0 ∧ t.a1 = s.a1 ∧ t.a2 = s.a2

/-- Every descriptor is as before, all three fields. -/
def SameDescs (s t : State) : Prop := ∀ d : DReg, t.base d = s.base d ∧ t.len d = s.len d ∧ t.neg d = s.neg d

/-- Every descriptor is as before, but that `D[dr].NEG` is now 0 (R27). -/
def DescsWithResult (dr : DReg) (s t : State) : Prop :=
  ∀ d : DReg, t.base d = s.base d ∧ t.len d = s.len d ∧ t.neg d = (if d = dr then false else s.neg d)

/-- Every Barrett slot is as before. -/
def SameCtx (s t : State) : Prop := ∀ c : CtxIx, t.ctx c = s.ctx c

/-- Every Barrett slot but `c` is as before. -/
def SameCtxBut (c : CtxIx) (s t : State) : Prop := ∀ c' : CtxIx, c' ≠ c → t.ctx c' = s.ctx c'

/-- Every OPMEM word is as before, written or not. -/
def SameMem (s t : State) : Prop := ∀ a : Nat, t.memWord a = s.memWord a

/-- Every OPMEM word outside the words of descriptor `d` in `s` is as before. -/
def SameMemBut (d : DReg) (s t : State) : Prop :=
  ∀ a : Nat, ¬(s.base d ≤ a ∧ a < s.base d + s.len d) → t.memWord a = s.memWord a

/-- The words of descriptor `d` of `s` hold, in `t`, the number `v` zero-extended (R10, `WriteResult`). -/
def ResultIs (d : DReg) (v : Nat) (s t : State) : Prop :=
  ∀ j : Nat, j < s.len d → t.memWord (s.base d + j) = some (v / s.cfg.width.base ^ j % s.cfg.width.base)

/-- `STATUS` records success and `STICKY` is as before (R305). -/
def StatusOk (s t : State) : Prop :=
  t.status.code = 0#4 ∧ t.status.detail = 0#8 ∧ t.status.sticky = s.status.sticky

/-- The error effect (R306): `STATUS` records `code` and `detail`, and nothing else of the engine has
changed. -/
def ErrorEffect (code : BitVec 4) (detail : BitVec 8) (s t : State) : Prop :=
  t.status = ⟨code, detail, true⟩ ∧ t.wsram = [] ∧ SameHost s t ∧ SameX s t ∧ SameAcc s t ∧
    SameDescs s t ∧ SameCtx s t ∧ SameMem s t

/-! ### What a command may write -/

/-- The word register a command writes when it completes (R21). -/
def destX : Instr → Option XReg
  | .w3Mstep rd _ _ | .w3Mstepx rd _ _ | .w3Extract rd => some rd
  | .ctMaskb rd _ | .ctMasknz rd _ | .ctMaskz rd _ | .ctMaskeq rd _ _ | .ctMasklt rd _ _
  | .ctSel rd _ _ _ => some rd
  | .ctCmpltm _ _ xr | .ctCmpeqm _ _ xr => some xr
  | .montPdash rd _ => some rd
  | _ => none

/-- The descriptor whose `NEG` a command clears when it completes: its result, but for `CT.SELM` (R27). -/
def clearedNeg : Instr → Option DReg
  | .mpMul dr _ _ | .montRedc dr _ _ _ | .barRed dr _ _ | .barMul dr _ _ _ | .barSqr dr _ _
  | .barCube dr _ _ => some dr
  | _ => none

/-- The six commands that use `ACC` (R23). -/
def usesAcc : Instr → Bool
  | .w3Clr | .w3Add _ | .w3Mul _ _ | .w3Mstep _ _ _ | .w3Mstepx _ _ _ | .w3Extract _ => true
  | _ => false

/-! ### The checks of a command -/

/-- `D[d].BASE + D[d].LEN` is at most `MEM_WORDS` (R72). -/
def InBounds (s : State) (d : DReg) : Prop := s.base d + s.len d ≤ s.cfg.memWords

/-- `overlap(d1, d2)` (R10). -/
def Overlaps (s : State) (d1 d2 : DReg) : Prop :=
  0 < s.len d1 ∧ 0 < s.len d2 ∧ s.base d1 < s.base d2 + s.len d2 ∧ s.base d2 < s.base d1 + s.len d1

/-- Command `i` in state `s` reports the first check of the list that fails, and only that one (R304), and
completes when none of them fails, so it has no other check: each check is the condition of an error with
its class and detail (R302). -/
def RaisesInOrder (i : Instr) (s : State) : List (Prop × BitVec 4 × BitVec 8) → Prop
  | [] => ∃ t, exec i s = .next t ∧ StatusOk s t
  | (failed, code, detail) :: rest =>
    (failed → ∃ t, exec i s = .next t ∧ ErrorEffect code detail s t) ∧ (¬failed → RaisesInOrder i s rest)

/-- Command words one after the other, with no host access between them. -/
def runCommands : List Instr → State → Result
  | [], s => .next s
  | i :: is, s =>
    match exec i s with
    | .next t => runCommands is t
    | .fault f => .fault f
    | .refused r => .refused r

/-- What a `W3.ADD` or `W3.MUL` adds to the accumulator (R122, R123). -/
def accTerm (s : State) : Instr → Nat
  | .w3Add a => s.x a
  | .w3Mul a b => s.x a * s.x b
  | _ => 0

/-- The reserved slots of R63: those that name nothing. -/
def SlotReserved (cfg : Config) (slot : SlotAddr) : Prop :=
  (0x5 ≤ slot.toNat ∧ slot.toNat ≤ 0xF) ∨ (0x33 ≤ slot.toNat ∧ slot.toNat ≤ 0x3F) ∨
    (0x40 + cfg.nctx ≤ slot.toNat ∧ slot.toNat ≤ 0xFFFF) ∨ 0x10000 + cfg.memWords ≤ slot.toNat

/-- The read-only slots of R63 and R65: `ID`, `CONFIG`, `MEMSIZE`, `STATUS` and each `BCTXINFO[s]`. -/
def SlotReadOnly (cfg : Config) (slot : SlotAddr) : Prop :=
  slot.toNat ≤ 0x3 ∨ (0x40 ≤ slot.toNat ∧ slot.toNat < 0x40 + cfg.nctx)

/-- What reset leaves (R43, R340): every register, the accumulator, every descriptor and `STATUS` 0, every
slot uninitialised, the workspace clear, and no word of OPMEM known. -/
def AfterReset (t : State) : Prop :=
  (∀ r : XReg, t.x r = 0) ∧ (∀ j : Fin 3, t.accWord j = 0) ∧
    (∀ d : DReg, t.base d = 0 ∧ t.len d = 0 ∧ t.neg d = false) ∧ t.status.word = 0 ∧
    (∀ c : CtxIx, (t.ctx c).valid = false ∧ (t.ctx c).mode = .secretModulus ∧ (t.ctx c).k = 0#16 ∧
      (t.ctx c).m = 0 ∧ (t.ctx c).mu = 0) ∧
    t.wsram = [] ∧ ∀ a : Nat, t.memWord a = none

/-! ### What counts as a safe run, and what software owes -/

/-- No command has failed since reset or the last `CLRERR` (R31, R300, R348). -/
def State.Quiet (s : State) : Prop := s.status.sticky = false

/-- Every word of descriptor `d` has been written since reset (R342, item 2). -/
def State.Written (s : State) (d : DReg) : Prop :=
  ∀ j : Nat, j < s.len d → (s.memWord (s.base d + j)).isSome

/-- A safe run: `k` steps from `s` end, and end quiet (R348). -/
def SafeRun (k : Nat) (s : State) : Prop := ∃ t : State, Sys2Proof.core.run k s = .next t ∧ t.Quiet

/-- The preconditions of Montgomery reduction that the engine does not check (R200, R205, R345): `p` odd,
`p_dash = p'`, and `z < p·R`. -/
def MontgomeryReady (w : Width) (z p n pd : Nat) : Prop :=
  p % 2 = 1 ∧ (p % w.base * pd + 1) % w.base = 0 ∧ z < p * w.base ^ n

end Sys2Proof.Machine
end

