-- ==== Sys2Proof/Certificates/Slice0/Obligations.lean ====
section
/-! DEFINITION. The statements for the provers. Each docstring names the rule of the spec it formalises. -/

section

open Sys2Proof Sys2Proof.Machine

/-! ### Encoding -/

/-- R96, R99 with the formats R92 to R94: decoding the encoding of any command gives the command back, as a
32-bit word and as the value written to `CMD` at either width (R90). -/
def Obligations.DecodeInvertsEncode : Prop :=
  ∀ (w : Width) (i : Instr), decodeWord (encode i) = .ok i ∧ decode w (commandValue i) = .ok i

/-- R99: a word that decodes to a command is that command's encoding, so every command has one word and the
decoder drops no bit. -/
def Obligations.EncodeInvertsDecode : Prop :=
  ∀ (c : BitVec 32) (i : Instr), decodeWord c = .ok i → encode i = c

/-- The line "Encoding" of every command's rule: the word as a sum of its opcode constant and its fields at
the bit positions the rule gives (R93, R94, R96). -/
def Obligations.EncodingsAreTheRulesWords : Prop :=
  (encode .nop).toNat = 0x00000000 ∧ (encode .clrerr).toNat = 0x04000000 ∧
  (encode .w3Clr).toNat = 0x20000000 ∧
  (∀ s : XReg, (encode (.w3Add s)).toNat = 0x24000000 + s.val * 2 ^ 18) ∧
  (∀ a b : XReg, (encode (.w3Mul a b)).toNat = 0x28000000 + a.val * 2 ^ 18 + b.val * 2 ^ 14) ∧
  (∀ d p0 pd : XReg, (encode (.w3Mstep d p0 pd)).toNat =
    0x2C000000 + d.val * 2 ^ 22 + p0.val * 2 ^ 18 + pd.val * 2 ^ 14) ∧
  (∀ d p0 pd : XReg, (encode (.w3Mstepx d p0 pd)).toNat =
    0x30000000 + d.val * 2 ^ 22 + p0.val * 2 ^ 18 + pd.val * 2 ^ 14) ∧
  (∀ d : XReg, (encode (.w3Extract d)).toNat = 0x34000000 + d.val * 2 ^ 22) ∧
  (∀ d s : XReg, (encode (.ctMaskb d s)).toNat = 0x40000000 + d.val * 2 ^ 22 + s.val * 2 ^ 18) ∧
  (∀ d s : XReg, (encode (.ctMasknz d s)).toNat = 0x44000000 + d.val * 2 ^ 22 + s.val * 2 ^ 18) ∧
  (∀ d s : XReg, (encode (.ctMaskz d s)).toNat = 0x48000000 + d.val * 2 ^ 22 + s.val * 2 ^ 18) ∧
  (∀ d a b : XReg, (encode (.ctMaskeq d a b)).toNat =
    0x4C000000 + d.val * 2 ^ 22 + a.val * 2 ^ 18 + b.val * 2 ^ 14) ∧
  (∀ d a b : XReg, (encode (.ctMasklt d a b)).toNat =
    0x50000000 + d.val * 2 ^ 22 + a.val * 2 ^ 18 + b.val * 2 ^ 14) ∧
  (∀ d m a b : XReg, (encode (.ctSel d m a b)).toNat =
    0x54000000 + d.val * 2 ^ 22 + m.val * 2 ^ 18 + a.val * 2 ^ 14 + b.val * 2 ^ 10) ∧
  (∀ (r a b : DReg) (m : XReg), (encode (.ctSelm r a b m)).toNat =
    0x58000000 + r.val * 2 ^ 23 + a.val * 2 ^ 20 + b.val * 2 ^ 17 + m.val * 2 ^ 13) ∧
  (∀ (a b : DReg) (d : XReg), (encode (.ctCmpltm a b d)).toNat =
    0x5C000000 + a.val * 2 ^ 20 + b.val * 2 ^ 17 + d.val * 2 ^ 13) ∧
  (∀ (a b : DReg) (d : XReg), (encode (.ctCmpeqm a b d)).toNat =
    0x60000000 + a.val * 2 ^ 20 + b.val * 2 ^ 17 + d.val * 2 ^ 13) ∧
  (∀ r a b : DReg, (encode (.mpMul r a b)).toNat =
    0x80000000 + r.val * 2 ^ 23 + a.val * 2 ^ 20 + b.val * 2 ^ 17) ∧
  (∀ d s : XReg, (encode (.montPdash d s)).toNat = 0x84000000 + d.val * 2 ^ 22 + s.val * 2 ^ 18) ∧
  (∀ (r z p : DReg) (pd : XReg), (encode (.montRedc r z p pd)).toNat =
    0x88000000 + r.val * 2 ^ 23 + z.val * 2 ^ 20 + p.val * 2 ^ 17 + pd.val * 2 ^ 13) ∧
  (∀ (m : DReg) (s : CtxIx), (encode (.barSetups m s)).toNat =
    0xA0000000 + m.val * 2 ^ 20 + s.val * 2 ^ 10) ∧
  (∀ (m : DReg) (s : CtxIx), (encode (.barSetupp m s)).toNat =
    0xA4000000 + m.val * 2 ^ 20 + s.val * 2 ^ 10) ∧
  (∀ s : CtxIx, (encode (.barFree s)).toNat = 0xA8000000 + s.val * 2 ^ 10) ∧
  (∀ (r x : DReg) (s : CtxIx), (encode (.barRed r x s)).toNat =
    0xAC000000 + r.val * 2 ^ 23 + x.val * 2 ^ 20 + s.val * 2 ^ 10) ∧
  (∀ (r x y : DReg) (s : CtxIx), (encode (.barMul r x y s)).toNat =
    0xB0000000 + r.val * 2 ^ 23 + x.val * 2 ^ 20 + y.val * 2 ^ 17 + s.val * 2 ^ 10) ∧
  (∀ (r x : DReg) (s : CtxIx), (encode (.barSqr r x s)).toNat =
    0xB4000000 + r.val * 2 ^ 23 + x.val * 2 ^ 20 + s.val * 2 ^ 10) ∧
  (∀ (r x : DReg) (s : CtxIx), (encode (.barCube r x s)).toNat =
    0xB8000000 + r.val * 2 ^ 23 + x.val * 2 ^ 20 + s.val * 2 ^ 10)

/-- Words written out in the rules' examples decode to the commands they stand for: one or more of each
family (R103, R121 to R126, R151 to R159, R190, R201, R231 to R241). -/
def Obligations.ExampleWordsDecode : Prop :=
  decodeWord 0x00000000#32 = .ok .nop ∧
  decodeWord 0x24140000#32 = .ok (.w3Add 5) ∧
  decodeWord 0x2CC48000#32 = .ok (.w3Mstep 3 1 2) ∧
  decodeWord 0x55048C00#32 = .ok (.ctSel 4 1 2 3) ∧
  decodeWord 0x5C4AC000#32 = .ok (.ctCmpltm 4 5 6) ∧
  decodeWord 0x81020000#32 = .ok (.mpMul 2 0 1) ∧
  decodeWord 0x89026000#32 = .ok (.montRedc 2 0 1 3) ∧
  decodeWord 0xA4000400#32 = .ok (.barSetupp 0 1) ∧
  decodeWord 0xB1160000#32 = .ok (.barMul 2 1 3 0) ∧
  decodeWord 0x00000001#32 = .error .reservedField ∧
  decodeWord 0x08000001#32 = .error .undefOpcode

/-- R98: a `CMD` write whose word has an undefined opcode, whatever its other bits, does nothing but raise
`IllegalCommand(UNDEF_OPCODE)`; with `W = 64` the upper half is 0, or R90 applies first. -/
def Obligations.UndefinedOpcodesRaise : Prop :=
  ∀ (s : State) (v : Word) (rest : List HostAction) (o : Nat),
    s.host = .write cmdSlot v :: rest → (s.cfg.width = .w64 → v.toNat < 2 ^ 32) →
    o = v.toNat % 2 ^ 32 / 2 ^ 26 →
    ((0x02 ≤ o ∧ o ≤ 0x07) ∨ (0x0E ≤ o ∧ o ≤ 0x0F) ∨ (0x19 ≤ o ∧ o ≤ 0x1F) ∨ (0x23 ≤ o ∧ o ≤ 0x27) ∨
      (0x2F ≤ o ∧ o ≤ 0x3F)) →
    ∃ t, step s = .next t ∧ ErrorEffect 3#4 0x01#8 (s.withHost rest) t

/-- R97, R100: a `CMD` write whose opcode is some command's and whose word encodes no command, so that a
reserved or unused field is not 0, does nothing but raise `IllegalCommand(RESERVED_FIELD)`. -/
def Obligations.ReservedFieldsRaise : Prop :=
  ∀ (s : State) (v : Word) (rest : List HostAction),
    s.host = .write cmdSlot v :: rest → (s.cfg.width = .w64 → v.toNat < 2 ^ 32) →
    (∃ i : Instr, (encode i).toNat / 2 ^ 26 = v.toNat % 2 ^ 32 / 2 ^ 26) →
    (∀ i : Instr, (encode i).toNat ≠ v.toNat % 2 ^ 32) →
    ∃ t, step s = .next t ∧ ErrorEffect 3#4 0x02#8 (s.withHost rest) t

/-- R90, R100, R304: with `W = 64`, a `CMD` value with a bit above 31 raises
`IllegalCommand(RESERVED_FIELD)`, whatever its low word is, an undefined opcode included. -/
def Obligations.UpperHalfRaises : Prop :=
  ∀ (s : State) (v : Word) (rest : List HostAction),
    s.host = .write cmdSlot v :: rest → s.cfg.width = .w64 → 2 ^ 32 ≤ v.toNat →
    ∃ t, step s = .next t ∧ ErrorEffect 3#4 0x02#8 (s.withHost rest) t

/-! ### Steps, errors and success -/

/-- R41, R70, R100: a `CMD` write whose value decodes to a command is that command, executed as one step on
the state with the action taken from the host's list. -/
def Obligations.StepRunsDecodedCommand : Prop :=
  ∀ (s : State) (v : Word) (rest : List HostAction) (i : Instr),
    s.host = .write cmdSlot v :: rest → decode s.cfg.width v = .ok i → step s = exec i (s.withHost rest)

/-- R315, R348: with no host action left the engine is idle and holds all its state. The idle step is the
model's (assumption 7). -/
def Obligations.IdleStepHoldsState : Prop := ∀ s : State, s.host = [] → step s = .next s

/-- R317: every command in every state has exactly one result, a success effect or an error effect of one
of R302's causes; and every step, whatever the host does, has a next state. -/
def Obligations.EveryCommandEnds : Prop :=
  (∀ (i : Instr) (s : State), ∃ t, exec i s = .next t ∧
    ((t.status.code = 0#4 ∧ t.status.detail = 0#8) ∨ ∃ e : Err, ErrorEffect e.code e.detail s t)) ∧
  ∀ s : State, ∃ t, step s = .next t

/-- R306: a command that ends in error, of whatever cause, a decode error included, writes `CODE`, `DETAIL`
and `STICKY`, clears the workspace, and changes nothing else. -/
def Obligations.ErrorsChangeOnlyStatus : Prop :=
  (∀ (i : Instr) (s t : State), exec i s = .next t → t.status.code ≠ 0#4 →
    ∃ e : Err, ErrorEffect e.code e.detail s t) ∧
  ∀ (s t : State) (v : Word) (rest : List HostAction), s.host = .write cmdSlot v :: rest →
    step s = .next t → t.status.code ≠ 0#4 → ∃ e : Err, ErrorEffect e.code e.detail (s.withHost rest) t

/-- R305: a command that does not have an error effect writes `CODE` and `DETAIL` 0 and leaves `STICKY`
unchanged, except `CLRERR`, which clears it. -/
def Obligations.SuccessRecordsOk : Prop :=
  ∀ (i : Instr) (s t : State), exec i s = .next t → (¬∃ e : Err, ErrorEffect e.code e.detail s t) →
    t.status.code = 0#4 ∧ t.status.detail = 0#8 ∧
      t.status.sticky = (if i = .clrerr then false else s.status.sticky)

/-- R31: every `CMD` write that ends in error sets `STICKY`; one that succeeds leaves it unchanged, but for
`CLRERR`; and no step but a `CLRERR` command or reset takes it from 1 to 0. -/
def Obligations.OnlyClrerrAndResetClearSticky : Prop :=
  (∀ (s t : State) (v : Word) (rest : List HostAction), s.host = .write cmdSlot v :: rest →
    step s = .next t → (t.status.code ≠ 0#4 → t.status.sticky = true) ∧
      (t.status.code = 0#4 → decode s.cfg.width v ≠ .ok .clrerr → t.status.sticky = s.status.sticky) ∧
      (decode s.cfg.width v = .ok .clrerr → t.status.sticky = false)) ∧
  ∀ s t : State, step s = .next t → s.status.sticky = true → t.status.sticky = false →
    (∃ rest, s.host = .reset :: rest) ∨
      ∃ v rest, s.host = .write cmdSlot v :: rest ∧ decode s.cfg.width v = .ok .clrerr

/-- R309, R318: an earlier error does not block or change later commands. A command's result is the same
whatever `STATUS` held before it, but for `STICKY`. Both runs draw the same values for unwritten OPMEM words:
the model's choice, unsafe there, since R318 excepts that case (assumption 3). -/
def Obligations.StatusNeverBlocksCommands : Prop :=
  ∀ (i : Instr) (s : State) (st : Status), ∃ t t' : State,
    exec i s = .next t ∧ exec i { s with status := st } = .next t' ∧
      t'.status.code = t.status.code ∧ t'.status.detail = t.status.detail ∧
      ({ t' with status := t.status } : State) = t

/-! ### What commands may write and read -/

/-- R21: a command changes at most one word register, the one its rule names. -/
def Obligations.OnlyTheDestinationRegisterChanges : Prop :=
  ∀ (i : Instr) (s t : State) (r : XReg), exec i s = .next t → t.x r ≠ s.x r → destX i = some r

/-- R23: only the six `W3.*` commands write `ACC`, and no other command reads it: its result is the same
whatever `ACC` holds. Both runs draw the same values for unwritten OPMEM words: the model's choice, unsafe
there (assumption 3). -/
def Obligations.OnlyWord3CommandsUseTheAccumulator : Prop :=
  ∀ (i : Instr) (s : State) (x0 x1 x2 : Word), usesAcc i = false → ∃ t : State,
    exec i s = .next t ∧ SameAcc s t ∧
      exec i { s with a0 := x0, a1 := x1, a2 := x2 } = .next { t with a0 := x0, a1 := x1, a2 := x2 }

/-- R27: commands never write `BASE` or `LEN`; one that writes a multi-precision result clears the `NEG` of
its result descriptor; `CT.SELM`, every other command and every error leave `NEG` as it was. -/
def Obligations.DescriptorsKeepBaseAndLen : Prop :=
  ∀ (i : Instr) (s t : State) (d : DReg), exec i s = .next t →
    t.base d = s.base d ∧ t.len d = s.len d ∧
      t.neg d = (if t.status.code = 0#4 ∧ clearedNeg i = some d then false else s.neg d)

/-- R37: while a slot is valid nothing changes it: a step after which it differs is a `BAR.FREE` of it or a
reset, and leaves it uninitialised. -/
def Obligations.ValidSlotsAreImmutable : Prop :=
  ∀ (s t : State) (c : CtxIx), step s = .next t → (s.ctx c).valid = true → t.ctx c ≠ s.ctx c →
    t.ctx c = BarrettCtx.empty ∧
      ((∃ rest, s.host = .reset :: rest) ∨
        ∃ v rest, s.host = .write cmdSlot v :: rest ∧ decode s.cfg.width v = .ok (.barFree c))

/-- R71, R72, R306: the only words of OPMEM a command changes are those of its result descriptor, inside
OPMEM, and only when it completes. -/
def Obligations.OnlyResultWordsChange : Prop :=
  ∀ (i : Instr) (s t : State) (a : Nat), exec i s = .next t → t.memWord a ≠ s.memWord a →
    t.status.code = 0#4 ∧ a < s.cfg.memWords ∧
      ∃ d, resultDesc i = some d ∧ s.base d ≤ a ∧ a < s.base d + s.len d

/-- R38: after every command, successful or not, the workspace is clear, and no command's result depends on
what it held. Both runs draw the same values for unwritten OPMEM words: the model's choice, unsafe there
(assumption 3). -/
def Obligations.WorkspaceIsWipedAndUnused : Prop :=
  ∀ (i : Instr) (s : State) (m : Memory), ∃ t : State,
    exec i s = .next t ∧ t.wsram = [] ∧ exec i { s with wsram := m } = .next t

/-- R233: on one modulus the two setups write the same `VALID`, `K`, `M`, `MU` and `STATUS`; and a slot's
`MODE` changes no later command's result or `STATUS`. In both clauses the two runs draw the same values for
unwritten OPMEM words: the model's choice, unsafe there (assumption 3). -/
def Obligations.ModeChangesNoResult : Prop :=
  (∀ (da : DReg) (c : CtxIx) (s : State), ∃ t t' : State,
    exec (.barSetups da c) s = .next t ∧ exec (.barSetupp da c) s = .next t' ∧ t'.status = t.status ∧
      (t'.ctx c).valid = (t.ctx c).valid ∧ (t'.ctx c).k = (t.ctx c).k ∧ (t'.ctx c).m = (t.ctx c).m ∧
      (t'.ctx c).mu = (t.ctx c).mu) ∧
  ∀ (i : Instr) (s : State) (c : CtxIx) (md : Mode), ∃ t t' : State,
    exec i s = .next t ∧ exec i (s.setCtx c { s.ctx c with mode := md }) = .next t' ∧
      t'.status = t.status ∧ t'.regs = t.regs ∧ t'.descs = t.descs ∧ t'.opmem = t.opmem ∧
      SameAcc t t' ∧
      ∀ k : CtxIx, (t'.ctx k).valid = (t.ctx k).valid ∧ (t'.ctx k).k = (t.ctx k).k ∧
        (t'.ctx k).m = (t.ctx k).m ∧ (t'.ctx k).mu = (t.ctx k).mu

/-- R35, R310: no host access reads out a slot's `M` or `MU`: a host read of any slot returns the same value
whatever they are. For a slot that is an unwritten OPMEM word the two runs draw the same value: the model's
choice, unsafe there (assumption 3). -/
def Obligations.SlotSecretsAreUnreadable : Prop :=
  ∀ (s : State) (c : CtxIx) (m mu : Nat) (slot : SlotAddr) (rest : List HostAction),
    s.host = .read slot :: rest → ∃ t t' : State,
      step s = .next t ∧ step (s.setCtx c { s.ctx c with m := m, mu := mu }) = .next t' ∧
        t'.reads = t.reads

/-! ### The host's slots -/

/-- R63, R65, R66, R74: a host read returns what the slot map names, and has no effect on the engine. A read
of an OPMEM word is stated here for a word that has been written; the other case is the next statement. -/
def Obligations.HostReadsReturnTheSlotMap : Prop :=
  ∀ (s : State) (slot : SlotAddr) (rest : List HostAction), s.host = .read slot :: rest → ∃ v : Word,
    step s = .next { s with host := rest, reads := v :: s.reads, draws := s.draws + 1 } ∧
    (slot.toNat = 0x0 → v.toNat = 0x4D524544) ∧
    (slot.toNat = 0x1 → v.toNat = s.cfg.width.bits + s.cfg.nctx * 2 ^ 8 + s.cfg.nmax * 2 ^ 16) ∧
    (slot.toNat = 0x2 → v.toNat = s.cfg.memWords) ∧
    (slot.toNat = 0x3 → v.toNat = s.status.code.toNat + s.status.detail.toNat * 2 ^ 4 +
      (if s.status.sticky then 2 ^ 31 else 0)) ∧
    (slot.toNat = 0x4 → v.toNat = 0) ∧
    (∀ r : XReg, slot.toNat = 0x10 + r.val → v.toNat = s.x r) ∧
    (∀ d : DReg, slot.toNat = 0x20 + 2 * d.val → v.toNat = s.base d) ∧
    (∀ d : DReg, slot.toNat = 0x21 + 2 * d.val →
      v.toNat = s.len d + (if s.neg d then 2 ^ (s.cfg.width.bits - 1) else 0)) ∧
    (slot.toNat = 0x30 → v.toNat = s.a0.toNat % 2 ^ s.cfg.width.bits) ∧
    (slot.toNat = 0x31 → v.toNat = s.a1.toNat % 2 ^ s.cfg.width.bits) ∧
    (slot.toNat = 0x32 → v.toNat = s.a2.toNat % 2 ^ s.cfg.width.bits) ∧
    (∀ c : CtxIx, c.val < s.cfg.nctx → slot.toNat = 0x40 + c.val →
      v.toNat = (if (s.ctx c).valid then 1 else 0) +
        (if (s.ctx c).mode = .publicModulus then 2 else 0) + (s.ctx c).k.toNat * 2 ^ 16) ∧
    (∀ a x : Nat, a < s.cfg.memWords → slot.toNat = 0x10000 + a → s.memWord a = some x → v.toNat = x)

/-- R61, I1: two host reads of an OPMEM word never written since reset return two free draws with no relation
between them. The form of the draw is the model's choice (assumption 3). -/
def Obligations.UnwrittenWordsReadAsFreshDraws : Prop :=
  ∀ (s : State) (slot : SlotAddr) (rest : List HostAction) (a : Nat),
    s.host = .read slot :: .read slot :: rest → slot.toNat = 0x10000 + a → a < s.cfg.memWords →
    s.memWord a = none → ∃ t u : State, step s = .next t ∧ step t = .next u ∧
      u.reads.map BitVec.toNat =
        (Config.freeWord (s.draws + 1) 0).toNat % 2 ^ s.cfg.width.bits ::
          (Config.freeWord s.draws 0).toNat % 2 ^ s.cfg.width.bits :: s.reads.map BitVec.toNat

/-- R64: a reserved slot reads 0, and a write to it has no effect; neither raises an error or changes
`STATUS`. -/
def Obligations.ReservedSlotsReadZeroAndIgnoreWrites : Prop :=
  ∀ (s : State) (slot : SlotAddr) (v : Word) (rest : List HostAction), SlotReserved s.cfg slot →
    (s.host = .read slot :: rest →
      step s = .next { s with host := rest, reads := 0#64 :: s.reads, draws := s.draws + 1 }) ∧
    (s.host = .write slot v :: rest → step s = .next { s with host := rest, draws := s.draws + 1 })

/-- R32, R65: a host write of a read-only slot changes no state. -/
def Obligations.ReadOnlySlotsIgnoreWrites : Prop :=
  ∀ (s : State) (slot : SlotAddr) (v : Word) (rest : List HostAction), SlotReadOnly s.cfg slot →
    s.host = .write slot v :: rest → step s = .next { s with host := rest, draws := s.draws + 1 }

/-- R20, R22, R25, R63, R65: a host write of a register slot writes exactly the state the slot names: a word
register, `BASE`, `LEN` and `NEG` together, or a word of `ACC`. -/
def Obligations.HostWritesRegisters : Prop :=
  ∀ (s : State) (slot : SlotAddr) (v : Word) (rest : List HostAction), s.host = .write slot v :: rest →
    (∀ r : XReg, slot.toNat = 0x10 + r.val → ∃ t, step s = .next t ∧
      t.x r = v.toNat % 2 ^ s.cfg.width.bits ∧ SameXBut r s t ∧ SameAcc s t ∧ SameDescs s t ∧
      t.status = s.status ∧ SameCtx s t ∧ SameMem s t ∧ SameHost (s.withHost rest) t) ∧
    (∀ d : DReg, slot.toNat = 0x20 + 2 * d.val → ∃ t, step s = .next t ∧
      t.base d = v.toNat % 2 ^ s.cfg.width.bits ∧ t.len d = s.len d ∧ t.neg d = s.neg d ∧
      (∀ e : DReg, e ≠ d → t.base e = s.base e ∧ t.len e = s.len e ∧ t.neg e = s.neg e) ∧
      SameX s t ∧ SameAcc s t ∧ t.status = s.status ∧ SameCtx s t ∧ SameMem s t ∧
      SameHost (s.withHost rest) t) ∧
    (∀ d : DReg, slot.toNat = 0x21 + 2 * d.val → ∃ t, step s = .next t ∧
      t.len d = v.toNat % 2 ^ (s.cfg.width.bits - 1) ∧
      t.neg d = decide (v.toNat / 2 ^ (s.cfg.width.bits - 1) % 2 = 1) ∧ t.base d = s.base d ∧
      (∀ e : DReg, e ≠ d → t.base e = s.base e ∧ t.len e = s.len e ∧ t.neg e = s.neg e) ∧
      SameX s t ∧ SameAcc s t ∧ t.status = s.status ∧ SameCtx s t ∧ SameMem s t ∧
      SameHost (s.withHost rest) t) ∧
    (∀ j : Fin 3, slot.toNat = 0x30 + j.val → ∃ t, step s = .next t ∧
      t.accWord j = v.toNat % 2 ^ s.cfg.width.bits ∧
      (∀ k : Fin 3, k ≠ j → t.accWord k = s.accWord k) ∧
      SameX s t ∧ SameDescs s t ∧ t.status = s.status ∧ SameCtx s t ∧ SameMem s t ∧
      SameHost (s.withHost rest) t)

/-- R66: a host write of slot `0x10000 + a` stores all `W` bits in OPMEM word `a`, and changes no other
word. -/
def Obligations.HostWritesOpmem : Prop :=
  ∀ (s : State) (slot : SlotAddr) (v : Word) (rest : List HostAction) (a : Nat),
    s.host = .write slot v :: rest → slot.toNat = 0x10000 + a → a < s.cfg.memWords →
    ∃ t, step s = .next t ∧ t.memWord a = some (v.toNat % 2 ^ s.cfg.width.bits) ∧
      (∀ b : Nat, b ≠ a → t.memWord b = s.memWord b) ∧ SameX s t ∧ SameAcc s t ∧ SameDescs s t ∧
      t.status = s.status ∧ SameCtx s t ∧ SameHost (s.withHost rest) t

/-! ### Reset and the invariant -/

/-- R43, R340: reset, in whatever state it is applied, sets every piece of state to its reset value and makes
every OPMEM word unwritten. That the host's list, the values it has read and the instance are kept is the
model's (assumption 9). -/
def Obligations.ResetSetsEveryResetValue : Prop :=
  ∀ (s : State) (rest : List HostAction), s.host = .reset :: rest → ∃ t, step s = .next t ∧
    AfterReset t ∧ t.cfg = s.cfg ∧ t.host = rest ∧ t.reads = s.reads ∧ s.draws < t.draws

/-- R43, R341: the machine right after reset. -/
def Obligations.ResetStateIsR43 : Prop := AfterReset State.reset ∧ State.reset.Quiet

/-- R43: the invariant holds right after reset, of every instance, with whatever program to come, values
already read and draws made; so it does in `State.reset`, whose instance is the model's choice
(assumption 2). -/
def Obligations.ResetMeetsInvariant : Prop :=
  (∀ (cfg : Config) (host : List HostAction) (reads : List Word) (draws : Nat),
    (State.resetWith cfg host reads draws).Inv) ∧ State.reset.Inv

/-- R20, R24, R30, R35, R37, R38, R60, R302: every step keeps the invariant, whatever the host does:
registers hold `W`-bit words, `STATUS` holds a value of R302, every slot is a reducer or empty, the
workspace is clear, OPMEM is in canonical form inside its range. -/
def Obligations.StepKeepsInvariant : Prop := ∀ s t : State, s.Inv → step s = .next t → t.Inv

/-! ### Engine control -/

/-- R280, R281: `NOP` does nothing but record success; `CLRERR` leaves `STATUS` 0 and everything else as it
was. -/
def Obligations.ControlCommandsTouchOnlyStatus : Prop :=
  ∀ s : State,
    (∃ t, exec .nop s = .next t ∧ StatusOk s t ∧ SameHost s t ∧ SameX s t ∧ SameAcc s t ∧ SameDescs s t ∧
      SameCtx s t ∧ SameMem s t) ∧
    ∃ t, exec .clrerr s = .next t ∧ t.status.word = 0 ∧ SameHost s t ∧ SameX s t ∧ SameAcc s t ∧
      SameDescs s t ∧ SameCtx s t ∧ SameMem s t

/-! ### The word-triple accumulator -/

/-- R120 to R123: `W3.CLR`, `W3.ADD` and `W3.MUL` leave 0, the sum with a word, and the sum with a full
product, modulo `2^(3W)`, and change nothing else. -/
def Obligations.AccumulatorAddsModulo3W : Prop :=
  ∀ (s : State) (a b : XReg),
    (∃ t, exec .w3Clr s = .next t ∧ t.acc = 0 ∧ StatusOk s t ∧ SameHost s t ∧ SameX s t ∧ SameDescs s t ∧
      SameCtx s t ∧ SameMem s t) ∧
    (∃ t, exec (.w3Add a) s = .next t ∧ t.acc = (s.acc + s.x a) % 2 ^ (3 * s.cfg.width.bits) ∧
      StatusOk s t ∧ SameHost s t ∧ SameX s t ∧ SameDescs s t ∧ SameCtx s t ∧ SameMem s t) ∧
    ∃ t, exec (.w3Mul a b) s = .next t ∧ t.acc = (s.acc + s.x a * s.x b) % 2 ^ (3 * s.cfg.width.bits) ∧
      StatusOk s t ∧ SameHost s t ∧ SameX s t ∧ SameDescs s t ∧ SameCtx s t ∧ SameMem s t

/-- R124, R125, R11: the Montgomery step writes the quotient digit, computed from the old low word, and adds
its product with `p0` as `p0` was before the command; `W3.MSTEPX` then drops the low word. -/
def Obligations.MontgomeryStepsFoldTheLowWord : Prop :=
  ∀ (s : State) (d p0 pd : XReg) (u : Nat), u = s.acc * s.x pd % 2 ^ s.cfg.width.bits →
    (∃ t, exec (.w3Mstep d p0 pd) s = .next t ∧ t.x d = u ∧
      t.acc = (s.acc + u * s.x p0) % 2 ^ (3 * s.cfg.width.bits) ∧
      SameXBut d s t ∧ StatusOk s t ∧ SameHost s t ∧ SameDescs s t ∧ SameCtx s t ∧ SameMem s t) ∧
    ∃ t, exec (.w3Mstepx d p0 pd) s = .next t ∧ t.x d = u ∧
      t.acc = (s.acc + u * s.x p0) % 2 ^ (3 * s.cfg.width.bits) / 2 ^ s.cfg.width.bits ∧
      t.accWord 2 = 0 ∧
      SameXBut d s t ∧ StatusOk s t ∧ SameHost s t ∧ SameDescs s t ∧ SameCtx s t ∧ SameMem s t

/-- Derived from R120, R124, R125 and R127: with `X[p0]` odd and `X[pd]` its `p'`, the low word is 0 after
`W3.MSTEP`, so that `W3.MSTEPX` divides the sum modulo `2^(3W)` exactly and drops no low word. -/
def Obligations.MontgomeryStepClearsTheLowWord : Prop :=
  ∀ (s t : State) (d p0 pd : XReg), s.x p0 % 2 = 1 →
    (s.x p0 * s.x pd + 1) % 2 ^ s.cfg.width.bits = 0 →
    (exec (.w3Mstep d p0 pd) s = .next t → t.accWord 0 = 0) ∧
    (exec (.w3Mstepx d p0 pd) s = .next t →
      t.acc * 2 ^ s.cfg.width.bits =
        (s.acc + s.acc * s.x pd % 2 ^ s.cfg.width.bits * s.x p0) % 2 ^ (3 * s.cfg.width.bits))

/-- R126: `W3.EXTRACT` writes the low word and shifts the accumulator down one word; three of them, into
three different registers, take out its three words and leave it 0. -/
def Obligations.ExtractShiftsWordsOut : Prop :=
  (∀ (s : State) (d : XReg), ∃ t, exec (.w3Extract d) s = .next t ∧ t.x d = s.accWord 0 ∧
    t.acc = s.acc / 2 ^ s.cfg.width.bits ∧ SameXBut d s t ∧ StatusOk s t ∧ SameHost s t ∧
    SameDescs s t ∧ SameCtx s t ∧ SameMem s t) ∧
  ∀ (s : State) (d e f : XReg), d ≠ e → d ≠ f → e ≠ f →
    ∃ t, runCommands [.w3Extract d, .w3Extract e, .w3Extract f] s = .next t ∧ t.x d = s.accWord 0 ∧
      t.x e = s.accWord 1 ∧ t.x f = s.accWord 2 ∧ t.acc = 0

/-- R128: from an accumulator below `2^(2W)`, a sequence of `t` `W3.ADD` and `W3.MUL` commands with
`t + 1 <= 2^W` leaves the exact sum, below `(t+1)·2^(2W)`: it never wraps. -/
def Obligations.ProductScanningColumnsNeverWrap : Prop :=
  ∀ (is : List Instr) (s : State),
    (∀ i ∈ is, (∃ a, i = .w3Add a) ∨ ∃ a b, i = .w3Mul a b) →
    s.acc < 2 ^ (2 * s.cfg.width.bits) → is.length + 1 ≤ 2 ^ s.cfg.width.bits →
    ∃ t, runCommands is s = .next t ∧ t.acc = s.acc + (is.map (accTerm s)).sum ∧
      t.acc < (is.length + 1) * 2 ^ (2 * s.cfg.width.bits) ∧ SameX s t

/-! ### Masks, selects and compares -/

/-- R150 to R155: each mask command writes all ones or 0 by its condition, and changes nothing else. -/
def Obligations.MaskCommandsWriteMasks : Prop :=
  ∀ (s : State) (d a b : XReg),
    (∃ t, exec (.ctMaskb d a) s = .next t ∧
      t.x d = (if s.x a % 2 = 1 then 2 ^ s.cfg.width.bits - 1 else 0) ∧ SameXBut d s t ∧
      StatusOk s t ∧ SameHost s t ∧ SameAcc s t ∧ SameDescs s t ∧ SameCtx s t ∧ SameMem s t) ∧
    (∃ t, exec (.ctMasknz d a) s = .next t ∧
      t.x d = (if s.x a ≠ 0 then 2 ^ s.cfg.width.bits - 1 else 0) ∧ SameXBut d s t ∧
      StatusOk s t ∧ SameHost s t ∧ SameAcc s t ∧ SameDescs s t ∧ SameCtx s t ∧ SameMem s t) ∧
    (∃ t, exec (.ctMaskz d a) s = .next t ∧
      t.x d = (if s.x a = 0 then 2 ^ s.cfg.width.bits - 1 else 0) ∧ SameXBut d s t ∧
      StatusOk s t ∧ SameHost s t ∧ SameAcc s t ∧ SameDescs s t ∧ SameCtx s t ∧ SameMem s t) ∧
    (∃ t, exec (.ctMaskeq d a b) s = .next t ∧
      t.x d = (if s.x a = s.x b then 2 ^ s.cfg.width.bits - 1 else 0) ∧ SameXBut d s t ∧
      StatusOk s t ∧ SameHost s t ∧ SameAcc s t ∧ SameDescs s t ∧ SameCtx s t ∧ SameMem s t) ∧
    ∃ t, exec (.ctMasklt d a b) s = .next t ∧
      t.x d = (if s.x a < s.x b then 2 ^ s.cfg.width.bits - 1 else 0) ∧ SameXBut d s t ∧
      StatusOk s t ∧ SameHost s t ∧ SameAcc s t ∧ SameDescs s t ∧ SameCtx s t ∧ SameMem s t

/-- R156: `CT.SEL` takes each bit of `a` where the mask's bit is 1 and of `b` where it is 0, with any mask
word, and `d` may be any source. -/
def Obligations.SelectBlendsBitByBit : Prop :=
  ∀ (s : State) (d m a b : XReg), ∃ t, exec (.ctSel d m a b) s = .next t ∧
    (∀ j : Nat, (t.x d).testBit j =
      if (s.x m).testBit j then (s.x a).testBit j else (s.x b).testBit j) ∧
    SameXBut d s t ∧ StatusOk s t ∧ SameHost s t ∧ SameAcc s t ∧ SameDescs s t ∧ SameCtx s t ∧ SameMem s t

/-- R157: `CT.SELM` on three operands of one length inside OPMEM, the result apart from each input or at
its very `BASE`, blends every word, all reads first, and leaves `D[DR].NEG` and every other word as they
were. -/
def Obligations.ArraySelectBlendsEveryWord : Prop :=
  ∀ (s : State) (dr da db : DReg) (xm : XReg),
    InBounds s dr → InBounds s da → InBounds s db → s.len da = s.len dr → s.len db = s.len dr →
    (Overlaps s dr da → s.base dr = s.base da) → (Overlaps s dr db → s.base dr = s.base db) →
    ∃ t, exec (.ctSelm dr da db xm) s = .next t ∧
      (∀ j : Nat, j < s.len dr → ∃ v, t.memWord (s.base dr + j) = some v ∧ ∀ k : Nat,
        v.testBit k = if (s.x xm).testBit k then (s.readWord (s.base da + j) j).testBit k
          else (s.readWord (s.base db + j) (s.len da + j)).testBit k) ∧
      SameMemBut dr s t ∧ SameX s t ∧ StatusOk s t ∧ SameHost s t ∧ SameAcc s t ∧ SameDescs s t ∧
      SameCtx s t

/-- R157, R304: the errors of `CT.SELM`, first of `DESC_BOUNDS`, `SIZE`, `ALIAS`; it completes when none of them
applies. -/
def Obligations.ArraySelectChecksInOrder : Prop :=
  ∀ (s : State) (dr da db : DReg) (xm : XReg), RaisesInOrder (.ctSelm dr da db xm) s
    [ (¬InBounds s dr ∨ ¬InBounds s da ∨ ¬InBounds s db, 1#4, 0x11#8),
      (s.len da ≠ s.len dr ∨ s.len db ≠ s.len dr, 1#4, 0x16#8),
      ((Overlaps s dr da ∧ s.base dr ≠ s.base da) ∨ (Overlaps s dr db ∧ s.base dr ≠ s.base db),
        1#4, 0x17#8) ]

/-- R158, R159: the array compares of operands inside OPMEM return the mask of the order or equality of
their magnitudes, whatever their lengths and signs; an operand outside OPMEM raises `DESC_BOUNDS`. -/
def Obligations.ArrayComparesReturnMasks : Prop :=
  ∀ (s : State) (da db : DReg) (d : XReg),
    (InBounds s da → InBounds s db →
      (∃ t, exec (.ctCmpltm da db d) s = .next t ∧
        t.x d = (if s.val da 0 < s.val db (s.len da) then 2 ^ s.cfg.width.bits - 1 else 0) ∧
        SameXBut d s t ∧ StatusOk s t ∧ SameHost s t ∧ SameAcc s t ∧ SameDescs s t ∧ SameCtx s t ∧
        SameMem s t) ∧
      ∃ t, exec (.ctCmpeqm da db d) s = .next t ∧
        t.x d = (if s.val da 0 = s.val db (s.len da) then 2 ^ s.cfg.width.bits - 1 else 0) ∧
        SameXBut d s t ∧ StatusOk s t ∧ SameHost s t ∧ SameAcc s t ∧ SameDescs s t ∧ SameCtx s t ∧
        SameMem s t) ∧
    (¬InBounds s da ∨ ¬InBounds s db →
      (∃ t, exec (.ctCmpltm da db d) s = .next t ∧ ErrorEffect 1#4 0x11#8 s t) ∧
      ∃ t, exec (.ctCmpeqm da db d) s = .next t ∧ ErrorEffect 1#4 0x11#8 s t)

/-! ### Multi-precision multiply -/

/-- R190: `MP.MUL` on operands that pass its checks writes the exact product, zero-extended to the whole
result, clears its `NEG`, and leaves every other word as it was; read back, the result is the product. -/
def Obligations.MultiplyWritesTheExactProduct : Prop :=
  ∀ (s : State) (dr da db : DReg),
    InBounds s dr → InBounds s da → InBounds s db → s.neg da = false → s.neg db = false →
    s.len da ≤ s.cfg.nmax → s.len db ≤ s.cfg.nmax → s.len da + s.len db ≤ s.len dr →
    ¬Overlaps s dr da → ¬Overlaps s dr db →
    ∃ t, exec (.mpMul dr da db) s = .next t ∧ ResultIs dr (s.val da 0 * s.val db (s.len da)) s t ∧
      (∀ pos, t.val dr pos = s.val da 0 * s.val db (s.len da)) ∧ DescsWithResult dr s t ∧
      SameMemBut dr s t ∧ SameX s t ∧ StatusOk s t ∧ SameHost s t ∧ SameAcc s t ∧ SameCtx s t

/-- R190, R304: the errors of `MP.MUL` in order; it completes when none of them applies. -/
def Obligations.MultiplyChecksInOrder : Prop :=
  ∀ (s : State) (dr da db : DReg), RaisesInOrder (.mpMul dr da db) s
    [ (¬InBounds s dr ∨ ¬InBounds s da ∨ ¬InBounds s db, 1#4, 0x11#8),
      ((s.neg da = true ∧ s.val da 0 = 0) ∨ (s.neg db = true ∧ s.val db (s.len da) = 0), 1#4, 0x12#8),
      (s.neg da = true ∨ s.neg db = true, 1#4, 0x13#8),
      (s.cfg.nmax < s.len da ∨ s.cfg.nmax < s.len db, 1#4, 0x15#8),
      (s.len dr < s.len da + s.len db, 1#4, 0x16#8),
      (Overlaps s dr da ∨ Overlaps s dr db, 1#4, 0x17#8) ]

/-! ### Montgomery reduction -/

/-- R201: `MONT.PDASH` of an odd word writes the odd word `p'` with `X[s]·p' ≡ -1 (mod 2^W)`; of an even
word it raises `EVEN`. -/
def Obligations.PDashIsTheNegatedInverse : Prop :=
  ∀ (s : State) (d a : XReg),
    (s.x a % 2 = 1 → ∃ t, exec (.montPdash d a) s = .next t ∧
      (s.x a * t.x d + 1) % 2 ^ s.cfg.width.bits = 0 ∧ t.x d % 2 = 1 ∧ t.x d < 2 ^ s.cfg.width.bits ∧
      SameXBut d s t ∧ StatusOk s t ∧ SameHost s t ∧ SameAcc s t ∧ SameDescs s t ∧ SameCtx s t ∧
      SameMem s t) ∧
    (s.x a % 2 = 0 → ∃ t, exec (.montPdash d a) s = .next t ∧ ErrorEffect 1#4 0x19#8 s t)

/-- R202, R206: `MONT.REDC` on operands that pass its checks completes whatever their values are, with the
result of the algorithm of R203 and R204 on the `2n` low words of `z`, below `2^(W·n)`, zero-extended. -/
def Obligations.RedcCompletesOutsidePreconditions : Prop :=
  ∀ (s : State) (dr dz dp : DReg) (xpd : XReg),
    InBounds s dr → InBounds s dz → InBounds s dp → s.neg dz = false → s.neg dp = false →
    s.len dp ≠ 0 → s.len dp ≤ s.cfg.nmax → 2 * s.len dp ≤ s.len dz → s.len dp ≤ s.len dr →
    ¬Overlaps s dr dz → ¬Overlaps s dr dp →
    ∃ t r, exec (.montRedc dr dz dp xpd) s = .next t ∧
      r = montyRedcCore s.cfg.width (s.readWords (s.base dz) 0 (2 * s.len dp))
        (s.readWords (s.base dp) (s.len dz) (s.len dp)) (s.len dp) (s.x xpd) ∧
      r < 2 ^ (s.cfg.width.bits * s.len dp) ∧ ResultIs dr r s t ∧ (∀ pos, t.val dr pos = r) ∧
      DescsWithResult dr s t ∧ SameMemBut dr s t ∧ SameX s t ∧ StatusOk s t ∧ SameHost s t ∧
      SameAcc s t ∧ SameCtx s t

/-- R205: with `p` odd, `p_dash = p'` and `z < p·R`, the result of `MONT.REDC` is the `r < p` with
`r·R ≡ z (mod p)`. -/
def Obligations.RedcIsMontgomeryReduction : Prop :=
  ∀ (s : State) (dr dz dp : DReg) (xpd : XReg) (z p : Nat),
    InBounds s dr → InBounds s dz → InBounds s dp → s.neg dz = false → s.neg dp = false →
    s.len dp ≠ 0 → s.len dp ≤ s.cfg.nmax → 2 * s.len dp ≤ s.len dz → s.len dp ≤ s.len dr →
    ¬Overlaps s dr dz → ¬Overlaps s dr dp →
    z = natOfWords s.cfg.width (s.readWords (s.base dz) 0 (2 * s.len dp)) → p = s.val dp (s.len dz) →
    MontgomeryReady s.cfg.width z p (s.len dp) (s.x xpd) →
    ∃ t r, exec (.montRedc dr dz dp xpd) s = .next t ∧ ResultIs dr r s t ∧ r < p ∧
      r * 2 ^ (s.cfg.width.bits * s.len dp) % p = z % p

/-- R202, R304: the errors of `MONT.REDC` in order; it completes when none of them applies. -/
def Obligations.RedcChecksInOrder : Prop :=
  ∀ (s : State) (dr dz dp : DReg) (xpd : XReg), RaisesInOrder (.montRedc dr dz dp xpd) s
    [ (¬InBounds s dr ∨ ¬InBounds s dz ∨ ¬InBounds s dp, 1#4, 0x11#8),
      ((s.neg dz = true ∧ s.val dz 0 = 0) ∨ (s.neg dp = true ∧ s.val dp (s.len dz) = 0), 1#4, 0x12#8),
      (s.neg dz = true ∨ s.neg dp = true, 1#4, 0x13#8),
      (s.len dp = 0, 1#4, 0x14#8),
      (s.cfg.nmax < s.len dp, 1#4, 0x15#8),
      (s.len dz < 2 * s.len dp ∨ s.len dr < s.len dp, 1#4, 0x16#8),
      (Overlaps s dr dz ∨ Overlaps s dr dp, 1#4, 0x17#8) ]

/-- R104, R207: `MONT.MULR`, its two commands one after the other, leaves `a·b·R^-1 mod p` in `dr`, for `a`
and `b` below an odd written `p` and `p_dash = p'`, with the product area apart from the modulus; and
whatever the operands are, an `MP.MUL` that ends in error included, its `MONT.REDC` runs on the state
`MP.MUL` leaves. -/
def Obligations.MulrIsMontgomeryMultiplication : Prop :=
  (∀ (s : State) (dr da db dp dt : DReg) (xpd : XReg) (a b p : Nat),
    InBounds s dr → InBounds s da → InBounds s db → InBounds s dp → InBounds s dt →
    s.neg da = false → s.neg db = false → s.neg dp = false →
    s.len da ≤ s.cfg.nmax → s.len db ≤ s.cfg.nmax → s.len da + s.len db ≤ s.len dt →
    s.len dp ≠ 0 → s.len dp ≤ s.cfg.nmax → 2 * s.len dp ≤ s.len dt → s.len dp ≤ s.len dr →
    ¬Overlaps s dt da → ¬Overlaps s dt db → ¬Overlaps s dt dp → ¬Overlaps s dr dt → ¬Overlaps s dr dp →
    s.Written dp → a = s.val da 0 → b = s.val db (s.len da) → p = s.val dp 0 →
    p % 2 = 1 → (p % 2 ^ s.cfg.width.bits * s.x xpd + 1) % 2 ^ s.cfg.width.bits = 0 → a < p → b < p →
    ∃ t r, runCommands (Mulr.expand ⟨dr, da, db, dp, xpd, dt⟩) s = .next t ∧ StatusOk s t ∧
      ResultIs dr r s t ∧ r < p ∧ r * 2 ^ (s.cfg.width.bits * s.len dp) % p = a * b % p) ∧
  ∀ (s : State) (dr da db dp dt : DReg) (xpd : XReg), ∃ u t : State,
    exec (.mpMul dt da db) s = .next u ∧ exec (.montRedc dr dt dp xpd) u = .next t ∧
      runCommands (Mulr.expand ⟨dr, da, db, dp, xpd, dt⟩) s = .next t

/-! ### Barrett reduction -/

/-- R230, R231, R232: a setup of an invalid slot from a positive modulus of at most `NMAX` significant words
writes `K` as its significant words, `M`, `MU = floor(b^(2K) / m)` and `MODE`, and nothing else. -/
def Obligations.SetupBuildsTheReducer : Prop :=
  ∀ (s : State) (da : DReg) (c : CtxIx),
    c.val < s.cfg.nctx → (s.ctx c).valid = false → InBounds s da → s.neg da = false → s.val da 0 ≠ 0 →
    s.val da 0 < 2 ^ (s.cfg.width.bits * s.cfg.nmax) →
    (∃ t, exec (.barSetups da c) s = .next t ∧ (t.ctx c).valid = true ∧
      (t.ctx c).mode = .secretModulus ∧ (t.ctx c).m = s.val da 0 ∧
      1 ≤ (t.ctx c).words ∧ 2 ^ (s.cfg.width.bits * ((t.ctx c).words - 1)) ≤ s.val da 0 ∧
      s.val da 0 < 2 ^ (s.cfg.width.bits * (t.ctx c).words) ∧
      (t.ctx c).mu = 2 ^ (s.cfg.width.bits * (2 * (t.ctx c).words)) / s.val da 0 ∧
      SameCtxBut c s t ∧ SameX s t ∧ StatusOk s t ∧ SameHost s t ∧ SameAcc s t ∧ SameDescs s t ∧
      SameMem s t) ∧
    ∃ t, exec (.barSetupp da c) s = .next t ∧ (t.ctx c).valid = true ∧
      (t.ctx c).mode = .publicModulus ∧ (t.ctx c).m = s.val da 0 ∧
      1 ≤ (t.ctx c).words ∧ 2 ^ (s.cfg.width.bits * ((t.ctx c).words - 1)) ≤ s.val da 0 ∧
      s.val da 0 < 2 ^ (s.cfg.width.bits * (t.ctx c).words) ∧
      (t.ctx c).mu = 2 ^ (s.cfg.width.bits * (2 * (t.ctx c).words)) / s.val da 0 ∧
      SameCtxBut c s t ∧ SameX s t ∧ StatusOk s t ∧ SameHost s t ∧ SameAcc s t ∧ SameDescs s t ∧
      SameMem s t

/-- R231, R232, R304: the errors of both setups in order, so that a zero or negative modulus never leaves a
usable reducer; they complete when none of the errors applies. -/
def Obligations.SetupChecksInOrder : Prop :=
  ∀ (s : State) (da : DReg) (c : CtxIx) (i : Instr), i = .barSetups da c ∨ i = .barSetupp da c →
    RaisesInOrder i s
    [ (s.cfg.nctx ≤ c.val, 1#4, 0x10#8),
      ((s.ctx c).valid = true, 2#4, 0x21#8),
      (¬InBounds s da, 1#4, 0x11#8),
      (s.neg da = true ∧ s.val da 0 = 0, 1#4, 0x12#8),
      (s.neg da = true, 1#4, 0x13#8),
      (s.val da 0 = 0, 1#4, 0x14#8),
      (2 ^ (s.cfg.width.bits * s.cfg.nmax) ≤ s.val da 0, 1#4, 0x15#8) ]

/-- R234: `BAR.FREE` of a slot of the engine, valid or not, makes it uninitialised and changes nothing else;
of a slot index at or above `NCTX` it raises `CTX_INDEX`. -/
def Obligations.FreeUninitialisesTheSlot : Prop :=
  ∀ (s : State) (c : CtxIx),
    (c.val < s.cfg.nctx → ∃ t, exec (.barFree c) s = .next t ∧ (t.ctx c).valid = false ∧
      (t.ctx c).mode = .secretModulus ∧ (t.ctx c).k = 0#16 ∧ (t.ctx c).m = 0 ∧ (t.ctx c).mu = 0 ∧
      SameCtxBut c s t ∧ SameX s t ∧ StatusOk s t ∧ SameHost s t ∧ SameAcc s t ∧ SameDescs s t ∧
      SameMem s t) ∧
    (s.cfg.nctx ≤ c.val → ∃ t, exec (.barFree c) s = .next t ∧ ErrorEffect 1#4 0x10#8 s t)

/-- R237, R238: `BAR.RED` on a valid reducer and a non-negative input of any length writes `x mod m`, on the
Barrett path and on the fallback. The premise on the slot is the invariant's (R35). -/
def Obligations.ReduceIsModulo : Prop :=
  ∀ (s : State) (dr da : DReg) (c : CtxIx),
    c.val < s.cfg.nctx → (s.ctx c).valid = true → (s.ctx c).Legal s.cfg → InBounds s dr → InBounds s da →
    s.neg da = false → (s.ctx c).words ≤ s.len dr → ¬Overlaps s dr da →
    ∃ t, exec (.barRed dr da c) s = .next t ∧ ResultIs dr (s.val da 0 % (s.ctx c).m) s t ∧
      (∀ pos, t.val dr pos = s.val da 0 % (s.ctx c).m) ∧ DescsWithResult dr s t ∧ SameMemBut dr s t ∧
      SameX s t ∧ StatusOk s t ∧ SameHost s t ∧ SameAcc s t ∧ SameCtx s t

/-- R237, R239: `BAR.MUL` of two values below `m` writes their product modulo `m`. -/
def Obligations.ModularProductIsExact : Prop :=
  ∀ (s : State) (dr da db : DReg) (c : CtxIx),
    c.val < s.cfg.nctx → (s.ctx c).valid = true → (s.ctx c).Legal s.cfg → InBounds s dr → InBounds s da →
    InBounds s db → s.neg da = false → s.neg db = false → (s.ctx c).words ≤ s.len dr →
    ¬Overlaps s dr da → ¬Overlaps s dr db → s.val da 0 < (s.ctx c).m →
    s.val db (s.len da) < (s.ctx c).m →
    ∃ t, exec (.barMul dr da db c) s = .next t ∧
      ResultIs dr (s.val da 0 * s.val db (s.len da) % (s.ctx c).m) s t ∧ DescsWithResult dr s t ∧
      SameMemBut dr s t ∧ SameX s t ∧ StatusOk s t ∧ SameHost s t ∧ SameAcc s t ∧ SameCtx s t

/-- R237, R240, R241: `BAR.SQR` and `BAR.CUBE` of a value below `m` write its square and its cube modulo
`m`. -/
def Obligations.ModularSquareAndCubeAreExact : Prop :=
  ∀ (s : State) (dr da : DReg) (c : CtxIx),
    c.val < s.cfg.nctx → (s.ctx c).valid = true → (s.ctx c).Legal s.cfg → InBounds s dr → InBounds s da →
    s.neg da = false → (s.ctx c).words ≤ s.len dr → ¬Overlaps s dr da → s.val da 0 < (s.ctx c).m →
    (∃ t, exec (.barSqr dr da c) s = .next t ∧ ResultIs dr (s.val da 0 ^ 2 % (s.ctx c).m) s t ∧
      DescsWithResult dr s t ∧ SameMemBut dr s t ∧ SameX s t ∧ StatusOk s t ∧ SameHost s t ∧
      SameAcc s t ∧ SameCtx s t) ∧
    ∃ t, exec (.barCube dr da c) s = .next t ∧ ResultIs dr (s.val da 0 ^ 3 % (s.ctx c).m) s t ∧
      DescsWithResult dr s t ∧ SameMemBut dr s t ∧ SameX s t ∧ StatusOk s t ∧ SameHost s t ∧
      SameAcc s t ∧ SameCtx s t

/-- R235, R243, R304: the errors of the four reductions in order, and that each completes when none of its own
applies. So `BAR.RED`, whose list ends before `RANGE`, has no `RANGE` check; the other three refuse an input
at or above `m` and never reduce it first. -/
def Obligations.ReductionChecksInOrder : Prop :=
  ∀ (s : State) (dr da db : DReg) (c : CtxIx),
    RaisesInOrder (.barRed dr da c) s
    [ (s.cfg.nctx ≤ c.val, 1#4, 0x10#8),
      ((s.ctx c).valid = false, 2#4, 0x20#8),
      (¬InBounds s dr ∨ ¬InBounds s da, 1#4, 0x11#8),
      (s.neg da = true ∧ s.val da 0 = 0, 1#4, 0x12#8),
      (s.neg da = true, 1#4, 0x13#8),
      (s.len dr < (s.ctx c).words, 1#4, 0x16#8),
      (Overlaps s dr da, 1#4, 0x17#8) ] ∧
    RaisesInOrder (.barMul dr da db c) s
    [ (s.cfg.nctx ≤ c.val, 1#4, 0x10#8),
      ((s.ctx c).valid = false, 2#4, 0x20#8),
      (¬InBounds s dr ∨ ¬InBounds s da ∨ ¬InBounds s db, 1#4, 0x11#8),
      ((s.neg da = true ∧ s.val da 0 = 0) ∨ (s.neg db = true ∧ s.val db (s.len da) = 0), 1#4, 0x12#8),
      (s.neg da = true ∨ s.neg db = true, 1#4, 0x13#8),
      (s.len dr < (s.ctx c).words, 1#4, 0x16#8),
      (Overlaps s dr da ∨ Overlaps s dr db, 1#4, 0x17#8),
      ((s.ctx c).m ≤ s.val da 0 ∨ (s.ctx c).m ≤ s.val db (s.len da), 1#4, 0x18#8) ] ∧
    ∀ i : Instr, i = .barSqr dr da c ∨ i = .barCube dr da c → RaisesInOrder i s
    [ (s.cfg.nctx ≤ c.val, 1#4, 0x10#8),
      ((s.ctx c).valid = false, 2#4, 0x20#8),
      (¬InBounds s dr ∨ ¬InBounds s da, 1#4, 0x11#8),
      (s.neg da = true ∧ s.val da 0 = 0, 1#4, 0x12#8),
      (s.neg da = true, 1#4, 0x13#8),
      (s.len dr < (s.ctx c).words, 1#4, 0x16#8),
      (Overlaps s dr da, 1#4, 0x17#8),
      ((s.ctx c).m ≤ s.val da 0, 1#4, 0x18#8) ]

/-- R231, R237, R238: setting up a slot from a modulus and then reducing a written value with it gives the
value modulo the modulus, for both setups, with leading zero words in the modulus and a result no longer
than the modulus's significant words too. -/
def Obligations.SetupThenReduceIsModulo : Prop :=
  ∀ (s : State) (dm dr dx : DReg) (c : CtxIx) (setup : Instr),
    setup = .barSetups dm c ∨ setup = .barSetupp dm c →
    c.val < s.cfg.nctx → (s.ctx c).valid = false → InBounds s dm → s.neg dm = false → s.val dm 0 ≠ 0 →
    s.val dm 0 < 2 ^ (s.cfg.width.bits * s.cfg.nmax) → InBounds s dr → InBounds s dx → s.neg dx = false →
    s.val dm 0 < 2 ^ (s.cfg.width.bits * s.len dr) → ¬Overlaps s dr dx → s.Written dx →
    ∃ t, runCommands [setup, .barRed dr dx c] s = .next t ∧ StatusOk s t ∧
      ResultIs dr (s.val dx 0 % s.val dm 0) s t

/-! ### Constant time -/

/-- R361 to R363: two states that agree on a command's public inputs give it the same OPMEM access trace where
it completes, wherever the spec fixes one, and where it ends as it does in the other state, completing or
with the same detail code.
The traces are the model's own functions beside the step, which `exec` does not use (assumption 13), and the
reads of a command that ends in error are free values (assumption 21); the next statement ties them to
`exec`. The public inputs are R361's, but for the model's choice where R361 is silent: of a `BAR.RED` that
raises, `x` and `m` count as public whenever `sig_words(x) > 2K` (assumption 23), and an operand outside
OPMEM has a value of free draws (assumption 24). The premise asks for more there. -/
def Obligations.TraceDependsOnPublicInputsOnly : Prop :=
  ∀ (i : Instr) (s t : State), samePublic i s t →
    completedTrace i s = completedTrace i t ∧
      (errorDetail i s = errorDetail i t → opmemTrace i s = opmemTrace i t)

/-- R363: a `CMD` write that ends in error, a decode error included, has a trace with no write. A command that
ends in error has only reads of its inputs, inside OPMEM; none at all where a descriptor of it lies outside
OPMEM, which is checked before operand data is read (R72); and none past `2n` words of `z` for a `MONT.REDC`
(R206; with `NEG` 1 too, assumption 25). Of one that completes, the `BAR.SETUPP` and the fallback of `BAR.RED`
included, `completedWrites` names every OPMEM word it changes and `completedReads` every word its result
depends on: with the words it reads unchanged, whatever the other words hold, it completes with the same
registers, status, descriptors and slots, and the same words written; and its trace is those reads and then
those writes, but for R364's variable-time cases.
The traces are the model's own functions beside the step, which `exec` does not use (assumption 13); which of
the reads that R363 leaves open a failed command makes is a free value (assumption 21). The two runs draw
the same values for unwritten words: the model's choice, unsafe there (assumption 3). -/
def Obligations.ResultsDependOnTracedReadsOnly : Prop :=
  (∀ (s t : State) (v : Word) (rest : List HostAction), s.host = .write cmdSlot v :: rest →
    step s = .next t → t.status.code ≠ 0#4 → ∃ trace, commandWriteTrace v (s.withHost rest) = some trace ∧
      (∀ access ∈ trace, access.dir = .read) ∧ ((∀ i, decode s.cfg.width v ≠ .ok i) → trace = [])) ∧
  ∀ (i : Instr) (s t : State), exec i s = .next t →
    (t.status.code ≠ 0#4 → ∃ trace, opmemTrace i s = some trace ∧
      (∀ access ∈ trace, access.dir = .read ∧ access.addr < s.cfg.memWords ∧
        ∃ d ∈ inputDescs i, s.base d ≤ access.addr ∧ access.addr < s.base d + s.len d) ∧
      (∀ d, resultDesc i = some d ∨ d ∈ inputDescs i → ¬InBounds s d → trace = []) ∧
      ∀ (dr dz dp : DReg) (xpd : XReg), i = .montRedc dr dz dp xpd →
        ∀ access ∈ trace, (s.base dz ≤ access.addr ∧ access.addr < s.base dz + 2 * s.len dp) ∨
          (s.base dp ≤ access.addr ∧ access.addr < s.base dp + s.len dp)) ∧
    (t.status.code = 0#4 →
      (variableTime i s = false → opmemTrace i s = some (completedReads i s ++ completedWrites i s)) ∧
      (∀ a : Nat, t.memWord a ≠ s.memWord a → (⟨.write, a⟩ : OpmemAccess) ∈ completedWrites i s) ∧
      ∀ m : Memory,
        (∀ a : Nat, (⟨.read, a⟩ : OpmemAccess) ∈ completedReads i s → m.word a = s.opmem.word a) →
        ∃ t' : State, exec i { s with opmem := m } = .next t' ∧ t'.status = t.status ∧ t'.regs = t.regs ∧
          SameAcc t t' ∧ t'.descs = t.descs ∧ t'.bctx = t.bctx ∧
          ∀ a : Nat, (⟨.write, a⟩ : OpmemAccess) ∈ completedWrites i s → t'.memWord a = t.memWord a)

end
end

