-- ==== Sys2Proof/Laws/State.lean ====
section
/-! SUPPORT. What each update of the state does to each field: one lemma per field per update. -/

namespace Sys2Proof.Machine

variable (s : State)

/-! ### `State.conclude` -/

@[simp] theorem State.conclude_cfg (st : Status) : (s.conclude st).cfg = s.cfg := rfl
@[simp] theorem State.conclude_regs (st : Status) : (s.conclude st).regs = s.regs := rfl
@[simp] theorem State.conclude_a0 (st : Status) : (s.conclude st).a0 = s.a0 := rfl
@[simp] theorem State.conclude_a1 (st : Status) : (s.conclude st).a1 = s.a1 := rfl
@[simp] theorem State.conclude_a2 (st : Status) : (s.conclude st).a2 = s.a2 := rfl
@[simp] theorem State.conclude_descs (st : Status) : (s.conclude st).descs = s.descs := rfl
@[simp] theorem State.conclude_status (st : Status) : (s.conclude st).status = st := rfl
@[simp] theorem State.conclude_bctx (st : Status) : (s.conclude st).bctx = s.bctx := rfl
@[simp] theorem State.conclude_wsram (st : Status) : (s.conclude st).wsram = [] := rfl
@[simp] theorem State.conclude_opmem (st : Status) : (s.conclude st).opmem = s.opmem := rfl
@[simp] theorem State.conclude_host (st : Status) : (s.conclude st).host = s.host := rfl
@[simp] theorem State.conclude_reads (st : Status) : (s.conclude st).reads = s.reads := rfl
@[simp] theorem State.conclude_draws (st : Status) : (s.conclude st).draws = s.draws + 1 := rfl

/-! ### `State.setX` -/

@[simp] theorem State.setX_cfg (i : XReg) (v : Nat) : (s.setX i v).cfg = s.cfg := rfl
@[simp] theorem State.setX_regs (i : XReg) (v : Nat) : (s.setX i v).regs = s.regs.set i (s.cfg.width.cell v) := rfl
@[simp] theorem State.setX_a0 (i : XReg) (v : Nat) : (s.setX i v).a0 = s.a0 := rfl
@[simp] theorem State.setX_a1 (i : XReg) (v : Nat) : (s.setX i v).a1 = s.a1 := rfl
@[simp] theorem State.setX_a2 (i : XReg) (v : Nat) : (s.setX i v).a2 = s.a2 := rfl
@[simp] theorem State.setX_descs (i : XReg) (v : Nat) : (s.setX i v).descs = s.descs := rfl
@[simp] theorem State.setX_status (i : XReg) (v : Nat) : (s.setX i v).status = s.status := rfl
@[simp] theorem State.setX_bctx (i : XReg) (v : Nat) : (s.setX i v).bctx = s.bctx := rfl
@[simp] theorem State.setX_wsram (i : XReg) (v : Nat) : (s.setX i v).wsram = s.wsram := rfl
@[simp] theorem State.setX_opmem (i : XReg) (v : Nat) : (s.setX i v).opmem = s.opmem := rfl
@[simp] theorem State.setX_host (i : XReg) (v : Nat) : (s.setX i v).host = s.host := rfl
@[simp] theorem State.setX_reads (i : XReg) (v : Nat) : (s.setX i v).reads = s.reads := rfl
@[simp] theorem State.setX_draws (i : XReg) (v : Nat) : (s.setX i v).draws = s.draws := rfl

/-! ### `State.setAcc` -/

@[simp] theorem State.setAcc_cfg (v : Nat) : (s.setAcc v).cfg = s.cfg := rfl
@[simp] theorem State.setAcc_regs (v : Nat) : (s.setAcc v).regs = s.regs := rfl
@[simp] theorem State.setAcc_a0 (v : Nat) : (s.setAcc v).a0 = s.cfg.width.cell v := rfl
@[simp] theorem State.setAcc_a1 (v : Nat) : (s.setAcc v).a1 = s.cfg.width.cell (v / s.cfg.width.base) := rfl
@[simp] theorem State.setAcc_a2 (v : Nat) : (s.setAcc v).a2 = s.cfg.width.cell (v / s.cfg.width.base ^ 2) := rfl
@[simp] theorem State.setAcc_descs (v : Nat) : (s.setAcc v).descs = s.descs := rfl
@[simp] theorem State.setAcc_status (v : Nat) : (s.setAcc v).status = s.status := rfl
@[simp] theorem State.setAcc_bctx (v : Nat) : (s.setAcc v).bctx = s.bctx := rfl
@[simp] theorem State.setAcc_wsram (v : Nat) : (s.setAcc v).wsram = s.wsram := rfl
@[simp] theorem State.setAcc_opmem (v : Nat) : (s.setAcc v).opmem = s.opmem := rfl
@[simp] theorem State.setAcc_host (v : Nat) : (s.setAcc v).host = s.host := rfl
@[simp] theorem State.setAcc_reads (v : Nat) : (s.setAcc v).reads = s.reads := rfl
@[simp] theorem State.setAcc_draws (v : Nat) : (s.setAcc v).draws = s.draws := rfl

/-! ### `State.writeWords` -/

@[simp] theorem State.writeWords_cfg (a : Nat) (ws : List Nat) : (s.writeWords a ws).cfg = s.cfg := rfl
@[simp] theorem State.writeWords_regs (a : Nat) (ws : List Nat) : (s.writeWords a ws).regs = s.regs := rfl
@[simp] theorem State.writeWords_a0 (a : Nat) (ws : List Nat) : (s.writeWords a ws).a0 = s.a0 := rfl
@[simp] theorem State.writeWords_a1 (a : Nat) (ws : List Nat) : (s.writeWords a ws).a1 = s.a1 := rfl
@[simp] theorem State.writeWords_a2 (a : Nat) (ws : List Nat) : (s.writeWords a ws).a2 = s.a2 := rfl
@[simp] theorem State.writeWords_descs (a : Nat) (ws : List Nat) : (s.writeWords a ws).descs = s.descs := rfl
@[simp] theorem State.writeWords_status (a : Nat) (ws : List Nat) : (s.writeWords a ws).status = s.status := rfl
@[simp] theorem State.writeWords_bctx (a : Nat) (ws : List Nat) : (s.writeWords a ws).bctx = s.bctx := rfl
@[simp] theorem State.writeWords_wsram (a : Nat) (ws : List Nat) : (s.writeWords a ws).wsram = s.wsram := rfl
@[simp] theorem State.writeWords_opmem (a : Nat) (ws : List Nat) : (s.writeWords a ws).opmem = s.opmem.storeAll a (ws.map s.cfg.width.cell) := rfl
@[simp] theorem State.writeWords_host (a : Nat) (ws : List Nat) : (s.writeWords a ws).host = s.host := rfl
@[simp] theorem State.writeWords_reads (a : Nat) (ws : List Nat) : (s.writeWords a ws).reads = s.reads := rfl
@[simp] theorem State.writeWords_draws (a : Nat) (ws : List Nat) : (s.writeWords a ws).draws = s.draws := rfl

/-! ### `State.setBase` -/

@[simp] theorem State.setBase_cfg (d : DReg) (v : Nat) : (s.setBase d v).cfg = s.cfg := rfl
@[simp] theorem State.setBase_regs (d : DReg) (v : Nat) : (s.setBase d v).regs = s.regs := rfl
@[simp] theorem State.setBase_a0 (d : DReg) (v : Nat) : (s.setBase d v).a0 = s.a0 := rfl
@[simp] theorem State.setBase_a1 (d : DReg) (v : Nat) : (s.setBase d v).a1 = s.a1 := rfl
@[simp] theorem State.setBase_a2 (d : DReg) (v : Nat) : (s.setBase d v).a2 = s.a2 := rfl
@[simp] theorem State.setBase_descs (d : DReg) (v : Nat) : (s.setBase d v).descs = s.descs.set d { s.descs[d] with base := s.cfg.width.cell v } := rfl
@[simp] theorem State.setBase_status (d : DReg) (v : Nat) : (s.setBase d v).status = s.status := rfl
@[simp] theorem State.setBase_bctx (d : DReg) (v : Nat) : (s.setBase d v).bctx = s.bctx := rfl
@[simp] theorem State.setBase_wsram (d : DReg) (v : Nat) : (s.setBase d v).wsram = s.wsram := rfl
@[simp] theorem State.setBase_opmem (d : DReg) (v : Nat) : (s.setBase d v).opmem = s.opmem := rfl
@[simp] theorem State.setBase_host (d : DReg) (v : Nat) : (s.setBase d v).host = s.host := rfl
@[simp] theorem State.setBase_reads (d : DReg) (v : Nat) : (s.setBase d v).reads = s.reads := rfl
@[simp] theorem State.setBase_draws (d : DReg) (v : Nat) : (s.setBase d v).draws = s.draws := rfl

/-! ### `State.setLenNeg` -/

@[simp] theorem State.setLenNeg_cfg (d : DReg) (v : Nat) : (s.setLenNeg d v).cfg = s.cfg := rfl
@[simp] theorem State.setLenNeg_regs (d : DReg) (v : Nat) : (s.setLenNeg d v).regs = s.regs := rfl
@[simp] theorem State.setLenNeg_a0 (d : DReg) (v : Nat) : (s.setLenNeg d v).a0 = s.a0 := rfl
@[simp] theorem State.setLenNeg_a1 (d : DReg) (v : Nat) : (s.setLenNeg d v).a1 = s.a1 := rfl
@[simp] theorem State.setLenNeg_a2 (d : DReg) (v : Nat) : (s.setLenNeg d v).a2 = s.a2 := rfl
@[simp] theorem State.setLenNeg_status (d : DReg) (v : Nat) : (s.setLenNeg d v).status = s.status := rfl
@[simp] theorem State.setLenNeg_bctx (d : DReg) (v : Nat) : (s.setLenNeg d v).bctx = s.bctx := rfl
@[simp] theorem State.setLenNeg_wsram (d : DReg) (v : Nat) : (s.setLenNeg d v).wsram = s.wsram := rfl
@[simp] theorem State.setLenNeg_opmem (d : DReg) (v : Nat) : (s.setLenNeg d v).opmem = s.opmem := rfl
@[simp] theorem State.setLenNeg_host (d : DReg) (v : Nat) : (s.setLenNeg d v).host = s.host := rfl
@[simp] theorem State.setLenNeg_reads (d : DReg) (v : Nat) : (s.setLenNeg d v).reads = s.reads := rfl
@[simp] theorem State.setLenNeg_draws (d : DReg) (v : Nat) : (s.setLenNeg d v).draws = s.draws := rfl

/-! ### `State.clearNeg` -/

@[simp] theorem State.clearNeg_cfg (d : DReg) : (s.clearNeg d).cfg = s.cfg := rfl
@[simp] theorem State.clearNeg_regs (d : DReg) : (s.clearNeg d).regs = s.regs := rfl
@[simp] theorem State.clearNeg_a0 (d : DReg) : (s.clearNeg d).a0 = s.a0 := rfl
@[simp] theorem State.clearNeg_a1 (d : DReg) : (s.clearNeg d).a1 = s.a1 := rfl
@[simp] theorem State.clearNeg_a2 (d : DReg) : (s.clearNeg d).a2 = s.a2 := rfl
@[simp] theorem State.clearNeg_descs (d : DReg) : (s.clearNeg d).descs = s.descs.set d { s.descs[d] with neg := false } := rfl
@[simp] theorem State.clearNeg_status (d : DReg) : (s.clearNeg d).status = s.status := rfl
@[simp] theorem State.clearNeg_bctx (d : DReg) : (s.clearNeg d).bctx = s.bctx := rfl
@[simp] theorem State.clearNeg_wsram (d : DReg) : (s.clearNeg d).wsram = s.wsram := rfl
@[simp] theorem State.clearNeg_opmem (d : DReg) : (s.clearNeg d).opmem = s.opmem := rfl
@[simp] theorem State.clearNeg_host (d : DReg) : (s.clearNeg d).host = s.host := rfl
@[simp] theorem State.clearNeg_reads (d : DReg) : (s.clearNeg d).reads = s.reads := rfl
@[simp] theorem State.clearNeg_draws (d : DReg) : (s.clearNeg d).draws = s.draws := rfl

/-! ### `State.writeResult` -/

@[simp] theorem State.writeResult_cfg (d : DReg) (v : Nat) : (s.writeResult d v).cfg = s.cfg := rfl
@[simp] theorem State.writeResult_regs (d : DReg) (v : Nat) : (s.writeResult d v).regs = s.regs := rfl
@[simp] theorem State.writeResult_a0 (d : DReg) (v : Nat) : (s.writeResult d v).a0 = s.a0 := rfl
@[simp] theorem State.writeResult_a1 (d : DReg) (v : Nat) : (s.writeResult d v).a1 = s.a1 := rfl
@[simp] theorem State.writeResult_a2 (d : DReg) (v : Nat) : (s.writeResult d v).a2 = s.a2 := rfl
@[simp] theorem State.writeResult_descs (d : DReg) (v : Nat) : (s.writeResult d v).descs = s.descs.set d { s.descs[d] with neg := false } := rfl
@[simp] theorem State.writeResult_status (d : DReg) (v : Nat) : (s.writeResult d v).status = s.status := rfl
@[simp] theorem State.writeResult_bctx (d : DReg) (v : Nat) : (s.writeResult d v).bctx = s.bctx := rfl
@[simp] theorem State.writeResult_wsram (d : DReg) (v : Nat) : (s.writeResult d v).wsram = s.wsram := rfl
@[simp] theorem State.writeResult_opmem (d : DReg) (v : Nat) : (s.writeResult d v).opmem = s.opmem.storeAll (s.base d) ((wordsOfNat s.cfg.width (s.len d) v).map s.cfg.width.cell) := rfl
@[simp] theorem State.writeResult_host (d : DReg) (v : Nat) : (s.writeResult d v).host = s.host := rfl
@[simp] theorem State.writeResult_reads (d : DReg) (v : Nat) : (s.writeResult d v).reads = s.reads := rfl
@[simp] theorem State.writeResult_draws (d : DReg) (v : Nat) : (s.writeResult d v).draws = s.draws := rfl

/-! ### `State.setCtx` -/

@[simp] theorem State.setCtx_cfg (c : CtxIx) (v : BarrettCtx) : (s.setCtx c v).cfg = s.cfg := rfl
@[simp] theorem State.setCtx_regs (c : CtxIx) (v : BarrettCtx) : (s.setCtx c v).regs = s.regs := rfl
@[simp] theorem State.setCtx_a0 (c : CtxIx) (v : BarrettCtx) : (s.setCtx c v).a0 = s.a0 := rfl
@[simp] theorem State.setCtx_a1 (c : CtxIx) (v : BarrettCtx) : (s.setCtx c v).a1 = s.a1 := rfl
@[simp] theorem State.setCtx_a2 (c : CtxIx) (v : BarrettCtx) : (s.setCtx c v).a2 = s.a2 := rfl
@[simp] theorem State.setCtx_descs (c : CtxIx) (v : BarrettCtx) : (s.setCtx c v).descs = s.descs := rfl
@[simp] theorem State.setCtx_status (c : CtxIx) (v : BarrettCtx) : (s.setCtx c v).status = s.status := rfl
@[simp] theorem State.setCtx_bctx (c : CtxIx) (v : BarrettCtx) : (s.setCtx c v).bctx = s.bctx.set c v := rfl
@[simp] theorem State.setCtx_wsram (c : CtxIx) (v : BarrettCtx) : (s.setCtx c v).wsram = s.wsram := rfl
@[simp] theorem State.setCtx_opmem (c : CtxIx) (v : BarrettCtx) : (s.setCtx c v).opmem = s.opmem := rfl
@[simp] theorem State.setCtx_host (c : CtxIx) (v : BarrettCtx) : (s.setCtx c v).host = s.host := rfl
@[simp] theorem State.setCtx_reads (c : CtxIx) (v : BarrettCtx) : (s.setCtx c v).reads = s.reads := rfl
@[simp] theorem State.setCtx_draws (c : CtxIx) (v : BarrettCtx) : (s.setCtx c v).draws = s.draws := rfl

/-! ### `State.withHost` -/

@[simp] theorem State.withHost_cfg (rest : List HostAction) : (s.withHost rest).cfg = s.cfg := rfl
@[simp] theorem State.withHost_regs (rest : List HostAction) : (s.withHost rest).regs = s.regs := rfl
@[simp] theorem State.withHost_a0 (rest : List HostAction) : (s.withHost rest).a0 = s.a0 := rfl
@[simp] theorem State.withHost_a1 (rest : List HostAction) : (s.withHost rest).a1 = s.a1 := rfl
@[simp] theorem State.withHost_a2 (rest : List HostAction) : (s.withHost rest).a2 = s.a2 := rfl
@[simp] theorem State.withHost_descs (rest : List HostAction) : (s.withHost rest).descs = s.descs := rfl
@[simp] theorem State.withHost_status (rest : List HostAction) : (s.withHost rest).status = s.status := rfl
@[simp] theorem State.withHost_bctx (rest : List HostAction) : (s.withHost rest).bctx = s.bctx := rfl
@[simp] theorem State.withHost_wsram (rest : List HostAction) : (s.withHost rest).wsram = s.wsram := rfl
@[simp] theorem State.withHost_opmem (rest : List HostAction) : (s.withHost rest).opmem = s.opmem := rfl
@[simp] theorem State.withHost_host (rest : List HostAction) : (s.withHost rest).host = rest := rfl
@[simp] theorem State.withHost_reads (rest : List HostAction) : (s.withHost rest).reads = s.reads := rfl
@[simp] theorem State.withHost_draws (rest : List HostAction) : (s.withHost rest).draws = s.draws := rfl

end Sys2Proof.Machine
end

