-- ==== Sys2Proof/Laws/Words.lean ====
section
/-! SUPPORT. Laws of words and of little-endian word sequences (R8, R9). -/

namespace Sys2Proof

variable (w : Width)

/-! ### Cells -/

theorem Width.bits_pos : 0 < w.bits := by cases w <;> decide

theorem Width.bits_le : w.bits ≤ 64 := by cases w <;> decide

theorem Width.base_pos : 0 < w.base := Nat.two_pow_pos _

theorem Width.four_le_base : 4 ≤ w.base := by cases w <;> decide

theorem Width.one_lt_base : 1 < w.base := lt_of_lt_of_le (by decide) w.four_le_base

theorem Width.base_le : w.base ≤ 2 ^ 64 := Nat.pow_le_pow_right (by decide) w.bits_le

theorem Width.low_lt (v : Word) : w.low v < w.base := Nat.mod_lt _ w.base_pos

theorem Width.toNat_cell (n : Nat) : (w.cell n).toNat = n % w.base := by
  rw [Width.cell, BitVec.toNat_ofNat,
    Nat.mod_eq_of_lt (lt_of_lt_of_le (Nat.mod_lt _ w.base_pos) w.base_le)]

theorem Width.cell_lt (n : Nat) : (w.cell n).toNat < w.base := by
  rw [Width.toNat_cell]; exact Nat.mod_lt _ w.base_pos

/-- A cell gives back the value written, modulo `2^W`. -/
@[simp] theorem Width.low_cell (n : Nat) : w.low (w.cell n) = n % w.base := by
  rw [Width.low, Width.toNat_cell, Nat.mod_mod]

/-- A cell in canonical form is the cell of the number it holds. -/
theorem Width.cell_low {v : Word} (h : v.toNat < w.base) : w.cell (w.low v) = v := by
  apply BitVec.eq_of_toNat_eq
  rw [Width.toNat_cell, Width.low, Nat.mod_mod, Nat.mod_eq_of_lt h]

end Sys2Proof

namespace Sys2Proof.Machine

variable (w : Width)

/-! ### Word sequences -/

@[simp] theorem wordsOfNat_length (n v : Nat) : (wordsOfNat w n v).length = n := by
  induction n generalizing v with
  | zero => rfl
  | succ n ih => simp [wordsOfNat, ih]

/-- Word `j` of a value is `(v >> (W·j)) mod 2^W` (R10). -/
theorem wordsOfNat_getElem (n v j : Nat) (h : j < (wordsOfNat w n v).length) :
    (wordsOfNat w n v)[j] = v / w.base ^ j % w.base := by
  induction n generalizing v j with
  | zero => simp [wordsOfNat] at h
  | succ n ih =>
    cases j with
    | zero => simp [wordsOfNat]
    | succ j =>
      simp only [wordsOfNat, List.getElem_cons_succ]
      rw [ih, Nat.div_div_eq_div_mul, ← Nat.pow_succ']

theorem wordsOfNat_lt {n v x : Nat} (h : x ∈ wordsOfNat w n v) : x < w.base := by
  induction n generalizing v with
  | zero => simp [wordsOfNat] at h
  | succ n ih =>
    rcases List.mem_cons.1 h with rfl | h
    · exact Nat.mod_lt _ w.base_pos
    · exact ih h

/-- Reading back the words of a value gives the value modulo `2^(W·n)`. -/
theorem natOfWords_wordsOfNat (n v : Nat) : natOfWords w (wordsOfNat w n v) = v % w.base ^ n := by
  induction n generalizing v with
  | zero => simp [wordsOfNat, natOfWords, Nat.mod_one]
  | succ n ih => rw [wordsOfNat, natOfWords, ih, Nat.pow_succ', Nat.mod_mul]

/-- A sequence of `n` words denotes a number below `2^(W·n)` (R9). -/
theorem natOfWords_lt {ws : List Nat} (h : ∀ x ∈ ws, x < w.base) : natOfWords w ws < w.base ^ ws.length := by
  induction ws with
  | nil => simp [natOfWords]
  | cons x xs ih =>
    have hx := h x (by simp)
    have hxs := ih fun y hy => h y (by simp [hy])
    rw [natOfWords, List.length_cons, Nat.pow_succ']
    calc x + w.base * natOfWords w xs < w.base + w.base * natOfWords w xs := by omega
      _ = w.base * (natOfWords w xs + 1) := by ring
      _ ≤ w.base * w.base ^ xs.length := Nat.mul_le_mul_left _ hxs

theorem natOfWords_append (xs ys : List Nat) :
    natOfWords w (xs ++ ys) = natOfWords w xs + w.base ^ xs.length * natOfWords w ys := by
  induction xs with
  | nil => simp [natOfWords]
  | cons x xs ih => simp only [List.cons_append, natOfWords, ih, List.length_cons, Nat.pow_succ']; ring

/-! ### Significant words -/

/-- `sig_words(v)` is the least `n` with `v < 2^(W·n)` (R9). -/
theorem sigWords_le_iff (v n : Nat) : sigWords w v ≤ n ↔ v < w.base ^ n := by
  unfold sigWords
  by_cases hv : v = 0
  · simp [hv, Nat.pow_pos w.base_pos]
  · rw [if_neg hv, Width.base, ← Nat.pow_mul, ← Nat.log2_lt hv, Nat.succ_le_iff,
      Nat.div_lt_iff_lt_mul w.bits_pos, Nat.mul_comm]

theorem lt_base_pow_sigWords (v : Nat) : v < w.base ^ sigWords w v := (sigWords_le_iff w v _).1 le_rfl

theorem base_pow_le_of_sigWords {v n : Nat} (h : n < sigWords w v) : w.base ^ n ≤ v := by
  by_contra hlt
  exact absurd ((sigWords_le_iff w v n).2 (not_le.1 hlt)) (not_le.2 h)

theorem sigWords_pos {v : Nat} (h : v ≠ 0) : 0 < sigWords w v := by
  by_contra h0
  have := (sigWords_le_iff w v 0).1 (by omega)
  simp at this
  exact h this

end Sys2Proof.Machine
end

