-- ==== Sys2Proof/Laws/Memory.lean ====
section
/-! SUPPORT. Laws of OPMEM: read after write, canonical form, range. -/

namespace Sys2Proof.Machine

/-! ### One store -/

/-- A read after a store, in any memory: the stored word at its address, and every other word as
before. -/
theorem Memory.word_store (m : Memory) (a : Nat) (v : Word) (b : Nat) :
    (m.store a v).word b = if a = b then some v else m.word b := by
  induction m with
  | nil => simp [Memory.store, Memory.word]
  | cons p m ih =>
    obtain ⟨k, u⟩ := p
    simp only [Memory.store]
    split
    · simp [Memory.word]
    · split
      · subst a; simp only [Memory.word]; split <;> simp_all
      · simp only [Memory.word, ih]
        by_cases hkb : k = b
        · subst hkb; rw [if_pos rfl, if_neg (by omega), if_pos rfl]
        · simp [hkb]

theorem Memory.mem_store {m : Memory} {a : Nat} {v : Word} {p : Nat × Word} (h : p ∈ m.store a v) :
    p = (a, v) ∨ p ∈ m := by
  induction m with
  | nil => simpa [Memory.store] using h
  | cons q m ih =>
    obtain ⟨k, u⟩ := q
    simp only [Memory.store] at h
    split at h
    · simpa using h
    · split at h
      · rcases List.mem_cons.1 h with h | h <;> simp [h]
      · rcases List.mem_cons.1 h with h | h
        · simp [h]
        · rcases ih h with h | h <;> simp [h]

/-- A store keeps the canonical form. -/
theorem Memory.store_wf {m : Memory} (hm : m.wf) (a : Nat) (v : Word) : (m.store a v).wf := by
  induction m with
  | nil => simp [Memory.store, Memory.wf]
  | cons p m ih =>
    obtain ⟨k, u⟩ := p
    obtain ⟨hk, hm'⟩ := List.pairwise_cons.1 hm
    simp only [Memory.store]
    split
    · rename_i hak
      refine List.pairwise_cons.2 ⟨?_, hm⟩
      intro q hq
      rcases List.mem_cons.1 hq with rfl | hq
      · exact hak
      · exact lt_trans hak (hk q hq)
    · split
      · subst a; exact List.pairwise_cons.2 ⟨hk, hm'⟩
      · refine List.pairwise_cons.2 ⟨?_, ih hm'⟩
        intro q hq
        rcases Memory.mem_store hq with rfl | hq
        · simp only; omega
        · exact hk q hq

/-! ### Many stores -/

theorem Memory.storeAll_wf {m : Memory} (hm : m.wf) (a : Nat) (vs : List Word) : (m.storeAll a vs).wf := by
  induction vs generalizing m a with
  | nil => exact hm
  | cons v vs ih => exact ih (Memory.store_wf hm a v) (a + 1)

theorem Memory.mem_storeAll {m : Memory} {a : Nat} {vs : List Word} {p : Nat × Word}
    (h : p ∈ m.storeAll a vs) : (a ≤ p.1 ∧ p.1 < a + vs.length ∧ p.2 ∈ vs) ∨ p ∈ m := by
  induction vs generalizing m a with
  | nil => exact .inr h
  | cons v vs ih =>
    rcases ih h with ⟨h1, h2, h3⟩ | h
    · exact .inl ⟨by omega, by simp; omega, by simp [h3]⟩
    · rcases Memory.mem_store h with rfl | h
      · exact .inl ⟨by simp, by simp, by simp⟩
      · exact .inr h

/-- A read after a write of words: the word written there, and every word outside as before. -/
theorem Memory.word_storeAll (m : Memory) (a : Nat) (vs : List Word) (b : Nat) :
    (m.storeAll a vs).word b = if h : a ≤ b ∧ b < a + vs.length then some (vs[b - a]'(by omega)) else m.word b := by
  induction vs generalizing m a with
  | nil => rw [dif_neg (by simp)]; rfl
  | cons v vs ih =>
    rw [Memory.storeAll, ih, Memory.word_store]
    by_cases hb : a = b
    · subst hb
      rw [dif_neg (by omega), if_pos rfl, dif_pos (by simp)]
      simp
    · by_cases h : a ≤ b ∧ b < a + (v :: vs).length
      · have h' : a + 1 ≤ b ∧ b < a + 1 + vs.length := by simp at h; omega
        rw [dif_pos h', dif_pos h, ← List.getElem_cons_succ v vs (b - (a + 1)) (by simp; omega)]
        congr 2; omega
      · rw [dif_neg (by simp at h; omega), if_neg hb, dif_neg h]

/-! ### OPMEM of a state -/

theorem State.memWord_lt {s : State} {a v : Nat} (h : s.memWord a = some v) : v < s.cfg.width.base := by
  obtain ⟨x, -, rfl⟩ := Option.map_eq_some_iff.1 h
  exact Width.low_lt _ _

theorem State.readWord_lt (s : State) (a pos : Nat) : s.readWord a pos < s.cfg.width.base := by
  unfold State.readWord
  cases h : s.memWord a with
  | none => exact Width.low_lt _ _
  | some v => exact State.memWord_lt h

/-- A word written since reset reads as written, at whatever position it is read. -/
theorem State.readWord_of_memWord {s : State} {a v : Nat} (h : s.memWord a = some v) (pos : Nat) :
    s.readWord a pos = v := by simp [State.readWord, h]

@[simp] theorem State.readWords_length (s : State) (a pos n : Nat) : (s.readWords a pos n).length = n := by
  induction n generalizing a pos with
  | zero => rfl
  | succ n ih => simp [State.readWords, ih]

theorem State.readWords_lt {s : State} {a pos n x : Nat} (h : x ∈ s.readWords a pos n) :
    x < s.cfg.width.base := by
  induction n generalizing a pos with
  | zero => simp [State.readWords] at h
  | succ n ih =>
    rcases List.mem_cons.1 h with rfl | h
    · exact s.readWord_lt _ _
    · exact ih h

theorem State.readWords_getElem (s : State) (a pos n j : Nat) (h : j < (s.readWords a pos n).length) :
    (s.readWords a pos n)[j] = s.readWord (a + j) (pos + j) := by
  induction n generalizing a pos j with
  | zero => simp [State.readWords] at h
  | succ n ih =>
    cases j with
    | zero => rfl
    | succ j => simp only [State.readWords, List.getElem_cons_succ]; rw [ih]; congr 1 <;> omega

/-- An operand of `n` words denotes a number below `2^(W·n)` (R9). -/
theorem State.natOfWords_readWords_lt (s : State) (a pos n : Nat) :
    natOfWords s.cfg.width (s.readWords a pos n) < s.cfg.width.base ^ n := by
  have := natOfWords_lt s.cfg.width (ws := s.readWords a pos n) fun _ h => State.readWords_lt h
  rwa [State.readWords_length] at this

theorem State.val_lt (s : State) (d : DReg) (pos : Nat) : s.val d pos < s.cfg.width.base ^ s.len d :=
  s.natOfWords_readWords_lt _ _ _

/-- Reads depend on the words read, not on the rest of the state. -/
theorem State.readWords_congr {s t : State} (hc : t.cfg = s.cfg) {a pos n : Nat}
    (h : ∀ j < n, t.memWord (a + j) = s.memWord (a + j)) (hd : t.draws = s.draws) :
    t.readWords a pos n = s.readWords a pos n := by
  induction n generalizing a pos with
  | zero => rfl
  | succ n ih =>
    simp only [State.readWords]
    congr 1
    · have := h 0 (by omega)
      simp only [Nat.add_zero] at this
      simp [State.readWord, this, hc, hd]
    · exact ih fun j hj => by have := h (j + 1) (by omega); rwa [show a + 1 + j = a + (j + 1) by omega]

/-- Reads of words all written since reset are their values, at whatever position and access. -/
theorem State.readWords_eq_of_written {s t : State} {a pos pos' n : Nat}
    (h : ∀ j < n, t.memWord (a + j) = s.memWord (a + j)) (hw : ∀ j < n, (s.memWord (a + j)).isSome) :
    t.readWords a pos' n = s.readWords a pos n := by
  apply List.ext_getElem (by simp)
  intro j h1 h2
  rw [State.readWords_getElem, State.readWords_getElem]
  simp only [State.readWords_length] at h1
  obtain ⟨v, hv⟩ := Option.isSome_iff_exists.1 (hw j h1)
  rw [State.readWord_of_memWord hv, State.readWord_of_memWord (by rw [h j h1, hv])]

theorem State.memWord_writeWords (s : State) (a : Nat) (ws : List Nat) (b : Nat) :
    (s.writeWords a ws).memWord b =
      if h : a ≤ b ∧ b < a + ws.length then some (ws[b - a]'(by omega) % s.cfg.width.base)
      else s.memWord b := by
  simp only [State.memWord, State.writeWords_opmem, State.writeWords_cfg, Memory.word_storeAll]
  by_cases h : a ≤ b ∧ b < a + ws.length
  · rw [dif_pos (by simpa using h), dif_pos h]; simp
  · rw [dif_neg (by simpa using h), dif_neg h]

end Sys2Proof.Machine
end

