-- ==== Sys2Proof/Laws/Registers.lean ====
section
/-! SUPPORT. What each accessor reads after each update. -/

namespace Sys2Proof.Machine

variable (s : State)

/-! ### What an update leaves an accessor -/

@[simp] theorem State.conclude_x (st : Status) (r : XReg) : (s.conclude st).x r = s.x r := rfl
@[simp] theorem State.conclude_base (st : Status) (e : DReg) : (s.conclude st).base e = s.base e := rfl
@[simp] theorem State.conclude_len (st : Status) (e : DReg) : (s.conclude st).len e = s.len e := rfl
@[simp] theorem State.conclude_neg (st : Status) (e : DReg) : (s.conclude st).neg e = s.neg e := rfl
@[simp] theorem State.conclude_ctx (st : Status) (k : CtxIx) : (s.conclude st).ctx k = s.ctx k := rfl
@[simp] theorem State.conclude_memWord (st : Status) (b : Nat) : (s.conclude st).memWord b = s.memWord b := rfl
@[simp] theorem State.conclude_accumulator (st : Status) : (s.conclude st).acc = s.acc := rfl

@[simp] theorem State.setX_base (i : XReg) (v : Nat) (e : DReg) : (s.setX i v).base e = s.base e := rfl
@[simp] theorem State.setX_len (i : XReg) (v : Nat) (e : DReg) : (s.setX i v).len e = s.len e := rfl
@[simp] theorem State.setX_neg (i : XReg) (v : Nat) (e : DReg) : (s.setX i v).neg e = s.neg e := rfl
@[simp] theorem State.setX_ctx (i : XReg) (v : Nat) (k : CtxIx) : (s.setX i v).ctx k = s.ctx k := rfl
@[simp] theorem State.setX_memWord (i : XReg) (v : Nat) (b : Nat) : (s.setX i v).memWord b = s.memWord b := rfl
@[simp] theorem State.setX_accumulator (i : XReg) (v : Nat) : (s.setX i v).acc = s.acc := rfl

@[simp] theorem State.setAcc_x (v : Nat) (r : XReg) : (s.setAcc v).x r = s.x r := rfl
@[simp] theorem State.setAcc_base (v : Nat) (e : DReg) : (s.setAcc v).base e = s.base e := rfl
@[simp] theorem State.setAcc_len (v : Nat) (e : DReg) : (s.setAcc v).len e = s.len e := rfl
@[simp] theorem State.setAcc_neg (v : Nat) (e : DReg) : (s.setAcc v).neg e = s.neg e := rfl
@[simp] theorem State.setAcc_ctx (v : Nat) (k : CtxIx) : (s.setAcc v).ctx k = s.ctx k := rfl
@[simp] theorem State.setAcc_memWord (v : Nat) (b : Nat) : (s.setAcc v).memWord b = s.memWord b := rfl

@[simp] theorem State.writeWords_x (a : Nat) (ws : List Nat) (r : XReg) : (s.writeWords a ws).x r = s.x r := rfl
@[simp] theorem State.writeWords_base (a : Nat) (ws : List Nat) (e : DReg) : (s.writeWords a ws).base e = s.base e := rfl
@[simp] theorem State.writeWords_len (a : Nat) (ws : List Nat) (e : DReg) : (s.writeWords a ws).len e = s.len e := rfl
@[simp] theorem State.writeWords_neg (a : Nat) (ws : List Nat) (e : DReg) : (s.writeWords a ws).neg e = s.neg e := rfl
@[simp] theorem State.writeWords_ctx (a : Nat) (ws : List Nat) (k : CtxIx) : (s.writeWords a ws).ctx k = s.ctx k := rfl
@[simp] theorem State.writeWords_accumulator (a : Nat) (ws : List Nat) : (s.writeWords a ws).acc = s.acc := rfl

@[simp] theorem State.clearNeg_x (d : DReg) (r : XReg) : (s.clearNeg d).x r = s.x r := rfl
@[simp] theorem State.clearNeg_ctx (d : DReg) (k : CtxIx) : (s.clearNeg d).ctx k = s.ctx k := rfl
@[simp] theorem State.clearNeg_memWord (d : DReg) (b : Nat) : (s.clearNeg d).memWord b = s.memWord b := rfl
@[simp] theorem State.clearNeg_accumulator (d : DReg) : (s.clearNeg d).acc = s.acc := rfl

@[simp] theorem State.writeResult_x (d : DReg) (v : Nat) (r : XReg) : (s.writeResult d v).x r = s.x r := rfl
@[simp] theorem State.writeResult_ctx (d : DReg) (v : Nat) (k : CtxIx) : (s.writeResult d v).ctx k = s.ctx k := rfl
@[simp] theorem State.writeResult_accumulator (d : DReg) (v : Nat) : (s.writeResult d v).acc = s.acc := rfl

@[simp] theorem State.setCtx_x (c : CtxIx) (v : BarrettCtx) (r : XReg) : (s.setCtx c v).x r = s.x r := rfl
@[simp] theorem State.setCtx_base (c : CtxIx) (v : BarrettCtx) (e : DReg) : (s.setCtx c v).base e = s.base e := rfl
@[simp] theorem State.setCtx_len (c : CtxIx) (v : BarrettCtx) (e : DReg) : (s.setCtx c v).len e = s.len e := rfl
@[simp] theorem State.setCtx_neg (c : CtxIx) (v : BarrettCtx) (e : DReg) : (s.setCtx c v).neg e = s.neg e := rfl
@[simp] theorem State.setCtx_memWord (c : CtxIx) (v : BarrettCtx) (b : Nat) : (s.setCtx c v).memWord b = s.memWord b := rfl
@[simp] theorem State.setCtx_accumulator (c : CtxIx) (v : BarrettCtx) : (s.setCtx c v).acc = s.acc := rfl

@[simp] theorem State.withHost_x (rest : List HostAction) (r : XReg) : (s.withHost rest).x r = s.x r := rfl
@[simp] theorem State.withHost_base (rest : List HostAction) (e : DReg) : (s.withHost rest).base e = s.base e := rfl
@[simp] theorem State.withHost_len (rest : List HostAction) (e : DReg) : (s.withHost rest).len e = s.len e := rfl
@[simp] theorem State.withHost_neg (rest : List HostAction) (e : DReg) : (s.withHost rest).neg e = s.neg e := rfl
@[simp] theorem State.withHost_ctx (rest : List HostAction) (k : CtxIx) : (s.withHost rest).ctx k = s.ctx k := rfl
@[simp] theorem State.withHost_memWord (rest : List HostAction) (b : Nat) : (s.withHost rest).memWord b = s.memWord b := rfl
@[simp] theorem State.withHost_accumulator (rest : List HostAction) : (s.withHost rest).acc = s.acc := rfl

/-! ### What an update writes -/

/-- `X[i] <- v` writes `v mod 2^W` and no other register (R20). -/
theorem State.x_setX (i : XReg) (v : Nat) (r : XReg) :
    (s.setX i v).x r = if r = i then v % s.cfg.width.base else s.x r := by
  simp only [State.x, State.setX_regs, State.setX_cfg, Fin.getElem_fin, Vector.getElem_set]
  by_cases h : r = i
  · subst h; simp
  · rw [if_neg (fun e => h (Fin.ext e.symm)), if_neg h]

@[simp] theorem State.x_setX_same (i : XReg) (v : Nat) : (s.setX i v).x i = v % s.cfg.width.base := by
  rw [State.x_setX, if_pos rfl]

theorem State.x_setX_of_ne {i r : XReg} (h : r ≠ i) (v : Nat) : (s.setX i v).x r = s.x r := by
  rw [State.x_setX, if_neg h]

theorem State.x_lt (i : XReg) : s.x i < s.cfg.width.base := Width.low_lt _ _

theorem State.accLow_lt : s.accLow < s.cfg.width.base := Width.low_lt _ _

/-- The low word of the accumulator as a number. -/
theorem State.acc_mod_base : s.acc % s.cfg.width.base = s.accLow := by
  have h : s.acc = s.accLow + s.cfg.width.base *
      (s.cfg.width.low s.a1 + s.cfg.width.low s.a2 * s.cfg.width.base) := by
    simp only [State.acc, State.accLow]; ring
  rw [h, Nat.add_mul_mod_self_left, Nat.mod_eq_of_lt s.accLow_lt]

theorem State.acc_lt : s.acc < s.cfg.width.base ^ 3 := by
  have h0 := s.cfg.width.low_lt s.a0
  have h1 := s.cfg.width.low_lt s.a1
  have h2 := s.cfg.width.low_lt s.a2
  unfold State.acc
  generalize s.cfg.width.low s.a0 = x0 at *
  generalize s.cfg.width.low s.a1 = x1 at *
  generalize s.cfg.width.low s.a2 = x2 at *
  generalize s.cfg.width.base = b at *
  nlinarith [Nat.mul_le_mul_right (b ^ 2) (Nat.succ_le_of_lt h2), Nat.mul_le_mul_right b (Nat.succ_le_of_lt h1)]

/-- `ACC <- v` keeps `v mod 2^(3W)` (R120). -/
@[simp] theorem State.acc_setAcc (v : Nat) : (s.setAcc v).acc = v % s.cfg.width.base ^ 3 := by
  simp only [State.acc, State.setAcc_a0, State.setAcc_a1, State.setAcc_a2, State.setAcc_cfg, Width.low_cell]
  rw [show (3 : Nat) = 1 + (1 + 1) from rfl, Nat.pow_add, Nat.mod_mul, Nat.pow_add, Nat.mod_mul,
    Nat.pow_one, Nat.div_div_eq_div_mul, Nat.pow_two]
  ring

@[simp] theorem State.accLow_setAcc (v : Nat) : (s.setAcc v).accLow = v % s.cfg.width.base := by
  simp [State.accLow]

/-- `D[d].NEG <- 0` clears `NEG` of `d` only (R27). -/
theorem State.neg_clearNeg (d e : DReg) : (s.clearNeg d).neg e = if e = d then false else s.neg e := by
  simp only [State.neg, State.clearNeg_descs, Fin.getElem_fin, Vector.getElem_set]
  by_cases h : e = d
  · subst h; simp
  · rw [if_neg (fun h' => h (Fin.ext h'.symm)), if_neg h]

theorem State.base_clearNeg (d e : DReg) : (s.clearNeg d).base e = s.base e := by
  simp only [State.base, State.clearNeg_descs, State.clearNeg_cfg, Fin.getElem_fin, Vector.getElem_set]
  by_cases h : d.val = e.val
  · rw [if_pos h]; simp [h]
  · rw [if_neg h]

theorem State.len_clearNeg (d e : DReg) : (s.clearNeg d).len e = s.len e := by
  simp only [State.len, State.clearNeg_descs, State.clearNeg_cfg, Fin.getElem_fin, Vector.getElem_set]
  by_cases h : d.val = e.val
  · rw [if_pos h]; simp [h]
  · rw [if_neg h]

@[simp] theorem State.neg_writeResult (d : DReg) (v : Nat) (e : DReg) :
    (s.writeResult d v).neg e = if e = d then false else s.neg e :=
  (s.writeWords (s.base d) _).neg_clearNeg d e

@[simp] theorem State.base_writeResult (d : DReg) (v : Nat) (e : DReg) :
    (s.writeResult d v).base e = s.base e :=
  (s.writeWords (s.base d) _).base_clearNeg d e

@[simp] theorem State.len_writeResult (d : DReg) (v : Nat) (e : DReg) :
    (s.writeResult d v).len e = s.len e :=
  (s.writeWords (s.base d) _).len_clearNeg d e

/-- `WriteResult(d, v)` writes every word of `d`, zero-extending `v`, and no other word (R10). -/
theorem State.memWord_writeResult (d : DReg) (v b : Nat) :
    (s.writeResult d v).memWord b =
      if s.base d ≤ b ∧ b < s.base d + s.len d then
        some (v / s.cfg.width.base ^ (b - s.base d) % s.cfg.width.base)
      else s.memWord b := by
  have h : (s.writeResult d v).memWord b =
      (s.writeWords (s.base d) (wordsOfNat s.cfg.width (s.len d) v)).memWord b := rfl
  rw [h, State.memWord_writeWords]
  by_cases hb : s.base d ≤ b ∧ b < s.base d + s.len d
  · rw [dif_pos (by simpa using hb), if_pos hb, wordsOfNat_getElem, Nat.mod_mod]
  · rw [dif_neg (by simpa using hb), if_neg hb]

/-- `BCTX[c] <- v` writes slot `c` only (R35). -/
theorem State.ctx_setCtx (c : CtxIx) (v : BarrettCtx) (k : CtxIx) :
    (s.setCtx c v).ctx k = if k = c then v else s.ctx k := by
  simp only [State.ctx, State.setCtx_bctx, Fin.getElem_fin, Vector.getElem_set]
  by_cases h : k = c
  · subst h; simp
  · rw [if_neg (fun h' => h (Fin.ext h'.symm)), if_neg h]

end Sys2Proof.Machine
end

