-- ==== Sys2Proof/Laws/Commands.lean ====
section
/-! SUPPORT. What a command can do, said once: `exec_cases`. -/

namespace Sys2Proof.Machine

/-! ### The two ways a command ends -/

theorem succeed_eq (s : State) : succeed s = .next (s.conclude s.status.success) := rfl

theorem raise_eq (e : Err) (s : State) : raise e s = .next (s.conclude (Status.failure e)) := rfl

@[simp] theorem Status.success_code (st : Status) : st.success.code = 0#4 := rfl
@[simp] theorem Status.success_detail (st : Status) : st.success.detail = 0#8 := rfl
@[simp] theorem Status.success_sticky (st : Status) : st.success.sticky = st.sticky := rfl
@[simp] theorem Status.failure_code (e : Err) : (Status.failure e).code = e.code := rfl
@[simp] theorem Status.failure_detail (e : Err) : (Status.failure e).detail = e.detail := rfl
@[simp] theorem Status.failure_sticky (e : Err) : (Status.failure e).sticky = true := rfl

/-- Every error class is non-zero (R301), so `CODE` tells success from error. -/
theorem Err.code_ne_zero (e : Err) : e.code ≠ 0#4 := by cases e <;> decide

/-- The detail code names the cause (R302). -/
theorem Err.detail_injective {e f : Err} (h : e.detail = f.detail) : e = f := by
  cases e <;> cases f <;> first | rfl | exact absurd h (by decide)

/-- The error effect (R306). -/
theorem errorEffect_raise (e : Err) (s : State) :
    ErrorEffect e.code e.detail s (s.conclude (Status.failure e)) :=
  ⟨rfl, rfl, ⟨rfl, rfl, rfl, rfl⟩, fun _ => rfl, ⟨rfl, rfl, rfl⟩, fun _ => ⟨rfl, rfl, rfl⟩, fun _ => rfl,
    fun _ => rfl⟩

/-! ### A new reducer -/

/-- The slot a setup builds from a modulus of at most `NMAX` significant words is a reducer (R35). -/
theorem barrettCtxOf_words {cfg : Config} {m : Nat} (mode : Mode) (h : sigWords cfg.width m ≤ cfg.nmax) :
    (barrettCtxOf cfg.width mode m).words = sigWords cfg.width m := by
  have := cfg.legal
  simp only [barrettCtxOf, BarrettCtx.words, BitVec.toNat_ofNat]
  exact Nat.mod_eq_of_lt (by omega)

theorem barrettCtxOf_legal {cfg : Config} {m : Nat} (mode : Mode) (hm : m ≠ 0)
    (h : sigWords cfg.width m ≤ cfg.nmax) : (barrettCtxOf cfg.width mode m).Legal cfg := by
  have hk := barrettCtxOf_words mode h
  have hpos := sigWords_pos cfg.width hm
  unfold BarrettCtx.Legal
  rw [if_pos (by rfl), hk]
  exact ⟨hpos, h, base_pow_le_of_sigWords cfg.width (v := m) (by omega), lt_base_pow_sigWords cfg.width m, rfl⟩

/-! ### What a command can do -/

/-- The effects a command can have before the success effect: which state it writes, and that it writes
no other. -/
def Effect (s : State) : Instr → State → Prop
  | .nop, u => u = s
  | .clrerr, u => u = { s with status := s.status.clearSticky }
  | .w3Clr, u | .w3Add _, u | .w3Mul _ _, u => ∃ v, u = s.setAcc v
  | .w3Mstep rd _ _, u | .w3Mstepx rd _ _, u | .w3Extract rd, u => ∃ v x, u = (s.setAcc v).setX rd x
  | .ctMaskb rd _, u | .ctMasknz rd _, u | .ctMaskz rd _, u | .ctMaskeq rd _ _, u
  | .ctMasklt rd _ _, u | .ctSel rd _ _ _, u | .montPdash rd _, u | .ctCmpltm _ _ rd, u
  | .ctCmpeqm _ _ rd, u => ∃ x, u = s.setX rd x
  | .ctSelm dr _ _ _, u =>
    s.inBounds dr = true ∧ ∃ ws : List Nat, ws.length = s.len dr ∧ u = s.writeWords (s.base dr) ws
  | .mpMul dr _ _, u | .montRedc dr _ _ _, u | .barRed dr _ _, u | .barMul dr _ _ _, u
  | .barSqr dr _ _, u | .barCube dr _ _, u => s.inBounds dr = true ∧ ∃ v, u = s.writeResult dr v
  | .barSetups _ c, u | .barSetupp _ c, u =>
    c.val < s.cfg.nctx ∧ (s.ctx c).valid = false ∧
      ∃ b : BarrettCtx, b.Legal s.cfg ∧ b.valid = true ∧ u = s.setCtx c b
  | .barFree c, u => c.val < s.cfg.nctx ∧ u = s.setCtx c BarrettCtx.empty

/-- A command whose checks all pass succeeds, and one whose checks fail raises. -/
theorem result_cases {o : Option Err} {s u : State} {P : State → Prop} (h : o = none → P u) :
    (∃ e, (match (generalizing := false) o with | some e => raise e s | none => succeed u) = raise e s) ∨
      ∃ u', P u' ∧ (match (generalizing := false) o with | some e => raise e s | none => succeed u) = succeed u' := by
  cases o with
  | some e => exact .inl ⟨e, rfl⟩
  | none => exact .inr ⟨u, h rfl, rfl⟩

theorem inBounds_of_mpMulError {dr da db : DReg} {s : State} (h : mpMulError dr da db s = none) :
    s.inBounds dr = true ∧ s.inBounds da = true ∧ s.inBounds db = true := by
  unfold mpMulError at h; split at h
  · cases h
  · simp_all

theorem inBounds_of_redcError {dr da db : DReg} {s : State} (h : redcError dr da db s = none) :
    s.inBounds dr = true ∧ s.inBounds da = true ∧ s.inBounds db = true := by
  unfold redcError at h; split at h
  · cases h
  · simp_all

theorem selmError_none {dr da db : DReg} {s : State} (h : selmError dr da db s = none) :
    s.inBounds dr = true ∧ s.len da = s.len dr ∧ s.len db = s.len dr := by
  unfold selmError at h; split at h
  · cases h
  · split at h
    · cases h
    · simp_all

theorem reduceError_none {r : Bool} {dr : DReg} {ins : List (DReg × Nat)} {c : CtxIx} {s : State}
    (h : reduceError r dr ins c s = none) :
    c.val < s.cfg.nctx ∧ (s.ctx c).valid = true ∧ s.inBounds dr = true := by
  unfold reduceError at h; split at h
  · cases h
  · split at h
    · cases h
    · split at h
      · cases h
      · simp_all

theorem setupError_none {da : DReg} {c : CtxIx} {s : State} (h : setupError da c s = none) :
    c.val < s.cfg.nctx ∧ (s.ctx c).valid = false ∧ s.val da 0 ≠ 0 ∧
      sigWords s.cfg.width (s.val da 0) ≤ s.cfg.nmax := by
  unfold setupError at h
  repeat' split at h
  all_goals try cases h
  refine ⟨by omega, by simp_all, ‹_›, by omega⟩

/-- Every command, in every state, raises one error or succeeds with an effect of its own (R317). -/
theorem exec_cases (i : Instr) (s : State) :
    (∃ e, exec i s = raise e s) ∨ ∃ u, Effect s i u ∧ exec i s = succeed u := by
  cases i with
  | nop => exact .inr ⟨_, rfl, rfl⟩
  | clrerr => exact .inr ⟨_, rfl, rfl⟩
  | w3Clr => exact .inr ⟨_, ⟨_, rfl⟩, rfl⟩
  | w3Add => exact .inr ⟨_, ⟨_, rfl⟩, rfl⟩
  | w3Mul => exact .inr ⟨_, ⟨_, rfl⟩, rfl⟩
  | w3Mstep => exact .inr ⟨_, ⟨_, _, rfl⟩, rfl⟩
  | w3Mstepx => exact .inr ⟨_, ⟨_, _, rfl⟩, rfl⟩
  | w3Extract => exact .inr ⟨_, ⟨_, _, rfl⟩, rfl⟩
  | ctMaskb => exact .inr ⟨_, ⟨_, rfl⟩, rfl⟩
  | ctMasknz => exact .inr ⟨_, ⟨_, rfl⟩, rfl⟩
  | ctMaskz => exact .inr ⟨_, ⟨_, rfl⟩, rfl⟩
  | ctMaskeq => exact .inr ⟨_, ⟨_, rfl⟩, rfl⟩
  | ctMasklt => exact .inr ⟨_, ⟨_, rfl⟩, rfl⟩
  | ctSel => exact .inr ⟨_, ⟨_, rfl⟩, rfl⟩
  | ctSelm dr da db xr =>
    refine result_cases fun h => ?_
    obtain ⟨hb, ha, hd⟩ := selmError_none h
    exact ⟨hb, _, by simp [State.words, ha, hd], rfl⟩
  | ctCmpltm da db xr => exact result_cases fun _ => ⟨_, rfl⟩
  | ctCmpeqm da db xr => exact result_cases fun _ => ⟨_, rfl⟩
  | mpMul dr da db => exact result_cases fun h => ⟨(inBounds_of_mpMulError h).1, _, rfl⟩
  | montPdash rd rs1 =>
    simp only [exec, execMontPdash]
    split
    · exact .inl ⟨_, rfl⟩
    · exact .inr ⟨_, ⟨_, rfl⟩, rfl⟩
  | montRedc dr da db xr => exact result_cases fun h => ⟨(inBounds_of_redcError h).1, _, rfl⟩
  | barSetups da c =>
    refine result_cases fun h => ?_
    obtain ⟨hc, hv, hm, hk⟩ := setupError_none h
    exact ⟨hc, hv, _, barrettCtxOf_legal _ hm hk, rfl, rfl⟩
  | barSetupp da c =>
    refine result_cases fun h => ?_
    obtain ⟨hc, hv, hm, hk⟩ := setupError_none h
    exact ⟨hc, hv, _, barrettCtxOf_legal _ hm hk, rfl, rfl⟩
  | barFree c =>
    simp only [exec, execBarFree]
    split
    · exact .inl ⟨_, rfl⟩
    · exact .inr ⟨_, ⟨by omega, rfl⟩, rfl⟩
  | barRed dr da c => exact result_cases fun h => ⟨(reduceError_none h).2.2, _, rfl⟩
  | barMul dr da db c => exact result_cases fun h => ⟨(reduceError_none h).2.2, _, rfl⟩
  | barSqr dr da c => exact result_cases fun h => ⟨(reduceError_none h).2.2, _, rfl⟩
  | barCube dr da c => exact result_cases fun h => ⟨(reduceError_none h).2.2, _, rfl⟩

/-- The same, said of a next state: the error effect of one cause, or the success effect after an
effect of the command's own. -/
theorem exec_next_cases {i : Instr} {s t : State} (h : exec i s = .next t) :
    (∃ e, t = s.conclude (Status.failure e)) ∨ ∃ u, Effect s i u ∧ t = u.conclude u.status.success := by
  rcases exec_cases i s with ⟨e, he⟩ | ⟨u, hu, he⟩ <;> rw [he] at h
  · exact .inl ⟨e, (Host.Outcome.next.inj h).symm⟩
  · exact .inr ⟨u, hu, (Host.Outcome.next.inj h).symm⟩

end Sys2Proof.Machine
end

