-- ==== Sys2Proof/Laws/Barrett.lean ====
section
/-! SUPPORT. The arithmetic of Barrett reduction: `barrettCore` is `x mod m` for `x < b^(2k)` (R237). -/

namespace Sys2Proof.Machine

/-- The quotient estimate: never above `x / m`, and below it by less than 3 (R237, step 1). `P` is
`b^(k-1)` and `Q` is `b^(k+1)`. -/
theorem barrett_quotient_bounds {P Q m x : Nat} (hm : 0 < m) (hP : 0 < P) (hQ : 0 < Q) (hPm : P ≤ m)
    (hx : x < P * Q) :
    x / P * (P * Q / m) / Q * m ≤ x ∧ x < x / P * (P * Q / m) / Q * m + 3 * m := by
  have h1 := Nat.div_add_mod x P
  have h2 := Nat.div_add_mod (P * Q) m
  have h3 := Nat.div_add_mod (x / P * (P * Q / m)) Q
  have l1 := Nat.mod_lt x hP
  have l2 := Nat.mod_lt (P * Q) hm
  have l3 := Nat.mod_lt (x / P * (P * Q / m)) hQ
  have hq : x / P < Q := Nat.div_lt_of_lt_mul hx
  generalize x / P * (P * Q / m) % Q = f at *
  generalize x / P * (P * Q / m) / Q = q3 at *
  generalize P * Q % m = e at *
  generalize P * Q / m = mu at *
  generalize x % P = x0 at *
  generalize x / P = q1 at *
  have key : x * Q = q3 * m * Q + (x0 * Q + q1 * e + f * m) := by
    calc x * Q = q1 * (P * Q) + x0 * Q := by rw [← h1]; ring
      _ = q1 * mu * m + q1 * e + x0 * Q := by rw [← h2]; ring
      _ = q3 * m * Q + (x0 * Q + q1 * e + f * m) := by rw [← h3]; ring
  have b1 : x0 * Q < m * Q := Nat.mul_lt_mul_of_pos_right (by omega) hQ
  have b2 : q1 * e ≤ Q * m := Nat.mul_le_mul (by omega) (by omega)
  have b3 : f * m < Q * m := Nat.mul_lt_mul_of_pos_right l3 hm
  constructor
  · exact Nat.le_of_mul_le_mul_right (by omega) hQ
  · refine Nat.lt_of_mul_lt_mul_right (a := Q) ?_
    have : (q3 * m + 3 * m) * Q = q3 * m * Q + (m * Q + Q * m + Q * m) := by ring
    omega

/-- Two conditional subtractions reduce a value below `3m` (R236, step 5). -/
theorem ctCondSub_twice {r m : Nat} (h : r < 3 * m) : ctCondSub (ctCondSub r m) m = r % m := by
  have hm : 0 < m := by omega
  unfold ctCondSub
  by_cases h1 : m ≤ r
  · rw [if_pos h1, Nat.mod_eq_sub_mod h1]
    by_cases h2 : m ≤ r - m
    · rw [if_pos h2, Nat.mod_eq_sub_mod h2, Nat.mod_eq_of_lt (by omega)]
    · rw [if_neg h2, Nat.mod_eq_of_lt (by omega)]
  · rw [if_neg h1, if_neg h1, Nat.mod_eq_of_lt (by omega)]

/-- Steps 3 and 4 of R236: the difference of the residues, corrected by one `Q` when it is negative, is the
difference itself when that lies in `[0, Q)`. -/
theorem masked_difference {x y Q : Nat} (h1 : y ≤ x) (h2 : x < y + Q) :
    (((x % Q : Nat) : Int) - ((y % Q : Nat) : Int) +
      (if ((x % Q : Nat) : Int) - ((y % Q : Nat) : Int) < 0 then 1 else 0) * (Q : Int)).toNat = x - y := by
  have hQ : 0 < Q := by omega
  have hx := Nat.div_add_mod x Q
  have hy := Nat.div_add_mod y Q
  have lx := Nat.mod_lt x hQ
  have ly := Nat.mod_lt y hQ
  generalize x % Q = a at *
  generalize y % Q = c at *
  have hle : y / Q ≤ x / Q := Nat.div_le_div_right h1
  have hlt : x / Q < y / Q + 2 := by
    by_contra hcon
    have := Nat.mul_le_mul_left Q (show y / Q + 2 ≤ x / Q by omega)
    rw [Nat.mul_add] at this
    omega
  obtain hk | hk : x / Q = y / Q ∨ x / Q = y / Q + 1 := by omega
  · rw [hk] at hx
    rw [if_neg (by omega)]
    omega
  · rw [hk, Nat.mul_add] at hx
    rw [if_pos (by omega)]
    omega

/-- **Barrett reduction is exact** (R237): for `b^(k-1) <= m < b^k` and `mu = floor(b^(2k) / m)`,
`BarrettCore(x)` is `x mod m` for every `x < b^(2k)`. -/
theorem barrettCore_eq_mod (w : Width) {k m mu x : Nat} (hk : 1 ≤ k) (hlo : w.base ^ (k - 1) ≤ m)
    (hhi : m < w.base ^ k) (hmu : mu = w.base ^ (2 * k) / m) (hx : x < w.base ^ (2 * k)) :
    barrettCore w k m mu x = x % m := by
  obtain ⟨n, rfl⟩ : ∃ n, k = n + 1 := ⟨k - 1, by omega⟩
  simp only [Nat.add_sub_cancel] at hlo
  have hb := w.four_le_base
  have hP : 0 < w.base ^ n := Nat.pow_pos w.base_pos
  have hQ : 0 < w.base ^ (n + 1 + 1) := Nat.pow_pos w.base_pos
  have hm : 0 < m := by omega
  have hPQ : w.base ^ (2 * (n + 1)) = w.base ^ n * w.base ^ (n + 1 + 1) := by rw [← Nat.pow_add]; congr 1; omega
  have h3 : 3 * m < w.base ^ (n + 1 + 1) := by
    rw [Nat.pow_succ (n := w.base) (m := n + 1)]; nlinarith
  rw [hPQ] at hx hmu
  obtain ⟨hle, hlt⟩ := barrett_quotient_bounds hm hP hQ hlo hx
  rw [← hmu] at hle hlt
  unfold barrettCore
  simp only [Nat.add_sub_cancel]
  rw [masked_difference hle (by omega), ctCondSub_twice (by omega)]
  conv_rhs => rw [← Nat.sub_add_cancel hle]
  rw [Nat.add_mul_mod_self_right]

end Sys2Proof.Machine
end

