-- ==== Sys2Proof/Laws/Checks.lean ====
section
/-! SUPPORT. The checks as conditions on descriptors, and each command's checks that pass. -/

namespace Sys2Proof.Machine

variable (s : State)

theorem State.inBounds_iff (d : DReg) : s.inBounds d = true ↔ InBounds s d := by
  simp [State.inBounds, InBounds]

theorem State.overlap_iff (d e : DReg) : s.overlap d e = true ↔ Overlaps s d e := by
  simp [State.overlap, Overlaps, and_assoc]

theorem State.negZero_iff (d : DReg) (pos : Nat) :
    s.negZero d pos = true ↔ s.neg d = true ∧ s.val d pos = 0 := by simp [State.negZero]

variable {s}

/-- `CT.SELM` passes its checks (R157). -/
theorem selmError_eq_none {dr da db : DReg} (hr : InBounds s dr) (ha : InBounds s da) (hb : InBounds s db)
    (hla : s.len da = s.len dr) (hlb : s.len db = s.len dr) (hoa : Overlaps s dr da → s.base dr = s.base da)
    (hob : Overlaps s dr db → s.base dr = s.base db) : selmError dr da db s = none := by
  rw [← s.inBounds_iff] at hr ha hb
  rw [← s.overlap_iff] at hoa hob
  unfold selmError
  rw [if_neg (by simp [hr, ha, hb]), if_neg (by simp [hla, hlb]), if_neg]
  simp only [Bool.or_eq_true, Bool.and_eq_true, decide_eq_true_eq]
  rintro (⟨h, hn⟩ | ⟨h, hn⟩)
  · exact hn (hoa h)
  · exact hn (hob h)

/-- `MP.MUL` passes its checks (R190). -/
theorem mpMulError_eq_none {dr da db : DReg} (hr : InBounds s dr) (ha : InBounds s da) (hb : InBounds s db)
    (hna : s.neg da = false) (hnb : s.neg db = false) (hca : s.len da ≤ s.cfg.nmax) (hcb : s.len db ≤ s.cfg.nmax)
    (hl : s.len da + s.len db ≤ s.len dr) (hoa : ¬Overlaps s dr da) (hob : ¬Overlaps s dr db) :
    mpMulError dr da db s = none := by
  rw [← s.inBounds_iff] at hr ha hb
  rw [← s.overlap_iff] at hoa hob
  unfold mpMulError
  rw [if_neg (by simp [hr, ha, hb]), if_neg (by simp [State.negZero, hna, hnb]), if_neg (by simp [hna, hnb]),
    if_neg (by omega), if_neg (by omega), if_neg (by simp [hoa, hob])]

/-- `MONT.REDC` passes its checks (R202). -/
theorem redcError_eq_none {dr da db : DReg} (hr : InBounds s dr) (ha : InBounds s da) (hb : InBounds s db)
    (hna : s.neg da = false) (hnb : s.neg db = false) (hn : s.len db ≠ 0) (hc : s.len db ≤ s.cfg.nmax)
    (hla : 2 * s.len db ≤ s.len da) (hlr : s.len db ≤ s.len dr) (hoa : ¬Overlaps s dr da)
    (hob : ¬Overlaps s dr db) : redcError dr da db s = none := by
  rw [← s.inBounds_iff] at hr ha hb
  rw [← s.overlap_iff] at hoa hob
  unfold redcError
  rw [if_neg (by simp [hr, ha, hb]), if_neg (by simp [State.negZero, hna, hnb]), if_neg (by simp [hna, hnb]),
    if_neg hn, if_neg (by omega), if_neg (by omega), if_neg (by simp [hoa, hob])]

/-- A setup passes its checks (R231). -/
theorem setupError_eq_none {da : DReg} {c : CtxIx} (hc : c.val < s.cfg.nctx) (hv : (s.ctx c).valid = false)
    (hb : InBounds s da) (hn : s.neg da = false) (hz : s.val da 0 ≠ 0)
    (hk : sigWords s.cfg.width (s.val da 0) ≤ s.cfg.nmax) : setupError da c s = none := by
  rw [← s.inBounds_iff] at hb
  unfold setupError
  rw [if_neg (by omega), if_neg (by simp [hv]), if_neg (by simp [hb]), if_neg (by simp [State.negZero, hn]),
    if_neg (by simp [hn]), if_neg hz, if_neg (by omega)]

/-- A reduction passes its checks (R235). -/
theorem reduceError_eq_none {ranged : Bool} {dr : DReg} {ins : List (DReg × Nat)} {c : CtxIx}
    (hc : c.val < s.cfg.nctx) (hv : (s.ctx c).valid = true) (hr : InBounds s dr)
    (hi : ∀ d ∈ ins, InBounds s d.1) (hn : ∀ d ∈ ins, s.neg d.1 = false) (hl : (s.ctx c).words ≤ s.len dr)
    (ho : ∀ d ∈ ins, ¬Overlaps s dr d.1) (hm : ranged = true → ∀ d ∈ ins, s.val d.1 d.2 < (s.ctx c).m) :
    reduceError ranged dr ins c s = none := by
  rw [← s.inBounds_iff] at hr
  simp only [← s.inBounds_iff] at hi
  simp only [← s.overlap_iff] at ho
  unfold reduceError
  rw [if_neg (by omega), if_neg (by simp [hv]), if_neg, if_neg, if_neg, if_neg (by omega), if_neg, if_neg]
  · cases ranged with
    | false => simp
    | true => simpa using fun a b h => hm rfl (a, b) h
  · simpa using fun a b h => ho (a, b) h
  · simpa using fun a b h => hn (a, b) h
  · simpa [State.negZero] using fun a b h h' => absurd h' (by simp [hn (a, b) h])
  · simp only [Bool.not_eq_true', Bool.and_eq_false_iff, not_or, Bool.not_eq_false]
    exact ⟨hr, List.all_eq_true.2 hi⟩

end Sys2Proof.Machine
end

