-- ==== Sys2Proof/Laws/Congruence.lean ====
section
/-! SUPPORT. What operands and checks depend on: the instance, the descriptors, OPMEM, the draws, and of a
slot all but `MODE`. -/

namespace Sys2Proof.Machine

/-- Two states that no operand read and no check tells apart. -/
structure SameOperands (s t : State) : Prop where
  cfg : t.cfg = s.cfg
  descs : t.descs = s.descs
  opmem : t.opmem = s.opmem
  draws : t.draws = s.draws
  valid : ∀ c : CtxIx, (t.ctx c).valid = (s.ctx c).valid
  k : ∀ c : CtxIx, (t.ctx c).k = (s.ctx c).k
  m : ∀ c : CtxIx, (t.ctx c).m = (s.ctx c).m
  mu : ∀ c : CtxIx, (t.ctx c).mu = (s.ctx c).mu

namespace SameOperands

variable {s t : State} (h : SameOperands s t)
include h

theorem memWord (a : Nat) : t.memWord a = s.memWord a := by simp [State.memWord, h.opmem, h.cfg]

theorem base (d : DReg) : t.base d = s.base d := by simp [State.base, h.descs, h.cfg]

theorem len (d : DReg) : t.len d = s.len d := by simp [State.len, h.descs, h.cfg]

theorem neg (d : DReg) : t.neg d = s.neg d := by simp [State.neg, h.descs]

theorem readWords (a pos n : Nat) : t.readWords a pos n = s.readWords a pos n :=
  State.readWords_congr h.cfg (fun _ _ => h.memWord _) h.draws

theorem words (d : DReg) (pos : Nat) : t.words d pos = s.words d pos := by
  simp only [State.words, h.base, h.len, h.readWords]

theorem val (d : DReg) (pos : Nat) : t.val d pos = s.val d pos := by
  simp only [State.val, h.words, h.cfg]

theorem inBounds (d : DReg) : t.inBounds d = s.inBounds d := by
  simp only [State.inBounds, h.base, h.len, h.cfg]

theorem overlap (d e : DReg) : t.overlap d e = s.overlap d e := by
  simp only [State.overlap, h.base, h.len]

theorem negZero (d : DReg) (pos : Nat) : t.negZero d pos = s.negZero d pos := by
  simp only [State.negZero, h.neg, h.val]

theorem barrett (c : CtxIx) (x : Nat) : t.barrett c x = s.barrett c x := by
  simp only [State.barrett, BarrettCtx.words, h.cfg, h.k, h.m, h.mu]

theorem selmError (dr da db : DReg) : Machine.selmError dr da db t = Machine.selmError dr da db s := by
  simp only [Machine.selmError, h.inBounds, h.len, h.overlap, h.base]

theorem compareError (da db : DReg) : Machine.compareError da db t = Machine.compareError da db s := by
  simp only [Machine.compareError, h.inBounds]

theorem mpMulError (dr da db : DReg) : Machine.mpMulError dr da db t = Machine.mpMulError dr da db s := by
  simp only [Machine.mpMulError, h.inBounds, h.negZero, h.neg, h.len, h.overlap, h.cfg]

theorem redcError (dr da db : DReg) : Machine.redcError dr da db t = Machine.redcError dr da db s := by
  simp only [Machine.redcError, h.inBounds, h.negZero, h.neg, h.len, h.overlap, h.cfg]

theorem setupError (da : DReg) (c : CtxIx) : Machine.setupError da c t = Machine.setupError da c s := by
  simp only [Machine.setupError, h.valid, h.inBounds, h.negZero, h.neg, h.val, h.cfg]

theorem reduceError (r : Bool) (dr : DReg) (ins : List (DReg × Nat)) (c : CtxIx) :
    Machine.reduceError r dr ins c t = Machine.reduceError r dr ins c s := by
  simp only [Machine.reduceError, BarrettCtx.words, h.valid, h.k, h.m, h.inBounds, h.negZero, h.neg, h.val,
    h.len, h.overlap, h.cfg]
  congr

end SameOperands

end Sys2Proof.Machine
end

