-- ==== Sys2Proof/Laws/Decode.lean ====
section
/-! SUPPORT. Laws of the encoder's three formats: their bits, and their fields read back. -/

namespace Sys2Proof

/-! ### The bits of a format -/

theorem getLsbD_formatN (op : BitVec 6) (i : Nat) :
    (formatN op).getLsbD i = if i < 26 then false else op.getLsbD (i - 26) := by
  change BitVec.getLsbD (w := 6 + 26) (op ++ 0#26) i = _
  simp only [BitVec.getLsbD_append, BitVec.getLsbD_zero]

theorem getLsbD_formatR (op : BitVec 6) (rd rs1 rs2 rs3 : XReg) (i : Nat) :
    (formatR op rd rs1 rs2 rs3).getLsbD i =
      if i < 10 then false else if i < 14 then rs3.val.testBit (i - 10)
      else if i < 18 then rs2.val.testBit (i - 14) else if i < 22 then rs1.val.testBit (i - 18)
      else if i < 26 then rd.val.testBit (i - 22) else op.getLsbD (i - 26) := by
  change BitVec.getLsbD (w := 6 + 4 + 4 + 4 + 4 + 10) (op ++ BitVec.ofFin (w := 4) rd ++
    BitVec.ofFin (w := 4) rs1 ++ BitVec.ofFin (w := 4) rs2 ++ BitVec.ofFin (w := 4) rs3 ++ 0#10) i = _
  have h (x : XReg) (j : Nat) : (BitVec.ofFin (w := 4) x).getLsbD j = x.val.testBit j := rfl
  simp only [BitVec.getLsbD_append, h, BitVec.getLsbD_zero]
  split_ifs <;> first | rfl | omega

theorem getLsbD_formatM (op : BitVec 6) (dr da db : DReg) (xr : XReg) (ctx : CtxIx) (i : Nat) :
    (formatM op dr da db xr ctx).getLsbD i =
      if i < 10 then false else if i < 13 then ctx.val.testBit (i - 10)
      else if i < 17 then xr.val.testBit (i - 13) else if i < 20 then db.val.testBit (i - 17)
      else if i < 23 then da.val.testBit (i - 20) else if i < 26 then dr.val.testBit (i - 23)
      else op.getLsbD (i - 26) := by
  change BitVec.getLsbD (w := 6 + 3 + 3 + 3 + 4 + 3 + 10) (op ++ BitVec.ofFin (w := 3) dr ++
    BitVec.ofFin (w := 3) da ++ BitVec.ofFin (w := 3) db ++ BitVec.ofFin (w := 4) xr ++
    BitVec.ofFin (w := 3) ctx ++ 0#10) i = _
  have h4 (x : XReg) (j : Nat) : (BitVec.ofFin (w := 4) x).getLsbD j = x.val.testBit j := rfl
  have h3 (x : Fin 8) (j : Nat) : (BitVec.ofFin (w := 3) x).getLsbD j = x.val.testBit j := rfl
  simp only [BitVec.getLsbD_append, h3, h4, BitVec.getLsbD_zero]
  split_ifs <;> first | rfl | omega

/-! ### The fields of a format -/

/-- A four-bit field is the register index whose bits stand there. -/
theorem xField_eq {c : BitVec 32} {lo : Nat} {x : XReg}
    (h : ∀ j < 4, c.getLsbD (lo + j) = x.val.testBit j) : xField c lo = x := by
  have : c.extractLsb' lo 4 = BitVec.ofFin (w := 4) x := by
    apply BitVec.eq_of_getLsbD_eq
    intro j hj
    rw [BitVec.getLsbD_extractLsb', h j hj]
    simp [hj]
  exact Fin.ext (by simp only [xField, this]; rfl)

/-- A three-bit field is the descriptor or slot index whose bits stand there. -/
theorem dField_eq {c : BitVec 32} {lo : Nat} {x : Fin 8}
    (h : ∀ j < 3, c.getLsbD (lo + j) = x.val.testBit j) : dField c lo = x := by
  have : c.extractLsb' lo 3 = BitVec.ofFin (w := 3) x := by
    apply BitVec.eq_of_getLsbD_eq
    intro j hj
    rw [BitVec.getLsbD_extractLsb', h j hj]
    simp [hj]
  exact Fin.ext (by simp only [dField, this]; rfl)

/-- The opcode field is the opcode whose bits stand there. -/
theorem opField_eq {c : BitVec 32} {op : BitVec 6}
    (h : ∀ j < 6, c.getLsbD (26 + j) = op.getLsbD j) : opField c = op := by
  apply BitVec.eq_of_getLsbD_eq
  intro j hj
  rw [opField, BitVec.getLsbD_extractLsb', h j hj]
  simp [hj]

section Formats

variable (op : BitVec 6) (rd rs1 rs2 rs3 : XReg) (dr da db : DReg) (xr : XReg) (ctx : CtxIx)

@[simp] theorem opField_formatN : opField (formatN op) = op :=
  opField_eq fun j _ => by rw [getLsbD_formatN, if_neg (by omega), Nat.add_sub_cancel_left]

@[simp] theorem opField_formatR : opField (formatR op rd rs1 rs2 rs3) = op :=
  opField_eq fun j _ => by
    rw [getLsbD_formatR, if_neg (by omega), if_neg (by omega), if_neg (by omega),
      if_neg (by omega), if_neg (by omega), Nat.add_sub_cancel_left]

@[simp] theorem opField_formatM : opField (formatM op dr da db xr ctx) = op :=
  opField_eq fun j _ => by
    rw [getLsbD_formatM, if_neg (by omega), if_neg (by omega), if_neg (by omega),
      if_neg (by omega), if_neg (by omega), if_neg (by omega), Nat.add_sub_cancel_left]

@[simp] theorem fieldRD_formatR : fieldRD (formatR op rd rs1 rs2 rs3) = rd :=
  xField_eq fun j hj => by
    rw [getLsbD_formatR, if_neg (by omega), if_neg (by omega), if_neg (by omega), if_neg (by omega),
      if_pos (by omega), Nat.add_sub_cancel_left]

@[simp] theorem fieldRS1_formatR : fieldRS1 (formatR op rd rs1 rs2 rs3) = rs1 :=
  xField_eq fun j hj => by
    rw [getLsbD_formatR, if_neg (by omega), if_neg (by omega), if_neg (by omega), if_pos (by omega),
      Nat.add_sub_cancel_left]

@[simp] theorem fieldRS2_formatR : fieldRS2 (formatR op rd rs1 rs2 rs3) = rs2 :=
  xField_eq fun j hj => by
    rw [getLsbD_formatR, if_neg (by omega), if_neg (by omega), if_pos (by omega), Nat.add_sub_cancel_left]

@[simp] theorem fieldRS3_formatR : fieldRS3 (formatR op rd rs1 rs2 rs3) = rs3 :=
  xField_eq fun j hj => by
    rw [getLsbD_formatR, if_neg (by omega), if_pos (by omega), Nat.add_sub_cancel_left]

@[simp] theorem fieldDR_formatM : fieldDR (formatM op dr da db xr ctx) = dr :=
  dField_eq fun j hj => by
    rw [getLsbD_formatM, if_neg (by omega), if_neg (by omega), if_neg (by omega), if_neg (by omega),
      if_neg (by omega), if_pos (by omega), Nat.add_sub_cancel_left]

@[simp] theorem fieldDA_formatM : fieldDA (formatM op dr da db xr ctx) = da :=
  dField_eq fun j hj => by
    rw [getLsbD_formatM, if_neg (by omega), if_neg (by omega), if_neg (by omega), if_neg (by omega),
      if_pos (by omega), Nat.add_sub_cancel_left]

@[simp] theorem fieldDB_formatM : fieldDB (formatM op dr da db xr ctx) = db :=
  dField_eq fun j hj => by
    rw [getLsbD_formatM, if_neg (by omega), if_neg (by omega), if_neg (by omega), if_pos (by omega),
      Nat.add_sub_cancel_left]

@[simp] theorem fieldXR_formatM : fieldXR (formatM op dr da db xr ctx) = xr :=
  xField_eq fun j hj => by
    rw [getLsbD_formatM, if_neg (by omega), if_neg (by omega), if_pos (by omega), Nat.add_sub_cancel_left]

@[simp] theorem fieldCTX_formatM : fieldCTX (formatM op dr da db xr ctx) = ctx :=
  dField_eq fun j hj => by
    rw [getLsbD_formatM, if_neg (by omega), if_pos (by omega), Nat.add_sub_cancel_left]

end Formats

/-! ### Reserved bits -/

/-- A word meets a row's mask and match when it does so bit by bit (R100). -/
theorem masked_eq {c mask pattern : BitVec 32}
    (h : ∀ i < 32, (c.getLsbD i && mask.getLsbD i) = pattern.getLsbD i) : c &&& mask = pattern :=
  BitVec.eq_of_getLsbD_eq fun i hi => by rw [BitVec.getLsbD_and, h i hi]

/-- The decoder's answer for a word of a known row. -/
theorem decodeWord_of_row {c : BitVec 32} {op : BitVec 6} {r : OpRow} (hop : opField c = op)
    (hrow : opRows.find? (fun r => r.op == op) = some r) (hmask : c &&& r.mask = r.pattern) :
    decodeWord c = .ok (r.build c) := by
  simp only [decodeWord, hop, hrow, hmask, if_true]

end Sys2Proof
end

