-- ==== Sys2Proof/Laws/Montgomery.lean ====
section
/-! SUPPORT. The arithmetic of Montgomery reduction: `p'` (R200, R201), and `montyRedcCore` is
`z·R^-1 mod p` under the preconditions (R205). -/

namespace Sys2Proof.Machine

open Finset

/-! ### The inverse modulo `2^k` and `p'` -/

/-- `inversePow2 x k` is the inverse of an odd `x` modulo `2^k` (R201). -/
theorem inversePow2_spec {x : Nat} (hx : x % 2 = 1) (k : Nat) :
    inversePow2 x k < 2 ^ k ∧ x * inversePow2 x k % 2 ^ k = 1 % 2 ^ k := by
  induction k with
  | zero => simp [inversePow2, Nat.mod_one]
  | succ k ih =>
    obtain ⟨hlt, hinv⟩ := ih
    simp only [inversePow2]
    have hpos : 0 < 2 ^ k := Nat.two_pow_pos k
    have h1 : 1 % 2 ^ (k + 1) = 1 := Nat.mod_eq_of_lt (by rw [Nat.pow_succ]; omega)
    split
    · exact ⟨by rw [Nat.pow_succ]; omega, by rw [h1]; assumption⟩
    · rename_i hne
      refine ⟨by rw [Nat.pow_succ]; omega, ?_⟩
      generalize inversePow2 x k = y at *
      rcases Nat.eq_zero_or_pos k with rfl | hk
      · have : y = 0 := by simpa using hlt
        subst y; simp; omega
      · have hone : 1 % 2 ^ k = 1 := Nat.mod_eq_of_lt (Nat.one_lt_two_pow (by omega))
        rw [hone] at hinv
        rw [Nat.pow_succ, Nat.mod_mul, hinv] at hne
        have hq : x * y / 2 ^ k % 2 = 1 := by
          rcases Nat.mod_two_eq_zero_or_one (x * y / 2 ^ k) with h | h
          · rw [h] at hne; omega
          · exact h
        rw [Nat.pow_succ, Nat.mod_mul, Nat.mul_add, Nat.add_mul_mod_self_right, hinv,
          Nat.add_mul_div_right _ _ hpos, Nat.add_mod, hq, hx]
        rw [show (1 + 1) % 2 = 0 from rfl, Nat.mul_zero, Nat.add_zero, Nat.mod_eq_of_lt]
        have := Nat.one_lt_two_pow (n := k) (by omega)
        omega

/-- `X[s]·p' ≡ -1 (mod 2^W)` for an odd word (R201). -/
theorem pDash_spec (w : Width) {x : Nat} (hx : x % 2 = 1) : (x * pDash w x + 1) % w.base = 0 := by
  obtain ⟨hlt, hinv⟩ := inversePow2_spec hx w.bits
  unfold pDash
  change inversePow2 x w.bits < w.base at hlt
  change x * inversePow2 x w.bits % w.base = 1 % w.base at hinv
  generalize inversePow2 x w.bits = y at *
  rw [Nat.add_mod, Nat.mul_mod_mod, ← Nat.add_mod]
  obtain ⟨q, hq⟩ : ∃ q, x * y = 1 + w.base * q := by
    have h := Nat.div_add_mod (x * y) w.base
    rw [hinv, Nat.mod_eq_of_lt w.one_lt_base] at h
    exact ⟨x * y / w.base, by omega⟩
  have hle : w.base * q + 1 ≤ x * w.base := by nlinarith
  have : x * (w.base - y) + 1 = w.base * (x - q) := by
    have hq' : q ≤ x := Nat.le_of_mul_le_mul_right (by nlinarith) w.base_pos
    zify [hlt.le, hq']
    have : (x : Int) * y = 1 + w.base * q := by exact_mod_cast hq
    linarith [mul_sub (x : Int) w.base y, mul_sub (w.base : Int) x q, mul_comm (x : Int) w.base]
  rw [this, Nat.mul_mod_right]

theorem pDash_lt (w : Width) (x : Nat) : pDash w x < w.base := Nat.mod_lt _ w.base_pos

/-! ### Sums -/

theorem sumBelow_eq_sum (f : Nat → Nat) (n : Nat) : sumBelow f n = ∑ j ∈ range n, f j := by
  induction n with
  | zero => rfl
  | succ n ih => rw [sumBelow, ih, sum_range_succ]

theorem natOfWords_eq_sum (w : Width) (ws : List Nat) :
    natOfWords w ws = ∑ j ∈ range ws.length, ws.getD j 0 * w.base ^ j := by
  induction ws with
  | nil => rfl
  | cons x xs ih =>
    rw [natOfWords, ih, List.length_cons, sum_range_succ', mul_sum]
    simp only [List.getD_cons_succ, List.getD_cons_zero, pow_zero, mul_one, pow_succ]
    rw [Nat.add_comm]
    congr 1
    exact sum_congr rfl fun j _ => by ring

/-- Column `c` of the product of the digits `u` and the words `p`. -/
def column (u p : Nat → Nat) (n c : Nat) : Nat := ∑ j ∈ range n, if j ≤ c then u j * p (c - j) else 0

/-- A column below `n` has the terms of R203's first loop. -/
theorem column_low {u p : Nat → Nat} {n c : Nat} (hc : c < n) :
    column u p n c = ∑ j ∈ range (c + 1), u j * p (c - j) := by
  unfold column
  rw [← sum_filter]
  congr 1
  ext j; simp; omega

/-- A column from `n` up has the terms of R203's second loop. -/
theorem column_high {u p : Nat → Nat} {n i : Nat} (hi : i < n) (hp : ∀ l, n ≤ l → p l = 0) :
    column u p n (n + i) = ∑ t ∈ range (n - 1 - i), u (i + 1 + t) * p (n - 1 - t) := by
  unfold column
  rw [show n = (i + 1) + (n - 1 - i) by omega, sum_range_add]
  rw [show i + 1 + (n - 1 - i) = n by omega, sum_eq_zero, Nat.zero_add]
  · refine sum_congr rfl fun t ht => ?_
    have := mem_range.1 ht
    rw [if_pos (by omega)]
    congr 2; omega
  · intro j hj
    have := mem_range.1 hj
    rw [if_pos (by omega), hp _ (by omega), Nat.mul_zero]

/-- The columns sum to the product. -/
theorem sum_columns (b : Nat) {u p : Nat → Nat} {n : Nat} (hp : ∀ l, n ≤ l → p l = 0) :
    ∑ c ∈ range (n + n), column u p n c * b ^ c =
      (∑ j ∈ range n, u j * b ^ j) * ∑ l ∈ range n, p l * b ^ l := by
  unfold column
  simp only [sum_mul]
  rw [sum_comm]
  refine sum_congr rfl fun j hj => ?_
  have hj := mem_range.1 hj
  rw [show n + n = j + (n + (n - j)) by omega, sum_range_add, sum_eq_zero, Nat.zero_add, sum_range_add,
    sum_eq_zero (s := range (n - j)), Nat.add_zero, mul_sum]
  · refine sum_congr rfl fun l _ => ?_
    rw [if_pos (by omega), Nat.add_sub_cancel_left, pow_add]; ring
  · intro l _
    rw [if_pos (by omega), hp _ (by omega)]; simp
  · intro c hc
    have := mem_range.1 hc
    rw [if_neg (by omega), Nat.zero_mul]

/-! ### The two loops of R203 -/

section Loops

variable (w : Width) (z p : List Nat) (pd n : Nat)

/-- The digit `u` that pass `i` of the first loop appends. -/
def digit (i : Nat) : Nat :=
  let st := foldLoop w z p pd i
  (st.1 + sumBelow (fun j => st.2.getD j 0 * p.getD (i - j) 0) i + z.getD i 0) % w.base * pd % w.base

theorem foldLoop_digits (i : Nat) : (foldLoop w z p pd i).2 = (List.range i).map (digit w z p pd) := by
  induction i with
  | zero => rfl
  | succ i ih =>
    rw [List.range_succ, List.map_append, ← ih]
    rfl

theorem getD_map_range (f : Nat → Nat) (i j : Nat) (h : j < i) : ((List.range i).map f).getD j 0 = f j := by
  simp [List.getD, h]

/-- Pass `i` of the first loop divides its column's total by the word base. -/
theorem foldLoop_succ (i : Nat) : (foldLoop w z p pd (i + 1)).1 =
    ((foldLoop w z p pd i).1 + ∑ j ∈ range (i + 1), digit w z p pd j * p.getD (i - j) 0 + z.getD i 0) /
      w.base := by
  have hsum : sumBelow (fun j => (foldLoop w z p pd i).2.getD j 0 * p.getD (i - j) 0) i =
      ∑ j ∈ range i, digit w z p pd j * p.getD (i - j) 0 := by
    rw [sumBelow_eq_sum]
    refine sum_congr rfl fun j hj => ?_
    rw [foldLoop_digits, getD_map_range _ _ _ (mem_range.1 hj)]
  rw [sum_range_succ, Nat.sub_self, ← hsum]
  change (_ + digit w z p pd i * p.getD 0 0) / w.base = _
  congr 1
  ring

/-- The digit makes the column's low word zero, so that division is exact (R127). -/
theorem digit_exact (hpd : (p.getD 0 0 * pd + 1) % w.base = 0) (i : Nat) :
    w.base ∣ (foldLoop w z p pd i).1 + ∑ j ∈ range (i + 1), digit w z p pd j * p.getD (i - j) 0 +
      z.getD i 0 := by
  have hsum : sumBelow (fun j => (foldLoop w z p pd i).2.getD j 0 * p.getD (i - j) 0) i =
      ∑ j ∈ range i, digit w z p pd j * p.getD (i - j) 0 := by
    rw [sumBelow_eq_sum]
    refine sum_congr rfl fun j hj => ?_
    rw [foldLoop_digits, getD_map_range _ _ _ (mem_range.1 hj)]
  rw [sum_range_succ, Nat.sub_self]
  obtain ⟨c, hc⟩ := Nat.dvd_of_mod_eq_zero hpd
  have hd : digit w z p pd i = ((foldLoop w z p pd i).1 +
      ∑ j ∈ range i, digit w z p pd j * p.getD (i - j) 0 + z.getD i 0) % w.base * pd % w.base := by
    rw [← hsum]; rfl
  generalize (foldLoop w z p pd i).1 = a at *
  generalize ∑ j ∈ range i, digit w z p pd j * p.getD (i - j) 0 = t at *
  generalize z.getD i 0 = y at *
  generalize p.getD 0 0 = p0 at *
  rw [hd]
  have h1 : (a + t + y) % w.base * pd % w.base * p0 ≡ (a + t + y) * pd * p0 [MOD w.base] :=
    ((Nat.mod_modEq _ _).trans ((Nat.mod_modEq _ _).mul_right _)).mul_right _
  refine (Nat.modEq_zero_iff_dvd).1 ?_
  calc a + (t + (a + t + y) % w.base * pd % w.base * p0) + y
      = (a + t + y) + (a + t + y) % w.base * pd % w.base * p0 := by ring
    _ ≡ (a + t + y) + (a + t + y) * pd * p0 [MOD w.base] := h1.add_left _
    _ = w.base * ((a + t + y) * c) := by
      have : (a + t + y) + (a + t + y) * pd * p0 = (a + t + y) * (p0 * pd + 1) := by ring
      rw [this, hc]; ring
    _ ≡ 0 [MOD w.base] := (Nat.modEq_zero_iff_dvd).2 (dvd_mul_right _ _)

/-- The first loop: the accumulator times `b^i` is the total of the first `i` columns. -/
theorem foldLoop_total (hpd : (p.getD 0 0 * pd + 1) % w.base = 0) {i : Nat} (hi : i ≤ n) :
    (foldLoop w z p pd i).1 * w.base ^ i =
      ∑ c ∈ range i, (column (digit w z p pd) (fun l => p.getD l 0) n c + z.getD c 0) * w.base ^ c := by
  induction i with
  | zero => simp [foldLoop]
  | succ i ih =>
    rw [sum_range_succ, ← ih (by omega), column_low (by omega), foldLoop_succ, pow_succ', ← mul_assoc,
      Nat.div_mul_cancel (digit_exact w z p pd hpd i)]
    ring

/-- What the second loop leaves in `ws`: words written below `i`, digits from `i` up. -/
theorem highLoop_length (start : Nat × List Nat) (i : Nat) :
    (highLoop w z p n start i).2.length = start.2.length := by
  induction i with
  | zero => rfl
  | succ i ih => simp [highLoop, highColumn, ih]

theorem highLoop_getD_ge (start : Nat × List Nat) {i j : Nat} (h : i ≤ j) :
    (highLoop w z p n start i).2.getD j 0 = start.2.getD j 0 := by
  induction i with
  | zero => rfl
  | succ i ih =>
    rw [← ih (by omega)]
    simp only [highLoop, highColumn, List.getD_eq_getElem?_getD]
    rw [List.getElem?_set_ne (by omega)]

theorem highLoop_getD_lt (start : Nat × List Nat) {i j : Nat} (h : j < i) :
    (highLoop w z p n start i).2.getD j 0 = (highLoop w z p n start (j + 1)).2.getD j 0 := by
  induction i with
  | zero => omega
  | succ i ih =>
    rcases Nat.lt_succ_iff_lt_or_eq.1 h with h | rfl
    · rw [← ih h]
      simp only [highLoop, highColumn, List.getD_eq_getElem?_getD]
      rw [List.getElem?_set_ne (by omega)]
    · rfl

theorem highLoop_word_lt (start : Nat × List Nat) {i j : Nat} (h : j < i) :
    (highLoop w z p n start i).2.getD j 0 < w.base := by
  rw [highLoop_getD_lt _ _ _ _ _ h]
  simp only [highLoop, highColumn, List.getD_eq_getElem?_getD, List.getElem?_set_self']
  cases (highLoop w z p n start j).2[j]? with
  | none => exact w.base_pos
  | some x => exact Nat.mod_lt _ w.base_pos

/-- The second loop: the accumulator times `b^i`, with the words extracted so far, is what the first
loop left and the total of the columns from `n` up. -/
theorem highLoop_total (hp : p.length = n) {i : Nat} (hi : i ≤ n) :
    let st := highLoop w z p n (foldLoop w z p pd n) i
    st.1 * w.base ^ i + ∑ c ∈ range i, st.2.getD c 0 * w.base ^ c =
      (foldLoop w z p pd n).1 +
        ∑ c ∈ range i, (column (digit w z p pd) (fun l => p.getD l 0) n (n + c) + z.getD (n + c) 0) *
          w.base ^ c := by
  have hp0 : ∀ l, n ≤ l → p.getD l 0 = 0 := fun l hl => by
    rw [List.getD_eq_getElem?_getD, List.getElem?_eq_none (by omega)]; rfl
  induction i with
  | zero => simp [highLoop]
  | succ i ih =>
    have ih := ih (by omega)
    simp only at ih ⊢
    rw [sum_range_succ (n := i), sum_range_succ (n := i), column_high (by omega) hp0,
      ← Nat.add_assoc (foldLoop w z p pd n).1, ← ih]
    have hwords : ∑ c ∈ range i, (highLoop w z p n (foldLoop w z p pd n) (i + 1)).2.getD c 0 * w.base ^ c =
        ∑ c ∈ range i, (highLoop w z p n (foldLoop w z p pd n) i).2.getD c 0 * w.base ^ c := by
      refine sum_congr rfl fun c hc => ?_
      have hc := mem_range.1 hc
      rw [highLoop_getD_lt _ _ _ _ _ (show c < i + 1 by omega), highLoop_getD_lt _ _ _ _ _ hc]
    have hcol : sumBelow (fun t => (highLoop w z p n (foldLoop w z p pd n) i).2.getD (i + 1 + t) 0 *
        p.getD (n - 1 - t) 0) (n - 1 - i) =
        ∑ t ∈ range (n - 1 - i), digit w z p pd (i + 1 + t) * p.getD (n - 1 - t) 0 := by
      rw [sumBelow_eq_sum]
      refine sum_congr rfl fun t ht => ?_
      have ht := mem_range.1 ht
      rw [highLoop_getD_ge _ _ _ _ _ (by omega), foldLoop_digits, getD_map_range _ _ _ (by omega)]
    rw [hwords]
    set st := highLoop w z p n (foldLoop w z p pd n) i with hst
    have hlen : i < st.2.length := by
      rw [hst, highLoop_length, foldLoop_digits]; simp; omega
    have hnew : (highLoop w z p n (foldLoop w z p pd n) (i + 1)).2.getD i 0 =
        (st.1 + ∑ t ∈ range (n - 1 - i), digit w z p pd (i + 1 + t) * p.getD (n - 1 - t) 0 +
          z.getD (n + i) 0) % w.base := by
      rw [← hcol]
      simp only [highLoop, highColumn, List.getD_eq_getElem?_getD]
      rw [List.getElem?_set_self hlen]; rfl
    have hacc : (highLoop w z p n (foldLoop w z p pd n) (i + 1)).1 =
        (st.1 + ∑ t ∈ range (n - 1 - i), digit w z p pd (i + 1 + t) * p.getD (n - 1 - t) 0 +
          z.getD (n + i) 0) / w.base := by
      rw [← hcol]; rfl
    rw [hnew, hacc]
    generalize ∑ t ∈ range (n - 1 - i), digit w z p pd (i + 1 + t) * p.getD (n - 1 - t) 0 = q
    generalize ∑ c ∈ range i, st.2.getD c 0 * w.base ^ c = r
    have hdm := Nat.div_add_mod (st.1 + q + z.getD (n + i) 0) w.base
    calc (st.1 + q + z.getD (n + i) 0) / w.base * w.base ^ (i + 1) +
          (r + (st.1 + q + z.getD (n + i) 0) % w.base * w.base ^ i)
        = (w.base * ((st.1 + q + z.getD (n + i) 0) / w.base) +
            (st.1 + q + z.getD (n + i) 0) % w.base) * w.base ^ i + r := by ring
      _ = st.1 * w.base ^ i + r + (q + z.getD (n + i) 0) * w.base ^ i := by rw [hdm]; ring

end Loops

/-! ### The reduction -/

theorem sum_digits_lt (w : Width) (u : Nat → Nat) (n : Nat) (h : ∀ j < n, u j < w.base) :
    ∑ j ∈ range n, u j * w.base ^ j < w.base ^ n := by
  induction n with
  | zero => simp
  | succ n ih =>
    rw [sum_range_succ, pow_succ']
    have h1 := ih fun j hj => h j (by omega)
    have h2 := Nat.mul_le_mul_right (w.base ^ n) (Nat.succ_le_of_lt (h n (by omega)))
    have h3 : (u n).succ * w.base ^ n = u n * w.base ^ n + w.base ^ n := Nat.succ_mul _ _
    omega

/-- **Montgomery reduction is exact** (R205): for an odd `p` of `n` words, `p_dash = p'` and `z < p·R`, the
result is the `r < p` with `r·R ≡ z (mod p)`. -/
theorem montyRedcCore_spec (w : Width) {z p : List Nat} {n pd : Nat} (hzl : z.length = 2 * n)
    (hpl : p.length = n) (hpw : ∀ x ∈ p, x < w.base)
    (hpd : (p.getD 0 0 * pd + 1) % w.base = 0) (hz : natOfWords w z < natOfWords w p * w.base ^ n) :
    montyRedcCore w z p n pd < natOfWords w p ∧
      montyRedcCore w z p n pd * w.base ^ n ≡ natOfWords w z [MOD natOfWords w p] := by
  have hp0 : ∀ l, n ≤ l → p.getD l 0 = 0 := fun l hl => by
    rw [List.getD_eq_getElem?_getD, List.getElem?_eq_none (by omega)]; rfl
  have hlow := foldLoop_total w z p pd n hpd le_rfl
  have hhigh := highLoop_total w z p pd n hpl le_rfl
  simp only at hhigh
  have hcols := sum_columns w.base (u := digit w z p pd) (p := fun l => p.getD l 0) (n := n) hp0
  have hPlt : natOfWords w p < w.base ^ n := hpl ▸ natOfWords_lt w hpw
  have hP : natOfWords w p = ∑ l ∈ range n, p.getD l 0 * w.base ^ l := by rw [natOfWords_eq_sum, hpl]
  have hZ : natOfWords w z = ∑ c ∈ range (n + n), z.getD c 0 * w.base ^ c := by
    rw [natOfWords_eq_sum, hzl, Nat.two_mul]
  have hU : ∑ j ∈ range n, digit w z p pd j * w.base ^ j < w.base ^ n :=
    sum_digits_lt w _ n fun j _ => Nat.mod_lt _ w.base_pos
  have hCsum : natOfWords w (highLoop w z p n (foldLoop w z p pd n) n).2 =
      ∑ c ∈ range n, (highLoop w z p n (foldLoop w z p pd n) n).2.getD c 0 * w.base ^ c := by
    rw [natOfWords_eq_sum, highLoop_length, foldLoop_digits]; simp
  have hC : natOfWords w (highLoop w z p n (foldLoop w z p pd n) n).2 < w.base ^ n := by
    rw [hCsum]; exact sum_digits_lt w _ n fun j hj => highLoop_word_lt w z p n _ hj
  rw [← hCsum] at hhigh
  unfold montyRedcCore
  simp only
  generalize natOfWords w (highLoop w z p n (foldLoop w z p pd n) n).2 = C at *
  generalize (highLoop w z p n (foldLoop w z p pd n) n).1 = a at *
  generalize hUd : ∑ j ∈ range n, digit w z p pd j * w.base ^ j = U at *
  have hR : 0 < w.base ^ n := Nat.pow_pos w.base_pos
  -- the candidate times R is z + U·p
  have key : (a * w.base ^ n + C) * w.base ^ n = U * natOfWords w p + natOfWords w z := by
    rw [hhigh, Nat.add_mul, hlow, hP, ← hcols, hZ, sum_range_add (n := n) (m := n), sum_range_add (n := n) (m := n),
      sum_mul]
    simp only [add_mul, sum_add_distrib, pow_add]
    have e1 : ∀ f : Nat → Nat, ∑ x ∈ range n, f x * w.base ^ x * w.base ^ n =
        ∑ x ∈ range n, f x * (w.base ^ n * w.base ^ x) := fun f => sum_congr rfl fun x _ => by ring
    rw [e1, e1]; ring
  have hU1 : U * natOfWords w p ≤ (w.base ^ n - 1) * natOfWords w p := Nat.mul_le_mul_right _ (by omega)
  have hsub : (w.base ^ n - 1) * natOfWords w p + natOfWords w p = natOfWords w p * w.base ^ n := by
    rw [← Nat.succ_mul, Nat.succ_eq_add_one, Nat.sub_add_cancel hR, Nat.mul_comm]
  have hcand : a * w.base ^ n + C < 2 * natOfWords w p := by
    refine Nat.lt_of_mul_lt_mul_right (a := w.base ^ n) ?_
    rw [key, Nat.mul_assoc]; omega
  have ha : a ≤ 1 := by
    by_contra h
    have := Nat.mul_le_mul_right (w.base ^ n) (show 2 ≤ a by omega)
    omega
  have hw1 : a % w.base = a := Nat.mod_eq_of_lt (lt_of_le_of_lt ha w.one_lt_base)
  rw [hw1]
  have hmod : (a * w.base ^ n + C) * w.base ^ n ≡ natOfWords w z [MOD natOfWords w p] := by
    rw [key]
    exact (Nat.modEq_iff_dvd' (by omega)).2 ⟨U, by rw [Nat.add_sub_cancel]; ring⟩ |>.symm
  generalize natOfWords w p = P at *
  generalize w.base ^ n = R at *
  unfold montyMaybeSub
  by_cases hb : a = 0 ∧ C < P
  · rw [if_pos hb]
    obtain ⟨rfl, hlt⟩ := hb
    exact ⟨hlt, by simpa using hmod⟩
  · rw [if_neg hb]
    have hge : P ≤ a * R + C := by
      rcases Nat.eq_zero_or_pos a with rfl | hpos
      · simp at hb ⊢; exact hb
      · have := Nat.mul_le_mul_right R (show 1 ≤ a by omega); omega
    have hsubt : (C + R - P) % R = a * R + C - P := by
      rcases Nat.le_one_iff_eq_zero_or_eq_one.1 ha with rfl | rfl
      · simp only [Nat.zero_mul, Nat.zero_add] at hge ⊢
        rw [show C + R - P = C - P + R by omega, Nat.add_mod_right, Nat.mod_eq_of_lt (by omega)]
      · rw [Nat.mod_eq_of_lt (by omega)]; omega
    rw [hsubt]
    refine ⟨by omega, ?_⟩
    refine Nat.ModEq.trans ?_ hmod
    refine ((Nat.modEq_iff_dvd' (Nat.mul_le_mul_right _ (Nat.sub_le _ _))).2 ⟨R, ?_⟩)
    rw [← Nat.sub_mul, Nat.sub_sub_self hge]

/-- The result of the reduction is below `2^(W·n)` whatever the operands are (R204, R206). -/
theorem montyRedcCore_lt (w : Width) (z p : List Nat) (n pd : Nat) : montyRedcCore w z p n pd < w.base ^ n := by
  have hC : natOfWords w (highLoop w z p n (foldLoop w z p pd n) n).2 < w.base ^ n := by
    rw [natOfWords_eq_sum, highLoop_length, foldLoop_digits]
    simp only [List.length_map, List.length_range]
    exact sum_digits_lt w _ n fun j hj => highLoop_word_lt w z p n _ hj
  unfold montyRedcCore montyMaybeSub
  simp only
  split
  · exact hC
  · exact Nat.mod_lt _ (Nat.pow_pos w.base_pos)

end Sys2Proof.Machine
end

