-- ==== Sys2Proof/Laws/PerInstr.lean ====
section
/-! SUPPORT. Statements made for every command, one lemma a constructor. -/

namespace Sys2Proof.Laws

/-- The decoder gives back every encoded command, with every operand (R96, R99). -/
def RoundTrip.Statement (i : Instr) : Prop := decodeWord (encode i) = .ok i

/-- Closes a row's reserved-bit check on an encoded word, bit by bit. -/
theorem RoundTrip.of_row {i : Instr} {op : BitVec 6} {r : OpRow} (hop : opField (encode i) = op)
    (hrow : opRows.find? (fun r => r.op == op) = some r) (hbuild : r.build (encode i) = i)
    (hmask : ∀ j < 32, ((encode i).getLsbD j && r.mask.getLsbD j) = r.pattern.getLsbD j) :
    RoundTrip.Statement i := by
  rw [RoundTrip.Statement, decodeWord_of_row hop hrow (masked_eq hmask), hbuild]

theorem RoundTrip.nop : RoundTrip.Statement .nop := by
  refine RoundTrip.of_row (op := 0x00#6) (by simp [encode]) rfl rfl fun j hj => ?_
  rw [encode, getLsbD_formatN]
  interval_cases j <;> simp

theorem RoundTrip.clrerr : RoundTrip.Statement .clrerr := by
  refine RoundTrip.of_row (op := 0x01#6) (by simp [encode]) rfl rfl fun j hj => ?_
  rw [encode, getLsbD_formatN]
  interval_cases j <;> simp

theorem RoundTrip.w3Clr : RoundTrip.Statement .w3Clr := by
  refine RoundTrip.of_row (op := 0x08#6) (by simp [encode]) rfl rfl fun j hj => ?_
  rw [encode, getLsbD_formatN]
  interval_cases j <;> simp

theorem RoundTrip.w3Add (rs1 : XReg) : RoundTrip.Statement (.w3Add rs1) := by
  refine RoundTrip.of_row (op := 0x09#6) (by simp [encode]) rfl (by simp [encode]) fun j hj => ?_
  rw [encode, getLsbD_formatR]
  interval_cases j <;> simp

theorem RoundTrip.w3Mul (rs1 rs2 : XReg) : RoundTrip.Statement (.w3Mul rs1 rs2) := by
  refine RoundTrip.of_row (op := 0x0A#6) (by simp [encode]) rfl (by simp [encode]) fun j hj => ?_
  rw [encode, getLsbD_formatR]
  interval_cases j <;> simp

theorem RoundTrip.w3Mstep (rd rs1 rs2 : XReg) : RoundTrip.Statement (.w3Mstep rd rs1 rs2) := by
  refine RoundTrip.of_row (op := 0x0B#6) (by simp [encode]) rfl (by simp [encode]) fun j hj => ?_
  rw [encode, getLsbD_formatR]
  interval_cases j <;> simp

theorem RoundTrip.w3Mstepx (rd rs1 rs2 : XReg) : RoundTrip.Statement (.w3Mstepx rd rs1 rs2) := by
  refine RoundTrip.of_row (op := 0x0C#6) (by simp [encode]) rfl (by simp [encode]) fun j hj => ?_
  rw [encode, getLsbD_formatR]
  interval_cases j <;> simp

theorem RoundTrip.w3Extract (rd : XReg) : RoundTrip.Statement (.w3Extract rd) := by
  refine RoundTrip.of_row (op := 0x0D#6) (by simp [encode]) rfl (by simp [encode]) fun j hj => ?_
  rw [encode, getLsbD_formatR]
  interval_cases j <;> simp

theorem RoundTrip.ctMaskb (rd rs1 : XReg) : RoundTrip.Statement (.ctMaskb rd rs1) := by
  refine RoundTrip.of_row (op := 0x10#6) (by simp [encode]) rfl (by simp [encode]) fun j hj => ?_
  rw [encode, getLsbD_formatR]
  interval_cases j <;> simp

theorem RoundTrip.ctMasknz (rd rs1 : XReg) : RoundTrip.Statement (.ctMasknz rd rs1) := by
  refine RoundTrip.of_row (op := 0x11#6) (by simp [encode]) rfl (by simp [encode]) fun j hj => ?_
  rw [encode, getLsbD_formatR]
  interval_cases j <;> simp

theorem RoundTrip.ctMaskz (rd rs1 : XReg) : RoundTrip.Statement (.ctMaskz rd rs1) := by
  refine RoundTrip.of_row (op := 0x12#6) (by simp [encode]) rfl (by simp [encode]) fun j hj => ?_
  rw [encode, getLsbD_formatR]
  interval_cases j <;> simp

theorem RoundTrip.ctMaskeq (rd rs1 rs2 : XReg) : RoundTrip.Statement (.ctMaskeq rd rs1 rs2) := by
  refine RoundTrip.of_row (op := 0x13#6) (by simp [encode]) rfl (by simp [encode]) fun j hj => ?_
  rw [encode, getLsbD_formatR]
  interval_cases j <;> simp

theorem RoundTrip.ctMasklt (rd rs1 rs2 : XReg) : RoundTrip.Statement (.ctMasklt rd rs1 rs2) := by
  refine RoundTrip.of_row (op := 0x14#6) (by simp [encode]) rfl (by simp [encode]) fun j hj => ?_
  rw [encode, getLsbD_formatR]
  interval_cases j <;> simp

theorem RoundTrip.ctSel (rd rs1 rs2 rs3 : XReg) : RoundTrip.Statement (.ctSel rd rs1 rs2 rs3) := by
  refine RoundTrip.of_row (op := 0x15#6) (by simp [encode]) rfl (by simp [encode]) fun j hj => ?_
  rw [encode, getLsbD_formatR]
  interval_cases j <;> simp

theorem RoundTrip.ctSelm (dr da db : DReg) (xr : XReg) : RoundTrip.Statement (.ctSelm dr da db xr) := by
  refine RoundTrip.of_row (op := 0x16#6) (by simp [encode]) rfl (by simp [encode]) fun j hj => ?_
  rw [encode, getLsbD_formatM]
  interval_cases j <;> simp

theorem RoundTrip.ctCmpltm (da db : DReg) (xr : XReg) : RoundTrip.Statement (.ctCmpltm da db xr) := by
  refine RoundTrip.of_row (op := 0x17#6) (by simp [encode]) rfl (by simp [encode]) fun j hj => ?_
  rw [encode, getLsbD_formatM]
  interval_cases j <;> simp

theorem RoundTrip.ctCmpeqm (da db : DReg) (xr : XReg) : RoundTrip.Statement (.ctCmpeqm da db xr) := by
  refine RoundTrip.of_row (op := 0x18#6) (by simp [encode]) rfl (by simp [encode]) fun j hj => ?_
  rw [encode, getLsbD_formatM]
  interval_cases j <;> simp

theorem RoundTrip.mpMul (dr da db : DReg) : RoundTrip.Statement (.mpMul dr da db) := by
  refine RoundTrip.of_row (op := 0x20#6) (by simp [encode]) rfl (by simp [encode]) fun j hj => ?_
  rw [encode, getLsbD_formatM]
  interval_cases j <;> simp

theorem RoundTrip.montPdash (rd rs1 : XReg) : RoundTrip.Statement (.montPdash rd rs1) := by
  refine RoundTrip.of_row (op := 0x21#6) (by simp [encode]) rfl (by simp [encode]) fun j hj => ?_
  rw [encode, getLsbD_formatR]
  interval_cases j <;> simp

theorem RoundTrip.montRedc (dr da db : DReg) (xr : XReg) : RoundTrip.Statement (.montRedc dr da db xr) := by
  refine RoundTrip.of_row (op := 0x22#6) (by simp [encode]) rfl (by simp [encode]) fun j hj => ?_
  rw [encode, getLsbD_formatM]
  interval_cases j <;> simp

theorem RoundTrip.barSetups (da : DReg) (ctx : CtxIx) : RoundTrip.Statement (.barSetups da ctx) := by
  refine RoundTrip.of_row (op := 0x28#6) (by simp [encode]) rfl (by simp [encode]) fun j hj => ?_
  rw [encode, getLsbD_formatM]
  interval_cases j <;> simp

theorem RoundTrip.barSetupp (da : DReg) (ctx : CtxIx) : RoundTrip.Statement (.barSetupp da ctx) := by
  refine RoundTrip.of_row (op := 0x29#6) (by simp [encode]) rfl (by simp [encode]) fun j hj => ?_
  rw [encode, getLsbD_formatM]
  interval_cases j <;> simp

theorem RoundTrip.barFree (ctx : CtxIx) : RoundTrip.Statement (.barFree ctx) := by
  refine RoundTrip.of_row (op := 0x2A#6) (by simp [encode]) rfl (by simp [encode]) fun j hj => ?_
  rw [encode, getLsbD_formatM]
  interval_cases j <;> simp

theorem RoundTrip.barRed (dr da : DReg) (ctx : CtxIx) : RoundTrip.Statement (.barRed dr da ctx) := by
  refine RoundTrip.of_row (op := 0x2B#6) (by simp [encode]) rfl (by simp [encode]) fun j hj => ?_
  rw [encode, getLsbD_formatM]
  interval_cases j <;> simp

theorem RoundTrip.barMul (dr da db : DReg) (ctx : CtxIx) : RoundTrip.Statement (.barMul dr da db ctx) := by
  refine RoundTrip.of_row (op := 0x2C#6) (by simp [encode]) rfl (by simp [encode]) fun j hj => ?_
  rw [encode, getLsbD_formatM]
  interval_cases j <;> simp

theorem RoundTrip.barSqr (dr da : DReg) (ctx : CtxIx) : RoundTrip.Statement (.barSqr dr da ctx) := by
  refine RoundTrip.of_row (op := 0x2D#6) (by simp [encode]) rfl (by simp [encode]) fun j hj => ?_
  rw [encode, getLsbD_formatM]
  interval_cases j <;> simp

theorem RoundTrip.barCube (dr da : DReg) (ctx : CtxIx) : RoundTrip.Statement (.barCube dr da ctx) := by
  refine RoundTrip.of_row (op := 0x2E#6) (by simp [encode]) rfl (by simp [encode]) fun j hj => ?_
  rw [encode, getLsbD_formatM]
  interval_cases j <;> simp

end Sys2Proof.Laws
end

