-- ==== Sys2Proof/Laws/Results.lean ====
section
/-! SUPPORT. What each way of completing leaves behind: for each shared update, its result and its frame after
the success effect. -/

namespace Sys2Proof.Machine

/-- The state after an update `u` of `s` and the success effect. -/
abbrev State.completed (u : State) : State := u.conclude u.status.success

theorem succeed_completed (u : State) : succeed u = .next u.completed := rfl

variable (s : State)

/-- `WriteResult` (R10). -/
theorem frame_writeResult (d : DReg) (v : Nat) :
    ResultIs d v s (s.writeResult d v).completed ∧ DescsWithResult d s (s.writeResult d v).completed ∧
    SameMemBut d s (s.writeResult d v).completed ∧ SameX s (s.writeResult d v).completed ∧
    StatusOk s (s.writeResult d v).completed ∧ SameHost s (s.writeResult d v).completed ∧
    SameAcc s (s.writeResult d v).completed ∧ SameCtx s (s.writeResult d v).completed := by
  refine ⟨fun j hj => ?_, fun e => by simp, fun a ha => ?_, fun _ => rfl, ⟨rfl, rfl, rfl⟩,
    ⟨rfl, rfl, rfl, rfl⟩, ⟨rfl, rfl, rfl⟩, fun _ => rfl⟩
  · rw [State.conclude_memWord, State.memWord_writeResult, if_pos (by omega), Nat.add_sub_cancel_left]
  · rw [State.conclude_memWord, State.memWord_writeResult, if_neg ha]

/-- A result that fits reads back whole, at whatever position it is read. -/
theorem val_of_resultIs {s t : State} {d : DReg} {v : Nat} (hr : ResultIs d v s t) (hd : DescsWithResult d s t)
    (hc : t.cfg = s.cfg) (hv : v < s.cfg.width.base ^ s.len d) (pos : Nat) : t.val d pos = v := by
  have : t.words d pos = wordsOfNat s.cfg.width (s.len d) v := by
    apply List.ext_getElem
    · simp [State.words, (hd d).2.1]
    · intro j h1 h2
      simp only [State.words, State.readWords_getElem]
      rw [wordsOfNat_length] at h2
      rw [(hd d).1, State.readWord_of_memWord (hr j h2), wordsOfNat_getElem]
  rw [State.val, this, hc, natOfWords_wordsOfNat, Nat.mod_eq_of_lt hv]

/-- `X[d] <- v`. -/
theorem frame_setX (d : XReg) (v : Nat) :
    (s.setX d v).completed.x d = v % s.cfg.width.base ∧ SameXBut d s (s.setX d v).completed ∧
    StatusOk s (s.setX d v).completed ∧ SameHost s (s.setX d v).completed ∧ SameAcc s (s.setX d v).completed ∧
    SameDescs s (s.setX d v).completed ∧ SameCtx s (s.setX d v).completed ∧ SameMem s (s.setX d v).completed :=
  ⟨by simp, fun _ hr => by simp [State.x_setX_of_ne _ hr], ⟨rfl, rfl, rfl⟩, ⟨rfl, rfl, rfl, rfl⟩,
    ⟨rfl, rfl, rfl⟩, fun _ => ⟨rfl, rfl, rfl⟩, fun _ => rfl, fun _ => rfl⟩

/-- `ACC <- v`. -/
theorem frame_setAcc (v : Nat) :
    (s.setAcc v).completed.acc = v % s.cfg.width.base ^ 3 ∧ StatusOk s (s.setAcc v).completed ∧
    SameHost s (s.setAcc v).completed ∧ SameX s (s.setAcc v).completed ∧ SameDescs s (s.setAcc v).completed ∧
    SameCtx s (s.setAcc v).completed ∧ SameMem s (s.setAcc v).completed :=
  ⟨by simp, ⟨rfl, rfl, rfl⟩, ⟨rfl, rfl, rfl, rfl⟩, fun _ => rfl, fun _ => ⟨rfl, rfl, rfl⟩, fun _ => rfl,
    fun _ => rfl⟩

/-- `BCTX[c] <- b`. -/
theorem frame_setCtx (c : CtxIx) (b : BarrettCtx) :
    (s.setCtx c b).completed.ctx c = b ∧ SameCtxBut c s (s.setCtx c b).completed ∧
    SameX s (s.setCtx c b).completed ∧ StatusOk s (s.setCtx c b).completed ∧
    SameHost s (s.setCtx c b).completed ∧ SameAcc s (s.setCtx c b).completed ∧
    SameDescs s (s.setCtx c b).completed ∧ SameMem s (s.setCtx c b).completed :=
  ⟨by simp [State.ctx_setCtx], fun k hk => by simp [State.ctx_setCtx, hk], fun _ => rfl, ⟨rfl, rfl, rfl⟩,
    ⟨rfl, rfl, rfl, rfl⟩, ⟨rfl, rfl, rfl⟩, fun _ => ⟨rfl, rfl, rfl⟩, fun _ => rfl⟩

end Sys2Proof.Machine
end

