-- ==== Sys2Proof/Laws/Steps.lean ====
section
/-! SUPPORT. What a step does for each kind of host action, and what each slot of R63 names. -/

namespace Sys2Proof.Machine

/-! ### Steps -/

theorem step_of_nil {s : State} (h : s.host = []) : step s = .next s := by simp [step, h]

theorem step_of_read {s : State} {slot : SlotAddr} {rest : List HostAction} (h : s.host = .read slot :: rest) :
    step s = .next (hostRead slot (s.withHost rest)) := by simp [step, h]

theorem step_of_cmd {s : State} {v : Word} {rest : List HostAction} (h : s.host = .write cmdSlot v :: rest) :
    step s = runCommand v (s.withHost rest) := by simp [step, h]

theorem step_of_write {s : State} {slot : SlotAddr} {v : Word} {rest : List HostAction}
    (h : s.host = .write slot v :: rest) (hs : slot ≠ cmdSlot) :
    step s = .next (hostWrite slot v (s.withHost rest)) := by simp [step, h, hs]

theorem step_of_reset {s : State} {rest : List HostAction} (h : s.host = .reset :: rest) :
    step s = .next (platformReset (s.withHost rest)) := by simp [step, h]

/-- A `CMD` write runs the command it decodes to, or raises its decode error (R100). -/
theorem runCommand_cases (v : Word) (s : State) :
    (∃ i, decode s.cfg.width v = .ok i ∧ runCommand v s = exec i s) ∨
      ∃ e, decode s.cfg.width v = .error e ∧ runCommand v s = raise (errOfDecode e) s := by
  unfold runCommand
  cases h : decode s.cfg.width v with
  | ok i => exact .inl ⟨i, rfl, rfl⟩
  | error e => exact .inr ⟨e, rfl, rfl⟩

/-- Everything a step can be. -/
theorem step_cases {s t : State} (h : step s = .next t) :
    (s.host = [] ∧ t = s) ∨
    (∃ slot rest, s.host = .read slot :: rest ∧ t = hostRead slot (s.withHost rest)) ∨
    (∃ v rest i, s.host = .write cmdSlot v :: rest ∧ decode s.cfg.width v = .ok i ∧
      exec i (s.withHost rest) = .next t) ∨
    (∃ v rest e, s.host = .write cmdSlot v :: rest ∧ decode s.cfg.width v = .error e ∧
      t = (s.withHost rest).conclude (Status.failure (errOfDecode e))) ∨
    (∃ slot v rest, s.host = .write slot v :: rest ∧ slot ≠ cmdSlot ∧
      t = hostWrite slot v (s.withHost rest)) ∨
    ∃ rest, s.host = .reset :: rest ∧ t = platformReset (s.withHost rest) := by
  cases hh : s.host with
  | nil => rw [step_of_nil hh] at h; exact .inl ⟨rfl, (Host.Outcome.next.inj h).symm⟩
  | cons a rest =>
    cases a with
    | read slot =>
      rw [step_of_read hh] at h
      exact .inr (.inl ⟨slot, rest, rfl, (Host.Outcome.next.inj h).symm⟩)
    | reset =>
      rw [step_of_reset hh] at h
      exact .inr (.inr (.inr (.inr (.inr ⟨rest, rfl, (Host.Outcome.next.inj h).symm⟩))))
    | write slot v =>
      by_cases hs : slot = cmdSlot
      · subst hs
        rw [step_of_cmd hh] at h
        rcases runCommand_cases v (s.withHost rest) with ⟨i, hd, hr⟩ | ⟨e, hd, hr⟩ <;> rw [hr] at h
        · exact .inr (.inr (.inl ⟨v, rest, i, rfl, hd, h⟩))
        · exact .inr (.inr (.inr (.inl ⟨v, rest, e, rfl, hd, (Host.Outcome.next.inj h).symm⟩)))
      · rw [step_of_write hh hs] at h
        exact .inr (.inr (.inr (.inr (.inl ⟨slot, v, rest, rfl, hs, (Host.Outcome.next.inj h).symm⟩))))

/-! ### The slot map -/

variable {cfg : Config} {slot : SlotAddr}

theorem portOf_x {r : XReg} (h : slot.toNat = 0x10 + r.val) : portOf cfg slot = .x r := by
  have := r.isLt
  simp only [portOf]
  rw [if_neg (by omega), if_neg (by omega), if_neg (by omega), if_neg (by omega), if_neg (by omega),
    if_neg (by omega), dif_pos (by omega)]
  congr 1; ext; simp; omega

theorem portOf_dbase {d : DReg} (h : slot.toNat = 0x20 + 2 * d.val) : portOf cfg slot = .dbase d := by
  have := d.isLt
  simp only [portOf]
  rw [if_neg (by omega), if_neg (by omega), if_neg (by omega), if_neg (by omega), if_neg (by omega),
    if_neg (by omega), dif_neg (by omega), dif_pos (by omega), if_pos (by omega)]
  congr 1; ext; simp; omega

theorem portOf_dlen {d : DReg} (h : slot.toNat = 0x21 + 2 * d.val) : portOf cfg slot = .dlen d := by
  have := d.isLt
  simp only [portOf]
  rw [if_neg (by omega), if_neg (by omega), if_neg (by omega), if_neg (by omega), if_neg (by omega),
    if_neg (by omega), dif_neg (by omega), dif_pos (by omega), if_neg (by omega)]
  congr 1; ext; simp; omega

theorem portOf_acc {j : Fin 3} (h : slot.toNat = 0x30 + j.val) : portOf cfg slot = .acc j := by
  have := j.isLt
  simp only [portOf]
  rw [if_neg (by omega), if_neg (by omega), if_neg (by omega), if_neg (by omega), if_neg (by omega),
    if_neg (by omega), dif_neg (by omega), dif_neg (by omega), dif_pos (by omega)]
  congr 1; ext; simp; omega

theorem portOf_bctxinfo {c : CtxIx} (hc : c.val < cfg.nctx) (h : slot.toNat = 0x40 + c.val) :
    portOf cfg slot = .bctxinfo c := by
  have := c.isLt
  simp only [portOf]
  rw [if_neg (by omega), if_neg (by omega), if_neg (by omega), if_neg (by omega), if_neg (by omega),
    if_neg (by omega), dif_neg (by omega), dif_neg (by omega), dif_neg (by omega), if_neg (by omega),
    dif_pos (by omega), if_pos (by omega)]
  congr 1; ext; simp; omega

theorem portOf_opmem {a : Nat} (ha : a < cfg.memWords) (h : slot.toNat = 0x10000 + a) :
    portOf cfg slot = .opmem a := by
  simp only [portOf]
  rw [if_neg (by omega), if_neg (by omega), if_neg (by omega), if_neg (by omega), if_neg (by omega),
    if_neg (by omega), dif_neg (by omega), dif_neg (by omega), dif_neg (by omega), if_neg (by omega),
    dif_neg (by omega), if_neg (by omega), if_pos (by omega)]
  rw [show slot.toNat - 0x10000 = a by omega]

theorem portOf_reserved (h : SlotReserved cfg slot) : portOf cfg slot = .reserved := by
  have := cfg.legal
  simp only [portOf]
  rcases h with h | h | h | h
  · rw [if_neg (by omega), if_neg (by omega), if_neg (by omega), if_neg (by omega), if_neg (by omega),
      if_pos (by omega)]
  · rw [if_neg (by omega), if_neg (by omega), if_neg (by omega), if_neg (by omega), if_neg (by omega),
      if_neg (by omega), dif_neg (by omega), dif_neg (by omega), dif_neg (by omega), if_pos (by omega)]
  · rw [if_neg (by omega), if_neg (by omega), if_neg (by omega), if_neg (by omega), if_neg (by omega),
      if_neg (by omega), dif_neg (by omega), dif_neg (by omega), dif_neg (by omega), if_neg (by omega)]
    by_cases h8 : slot.toNat - 0x40 < 8
    · rw [dif_pos h8, if_neg (by omega)]
    · rw [dif_neg h8, if_pos (by omega)]
  · rw [if_neg (by omega), if_neg (by omega), if_neg (by omega), if_neg (by omega), if_neg (by omega),
      if_neg (by omega), dif_neg (by omega), dif_neg (by omega), dif_neg (by omega), if_neg (by omega),
      dif_neg (by omega), if_neg (by omega), if_neg (by omega)]

/-- A host write of a read-only slot leaves the state (R65). -/
theorem setPort_of_readOnly (s : State) (v : Nat) (h : SlotReadOnly cfg slot) :
    s.setPort v (portOf cfg slot) = s := by
  have hl := cfg.legal
  rcases h with h | h
  · have h4 : slot.toNat = 0 ∨ slot.toNat = 1 ∨ slot.toNat = 2 ∨ slot.toNat = 3 := by omega
    unfold portOf
    rcases h4 with h | h | h | h <;> rw [h] <;> rfl
  · rw [portOf_bctxinfo (c := ⟨slot.toNat - 0x40, by omega⟩) (by simp; omega) (by simp; omega)]; rfl

end Sys2Proof.Machine
end

