-- ==== Sys2Proof/Laws/Trace.lean ====
section
/-! SUPPORT. What a trace of `Machine/Trace.lean` can hold (R363). -/

namespace Sys2Proof.Machine

theorem mem_sweep {dir : AccessDir} {x : OpmemAccess} :
    ∀ {n a : Nat}, x ∈ sweep dir a n ↔ x.dir = dir ∧ a ≤ x.addr ∧ x.addr < a + n
  | 0, a => by simp [sweep]
  | n + 1, a => by
    obtain ⟨d, b⟩ := x
    simp only [sweep, List.mem_cons, OpmemAccess.mk.injEq, mem_sweep (n := n)]
    constructor
    · rintro (⟨rfl, rfl⟩ | ⟨rfl, h1, h2⟩) <;> refine ⟨rfl, ?_, ?_⟩ <;> omega
    · rintro ⟨rfl, h1, h2⟩
      rcases Nat.eq_or_lt_of_le h1 with h | h
      · exact .inl ⟨rfl, h.symm⟩
      · exact .inr ⟨rfl, h, by omega⟩

/-- The four errors raised before operand data is read (R72, R304). -/
theorem mayHaveRead_detail (e : Err) : mayHaveRead e.detail = true ↔
    e ≠ .ctxIndex ∧ e ≠ .ctxInuse ∧ e ≠ .ctxUninit ∧ e ≠ .descBounds := by cases e <;> decide

theorem mem_completedWrites {i : Instr} {s : State} {x : OpmemAccess} :
    x ∈ completedWrites i s ↔
      x.dir = .write ∧ ∃ d, resultDesc i = some d ∧ s.base d ≤ x.addr ∧ x.addr < s.base d + s.len d := by
  unfold completedWrites State.writeSweep
  cases resultDesc i with
  | none => simp
  | some d => simp [mem_sweep]

theorem mem_readSweeps {i : Instr} {s : State} {x : OpmemAccess} :
    x ∈ (inputDescs i).flatMap s.readSweep ↔
      x.dir = .read ∧ ∃ d ∈ inputDescs i, s.base d ≤ x.addr ∧ x.addr < s.base d + s.len d := by
  simp only [List.mem_flatMap, State.readSweep, mem_sweep]
  exact ⟨fun ⟨d, h, hr, ha⟩ => ⟨hr, d, h, ha⟩, fun ⟨hr, d, h, ha⟩ => ⟨d, h, hr, ha⟩⟩

/-- A command that fails may have read words of its inputs only (R71). -/
theorem mem_possibleReads {i : Instr} {s : State} {x : OpmemAccess} (h : x ∈ possibleReads i s) :
    x.dir = .read ∧ ∃ d ∈ inputDescs i, s.base d ≤ x.addr ∧ x.addr < s.base d + s.len d := by
  cases i with
  | montRedc dr da db xr =>
    rcases List.mem_append.mp h with h | h
    · obtain ⟨hr, h1, h2⟩ := mem_sweep.mp h
      exact ⟨hr, da, by simp [inputDescs], h1, by omega⟩
    · obtain ⟨hr, h2⟩ := mem_sweep.mp h
      exact ⟨hr, db, by simp [inputDescs], h2⟩
  | _ => exact mem_readSweeps.mp h

/-- The reads a failed command may have made depend on public inputs only (R362). -/
theorem possibleReads_congr {i : Instr} {s t : State} (h : samePublic i s t) :
    possibleReads i s = possibleReads i t := by
  obtain ⟨-, h⟩ := h
  cases i <;> simp_all [possibleReads, publicInputs, resultDesc, inputDescs, State.readSweep]

/-- A failed command's trace depends on its public inputs and its detail code only (R362). -/
theorem failedTrace_congr {i : Instr} {s t : State} (h : samePublic i s t) (detail : BitVec 8) :
    failedTrace i s detail = failedTrace i t detail := by
  simp only [failedTrace, possibleReads_congr h, h.1, h.2]

/-- A failed command's trace is part of the reads it may have made, and empty where it fails before them. -/
theorem mem_failedTrace {i : Instr} {s : State} {detail : BitVec 8} {x : OpmemAccess}
    (h : x ∈ failedTrace i s detail) : mayHaveRead detail = true ∧ x ∈ possibleReads i s := by
  unfold failedTrace at h
  split at h
  · obtain ⟨⟨y, k⟩, hy, rfl⟩ := List.mem_map.mp h
    have hm := List.mem_zipIdx (List.mem_filter.mp hy).1
    exact ⟨‹_›, hm.2.2 ▸ List.getElem_mem _⟩
  · simp at h

theorem errorDetail_next {i : Instr} {s t : State} (h : exec i s = .next t) :
    errorDetail i s = if t.status.code = 0#4 then none else some t.status.detail := by
  simp [errorDetail, h]

/-- The trace of a command that completes. -/
theorem opmemTrace_completed {i : Instr} {s t : State} (h : exec i s = .next t)
    (hc : t.status.code = 0#4) : opmemTrace i s = completedTrace i s := by
  simp [opmemTrace, errorDetail_next h, hc]

/-- The trace of a command that ends in error. -/
theorem opmemTrace_failed {i : Instr} {s t : State} (h : exec i s = .next t)
    (hc : t.status.code ≠ 0#4) : opmemTrace i s = some (failedTrace i s t.status.detail) := by
  simp [opmemTrace, errorDetail_next h, hc]

end Sys2Proof.Machine
end

