-- ==== Sys2Proof/Machine/Program.lean ====
section
/-! DEFINITION. The written forms of commands and programs: the assembler syntax of R102 and R103, the
pseudo-instruction of R104 and the program notation of R105. A command reaches the engine only as a
word; nothing here takes part in a step. -/

namespace Sys2Proof.Machine

/-! ### Assembler syntax -/

/-- The mnemonic of a command (R96), in capitals (R102). -/
def mnemonic : Instr → String
  | .nop => "NOP"
  | .clrerr => "CLRERR"
  | .w3Clr => "W3.CLR"
  | .w3Add .. => "W3.ADD"
  | .w3Mul .. => "W3.MUL"
  | .w3Mstep .. => "W3.MSTEP"
  | .w3Mstepx .. => "W3.MSTEPX"
  | .w3Extract .. => "W3.EXTRACT"
  | .ctMaskb .. => "CT.MASKB"
  | .ctMasknz .. => "CT.MASKNZ"
  | .ctMaskz .. => "CT.MASKZ"
  | .ctMaskeq .. => "CT.MASKEQ"
  | .ctMasklt .. => "CT.MASKLT"
  | .ctSel .. => "CT.SEL"
  | .ctSelm .. => "CT.SELM"
  | .ctCmpltm .. => "CT.CMPLTM"
  | .ctCmpeqm .. => "CT.CMPEQM"
  | .mpMul .. => "MP.MUL"
  | .montPdash .. => "MONT.PDASH"
  | .montRedc .. => "MONT.REDC"
  | .barSetups .. => "BAR.SETUPS"
  | .barSetupp .. => "BAR.SETUPP"
  | .barFree .. => "BAR.FREE"
  | .barRed .. => "BAR.RED"
  | .barMul .. => "BAR.MUL"
  | .barSqr .. => "BAR.SQR"
  | .barCube .. => "BAR.CUBE"

/-- `x0` to `x15` (R102). -/
def xName (i : XReg) : String := "x" ++ toString i.val

/-- `d0` to `d7` (R102). -/
def dName (i : DReg) : String := "d" ++ toString i.val

/-- `c0` to `c7` (R102). -/
def cName (i : CtxIx) : String := "c" ++ toString i.val

/-- The operands in the order of R103: destination first, and a Barrett command's slot first of all. -/
def operandNames : Instr → List String
  | .nop | .clrerr | .w3Clr => []
  | .w3Add rs1 => [xName rs1]
  | .w3Mul rs1 rs2 => [xName rs1, xName rs2]
  | .w3Mstep rd rs1 rs2 | .w3Mstepx rd rs1 rs2 => [xName rd, xName rs1, xName rs2]
  | .w3Extract rd => [xName rd]
  | .ctMaskb rd rs1 | .ctMasknz rd rs1 | .ctMaskz rd rs1 | .montPdash rd rs1 => [xName rd, xName rs1]
  | .ctMaskeq rd rs1 rs2 | .ctMasklt rd rs1 rs2 => [xName rd, xName rs1, xName rs2]
  | .ctSel rd rs1 rs2 rs3 => [xName rd, xName rs1, xName rs2, xName rs3]
  | .ctSelm dr da db xr | .montRedc dr da db xr => [dName dr, dName da, dName db, xName xr]
  | .ctCmpltm da db xr | .ctCmpeqm da db xr => [xName xr, dName da, dName db]
  | .mpMul dr da db => [dName dr, dName da, dName db]
  | .barSetups da ctx | .barSetupp da ctx => [cName ctx, dName da]
  | .barFree ctx => [cName ctx]
  | .barRed dr da ctx | .barSqr dr da ctx | .barCube dr da ctx => [cName ctx, dName dr, dName da]
  | .barMul dr da db ctx => [cName ctx, dName dr, dName da, dName db]

/-- A command in assembler syntax (R102, R103). -/
def assembly (i : Instr) : String :=
  match operandNames i with
  | [] => mnemonic i
  | ops => mnemonic i ++ " " ++ String.intercalate ", " ops

/-! ### Program notation -/

/-- `CMD <assembly>`: the command's word written to `CMD` (R105). -/
def progCmd (i : Instr) : List HostAction := [.write cmdSlot (commandValue i)]

/-- `WR s, v` (R105). -/
def progWr (slot : SlotAddr) (v : Word) : List HostAction := [.write slot v]

/-- `RD s` (R105). -/
def progRd (slot : SlotAddr) : List HostAction := [.read slot]

/-- `SETD i, base, len, neg`: `DBASE[i]`, then `DLEN[i]` with `len | neg << (W-1)` (R105). -/
def progSetd (w : Width) (i : DReg) (base len : Nat) (neg : Bool) : List HostAction :=
  progWr (BitVec.ofNat 17 (0x20 + 2 * i.val)) (w.cell base) ++
    progWr (BitVec.ofNat 17 (0x21 + 2 * i.val)) (w.cell (len ||| (if neg then 2 ^ (w.bits - 1) else 0)))

/-- `WRM a: v0 v1 ...` (R105). DESIGN CHOICE: past slot `0x1FFFF` the slot number is taken modulo `2^17`, where
the spec has no slot (R62; assumption 22). -/
def progWrm (a : Nat) : List Word → List HostAction
  | [] => []
  | v :: vs => progWr (BitVec.ofNat 17 (0x10000 + a)) v ++ progWrm (a + 1) vs

/-- `RDM a` for `n` words (R105). DESIGN CHOICE: past slot `0x1FFFF` the slot number is taken modulo `2^17`, as
in `progWrm` (assumption 22). -/
def progRdm (a : Nat) : Nat → List HostAction
  | 0 => []
  | n + 1 => progRd (BitVec.ofNat 17 (0x10000 + a)) ++ progRdm (a + 1) n

/-- `MONT.MULR`: its two commands one after the other; the second runs whatever the first did (R104). -/
def progMulr (p : Mulr) : List HostAction := p.expand.flatMap progCmd

end Sys2Proof.Machine
end

