-- ==== Sys2Proof/WellFormed.lean ====
section
/-! DEFINITION. What makes a term of the syntax meaningful: the legal parameters of R6, and host
actions that move one `W`-bit value (R62). A command needs no check: each operand of `Instr` has an
index type with exactly the values its field can spell (assumption 19). -/

namespace Sys2Proof

/-- Parameters as plain numbers, before the check of R6. -/
structure Params where
  w : Nat
  memWords : Nat
  nmax : Nat
  nctx : Nat
deriving DecidableEq, Repr

/-- `W` must be 32 or 64 (R6). -/
def Width.ofBits : Nat → Option Width
  | 32 => some .w32
  | 64 => some .w64
  | _ => none

/-- The legal values of R6. -/
def Params.wellFormed (p : Params) : Bool :=
  (p.w == 32 || p.w == 64) && (decide (1 ≤ p.memWords) && decide (p.memWords ≤ 65536)) &&
    (decide (1 ≤ p.nmax) && decide (p.nmax ≤ 65535)) && (decide (1 ≤ p.nctx) && decide (p.nctx ≤ 8))

/-- The engine instance with these parameters; `none` refuses a configuration outside the legal
range (R6). -/
def Config.ofParams (p : Params) : Option Config :=
  if h : 1 ≤ p.memWords ∧ p.memWords ≤ 65536 ∧ 1 ≤ p.nmax ∧ p.nmax ≤ 65535 ∧ 1 ≤ p.nctx ∧ p.nctx ≤ 8 then
    (Width.ofBits p.w).map fun w => ⟨w, p.memWords, p.nmax, p.nctx, h⟩
  else none

/-- A host access moves one `W`-bit value (R62), so a written value must fit `W` bits. -/
def HostAction.wellFormed (w : Width) : HostAction → Bool
  | .read _ => true
  | .write _ v => decide (v.toNat < w.base)
  | .reset => true

/-- A program is a list of host actions (R105). -/
def programWellFormed (w : Width) (p : List HostAction) : Bool := p.all (·.wellFormed w)

end Sys2Proof
end

