-- ==== Sys2Proof/Tests/Slice0.lean ====
section
/-! SUPPORT. The model's own tests. Expected values come from the spec: the example of the rule named in a
test, the tables of R63, R96 and R302, or hand calculation from them. A `witness_` theorem shows a concrete
state and operands that meet the hypotheses of the statement it is named after. -/

namespace Sys2Proof.Tests

open Sys2Proof Sys2Proof.Machine

/-! ### Helpers -/

def withXs : Nat → List Nat → State → State
  | _, [], s => s
  | i, v :: vs, s => withXs (i + 1) vs (if h : i < 16 then s.setX ⟨i, h⟩ v else s)

def withDs : Nat → List (Nat × Nat × Bool) → State → State
  | _, [], s => s
  | i, (base, len, neg) :: ds, s =>
    withDs (i + 1) ds
      (if h : i < 8 then
        (s.setBase ⟨i, h⟩ base).setLenNeg ⟨i, h⟩ (len + if neg then 2 ^ (s.cfg.width.bits - 1) else 0)
       else s)

/-- Just after reset, with words in `X0`, `X1`, ..., descriptors in `D0`, `D1`, ... as `BASE`, `LEN`, `NEG`, and
words in OPMEM from address 0 up. -/
def build (cfg : Config) (xs : List Nat) (ds : List (Nat × Nat × Bool)) (mem : List Nat) : State :=
  (withDs 0 ds (withXs 0 xs (State.resetWith cfg [] [] 0))).writeWords 0 mem

/-- `build` with `W = 32`, `MEM_WORDS = 64`, `NMAX = 8`, `NCTX = 4`. -/
def b32 (xs : List Nat) (ds : List (Nat × Nat × Bool)) (mem : List Nat) : State :=
  build Config.example32 xs ds mem

/-- What `f` reads from the next state. -/
def after {α : Type} (r : Result) (f : State → α) : Option α :=
  match r with
  | .next t => some (f t)
  | .fault _ => none
  | .refused _ => none

/-- The class and detail a command records. -/
def outcome (r : Result) : Option (Nat × Nat) := after r fun t => (t.status.code.toNat, t.status.detail.toNat)

/-- The next state, and `s` where there is none. -/
def nextOr (s : State) : Result → State
  | .next t => t
  | .fault _ => s
  | .refused _ => s

/-- `ACC` as the three words `A0`, `A1`, `A2`. -/
def accWords (t : State) : List Nat := [t.accWord 0, t.accWord 1, t.accWord 2]

def withAcc (ws : List Nat) (s : State) : State :=
  ((s.setAccWord 0 (ws.getD 0 0)).setAccWord 1 (ws.getD 1 0)).setAccWord 2 (ws.getD 2 0)

/-- Words `a`, ..., `a + n - 1` of OPMEM, none where nothing was written. -/
def memAt (a : Nat) : Nat → State → List (Option Nat)
  | 0, _ => []
  | n + 1, t => t.memWord a :: memAt (a + 1) n t

/-- The place of the first condition of the list that holds. -/
def firstTrue : List Bool → Option Nat
  | [] => none
  | b :: bs => if b then some 0 else (firstTrue bs).map (· + 1)

/-! ### Well-formedness: each check refuses an ill-formed term -/

theorem test_params_ok : Params.wellFormed ⟨32, 64, 8, 4⟩ = true ∧ Params.wellFormed ⟨64, 65536, 65535, 8⟩ = true ∧
    Params.wellFormed ⟨32, 1, 1, 1⟩ = true := by decide

theorem test_params_width_refused : Params.wellFormed ⟨16, 64, 8, 4⟩ = false ∧
    Config.ofParams ⟨16, 64, 8, 4⟩ = none := by decide

theorem test_params_memWords_refused : Params.wellFormed ⟨32, 0, 8, 4⟩ = false ∧
    Params.wellFormed ⟨32, 65537, 8, 4⟩ = false ∧ Config.ofParams ⟨32, 65537, 8, 4⟩ = none := by decide

theorem test_params_nmax_refused : Params.wellFormed ⟨32, 64, 0, 4⟩ = false ∧
    Params.wellFormed ⟨32, 64, 65536, 4⟩ = false ∧ Config.ofParams ⟨32, 64, 0, 4⟩ = none := by decide

theorem test_params_nctx_refused : Params.wellFormed ⟨32, 64, 8, 0⟩ = false ∧
    Params.wellFormed ⟨32, 64, 8, 9⟩ = false ∧ Config.ofParams ⟨32, 64, 8, 9⟩ = none := by decide

theorem test_params_accepted : Config.ofParams ⟨32, 64, 8, 4⟩ = some Config.example32 ∧
    Config.ofParams ⟨64, 64, 8, 4⟩ = some Config.example64 := by decide

theorem test_action_too_wide_refused : HostAction.wellFormed .w32 (.write 0x10#17 0x100000000#64) = false ∧
    HostAction.wellFormed .w32 (.write 0x10#17 0xFFFFFFFF#64) = true ∧
    HostAction.wellFormed .w64 (.write 0x10#17 0xFFFFFFFFFFFFFFFF#64) = true := by decide

theorem test_program_refused :
    programWellFormed .w32 [.read 0x3#17, .write 0x10#17 0x100000000#64, .reset] = false ∧
    programWellFormed .w32 [.read 0x3#17, .write 0x10#17 1#64, .reset] = true := by decide

/-! ### Decoding: each command's word, field by field (R92 to R96) -/

theorem test_decode_control :
    decodeWord (0b000000#6 ++ 0#26) = .ok .nop ∧ decodeWord (0b000001#6 ++ 0#26) = .ok .clrerr := by decide

theorem test_decode_word3 :
    decodeWord (0b001000#6 ++ 0#26) = .ok .w3Clr ∧
    decodeWord (0b001001#6 ++ 0#4 ++ 0b0101#4 ++ 0#4 ++ 0#4 ++ 0#10) = .ok (.w3Add 5) ∧
    decodeWord (0b001010#6 ++ 0#4 ++ 0b0001#4 ++ 0b1110#4 ++ 0#4 ++ 0#10) = .ok (.w3Mul 1 14) ∧
    decodeWord (0b001011#6 ++ 0b0011#4 ++ 0b0001#4 ++ 0b0010#4 ++ 0#4 ++ 0#10) = .ok (.w3Mstep 3 1 2) ∧
    decodeWord (0b001100#6 ++ 0b1111#4 ++ 0b1000#4 ++ 0b0111#4 ++ 0#4 ++ 0#10) = .ok (.w3Mstepx 15 8 7) ∧
    decodeWord (0b001101#6 ++ 0b0100#4 ++ 0#4 ++ 0#4 ++ 0#4 ++ 0#10) = .ok (.w3Extract 4) := by decide

theorem test_decode_masks :
    decodeWord (0b010000#6 ++ 0b0010#4 ++ 0b0001#4 ++ 0#4 ++ 0#4 ++ 0#10) = .ok (.ctMaskb 2 1) ∧
    decodeWord (0b010001#6 ++ 0b1010#4 ++ 0b0110#4 ++ 0#4 ++ 0#4 ++ 0#10) = .ok (.ctMasknz 10 6) ∧
    decodeWord (0b010010#6 ++ 0b0010#4 ++ 0b1001#4 ++ 0#4 ++ 0#4 ++ 0#10) = .ok (.ctMaskz 2 9) ∧
    decodeWord (0b010011#6 ++ 0b0011#4 ++ 0b0001#4 ++ 0b0010#4 ++ 0#4 ++ 0#10) = .ok (.ctMaskeq 3 1 2) ∧
    decodeWord (0b010100#6 ++ 0b1011#4 ++ 0b1100#4 ++ 0b1101#4 ++ 0#4 ++ 0#10) = .ok (.ctMasklt 11 12 13) ∧
    decodeWord (0b010101#6 ++ 0b0100#4 ++ 0b0001#4 ++ 0b0010#4 ++ 0b0011#4 ++ 0#10) = .ok (.ctSel 4 1 2 3) := by
  decide

theorem test_decode_arrays :
    decodeWord (0b010110#6 ++ 0b010#3 ++ 0b000#3 ++ 0b001#3 ++ 0b0101#4 ++ 0#3 ++ 0#10) = .ok (.ctSelm 2 0 1 5) ∧
    decodeWord (0b010111#6 ++ 0#3 ++ 0b100#3 ++ 0b101#3 ++ 0b0110#4 ++ 0#3 ++ 0#10) = .ok (.ctCmpltm 4 5 6) ∧
    decodeWord (0b011000#6 ++ 0#3 ++ 0b110#3 ++ 0b011#3 ++ 0b1001#4 ++ 0#3 ++ 0#10) = .ok (.ctCmpeqm 6 3 9) := by
  decide

theorem test_decode_montgomery :
    decodeWord (0b100000#6 ++ 0b010#3 ++ 0b000#3 ++ 0b001#3 ++ 0#4 ++ 0#3 ++ 0#10) = .ok (.mpMul 2 0 1) ∧
    decodeWord (0b100001#6 ++ 0b0001#4 ++ 0b0000#4 ++ 0#4 ++ 0#4 ++ 0#10) = .ok (.montPdash 1 0) ∧
    decodeWord (0b100010#6 ++ 0b010#3 ++ 0b000#3 ++ 0b001#3 ++ 0b0011#4 ++ 0#3 ++ 0#10) =
      .ok (.montRedc 2 0 1 3) := by decide

theorem test_decode_barrett :
    decodeWord (0b101000#6 ++ 0#3 ++ 0b110#3 ++ 0#3 ++ 0#4 ++ 0b011#3 ++ 0#10) = .ok (.barSetups 6 3) ∧
    decodeWord (0b101001#6 ++ 0#3 ++ 0b000#3 ++ 0#3 ++ 0#4 ++ 0b001#3 ++ 0#10) = .ok (.barSetupp 0 1) ∧
    decodeWord (0b101010#6 ++ 0#3 ++ 0#3 ++ 0#3 ++ 0#4 ++ 0b111#3 ++ 0#10) = .ok (.barFree 7) ∧
    decodeWord (0b101011#6 ++ 0b010#3 ++ 0b001#3 ++ 0#3 ++ 0#4 ++ 0b100#3 ++ 0#10) = .ok (.barRed 2 1 4) ∧
    decodeWord (0b101100#6 ++ 0b010#3 ++ 0b001#3 ++ 0b011#3 ++ 0#4 ++ 0b000#3 ++ 0#10) = .ok (.barMul 2 1 3 0) ∧
    decodeWord (0b101101#6 ++ 0b111#3 ++ 0b110#3 ++ 0#3 ++ 0#4 ++ 0b101#3 ++ 0#10) = .ok (.barSqr 7 6 5) ∧
    decodeWord (0b101110#6 ++ 0b010#3 ++ 0b001#3 ++ 0#3 ++ 0#4 ++ 0b010#3 ++ 0#10) = .ok (.barCube 2 1 2) := by
  decide

/-- Reserved bits and undefined opcodes, at both ends of each undefined range (R97, R98). -/
theorem test_decode_refuses :
    decodeWord 0x00000001#32 = .error .reservedField ∧ decodeWord 0x24400000#32 = .error .reservedField ∧
    decodeWord 0x80002000#32 = .error .reservedField ∧ decodeWord 0xA8000001#32 = .error .reservedField ∧
    decodeWord (0b000010#6 ++ 1#26) = .error .undefOpcode ∧ decodeWord (0b000111#6 ++ 0#26) = .error .undefOpcode ∧
    decodeWord (0b001110#6 ++ 0#26) = .error .undefOpcode ∧ decodeWord (0b111111#6 ++ 1#26) = .error .undefOpcode := by
  decide

/-- The upper half of `CMD` with `W = 64` (R90): checked first, and not carried with `W = 32`. -/
theorem test_decode_upper_half :
    decode .w64 0x100000000#64 = .error .reservedField ∧ decode .w64 0x8000000008000000#64 = .error .reservedField ∧
    decode .w64 0x04000000#64 = .ok .clrerr ∧ decode .w32 0x100000000#64 = .ok .nop := by decide

theorem test_table_word : decodeTableWord 32 0x89026000 = some (.montRedc 2 0 1 3) ∧
    decodeTableWord 32 0x08000000 = none := by decide

/-! ### Assembler syntax and program notation (R102 to R105) -/

/-- The example of R103, and a Barrett command with its slot first. -/
theorem test_assembly : assembly (.montRedc 2 0 1 3) = "MONT.REDC d2, d0, d1, x3" ∧
    assembly (.barMul 2 1 3 0) = "BAR.MUL c0, d2, d1, d3" ∧ assembly .nop = "NOP" := by decide

/-- `SETD 1, 2, 3, 1`, `SETD 1, 2, 80000000, 1`, whose `LEN` word is `len | neg << (W-1)`, and `MONT.MULR d5, d0, d1, d2, x3, d4`. -/
theorem test_program_notation :
    progSetd .w32 1 2 3 true = [.write 0x22#17 2#64, .write 0x23#17 0x80000003#64] ∧
    progSetd .w32 1 2 0x80000000 true = [.write 0x22#17 2#64, .write 0x23#17 0x80000000#64] ∧
    progMulr ⟨5, 0, 1, 2, 3, 4⟩ =
      [.write 0x4#17 (commandValue (.mpMul 4 0 1)), .write 0x4#17 (commandValue (.montRedc 5 4 2 3))] := by decide

/-! ### Steps and slots -/

/-- `NOP` with a reserved bit, as the first instruction after reset: R280's `ILLEGAL_COMMAND`. -/
theorem test_fetch_word_runs : after (step (State.reset.withFetchWord 32 0x00000001)) (fun t => t.status.word) =
    some 0x80000023 := by decide

/-- The identification slots with `W = 32`, `NCTX = 4`, `NMAX = 8`, `MEM_WORDS = 64` (R33, R34). -/
theorem test_identification : State.reset.portValue (portOf Config.example32 0#17) = 0x4D524544 ∧
    State.reset.portValue (portOf Config.example32 1#17) = 0x00080420 ∧
    State.reset.portValue (portOf Config.example32 2#17) = 64 := by decide

/-- The ends of each row of the slot map (R63). -/
theorem test_slot_map :
    portOf Config.example32 0x1F#17 = .x 15 ∧ portOf Config.example32 0x20#17 = .dbase 0 ∧
    portOf Config.example32 0x2F#17 = .dlen 7 ∧ portOf Config.example32 0x30#17 = .acc 0 ∧
    portOf Config.example32 0x33#17 = .reserved ∧ portOf Config.example32 0x43#17 = .bctxinfo 3 ∧
    portOf Config.example32 0x44#17 = .reserved ∧ portOf Config.example32 0x0FFFF#17 = .reserved ∧
    portOf Config.example32 0x10000#17 = .opmem 0 ∧ portOf Config.example32 0x1003F#17 = .opmem 63 ∧
    portOf Config.example32 0x10040#17 = .reserved := by decide +kernel

/-- `DLEN` carries `LEN` and `NEG` together (R25). -/
theorem test_write_dlen :
    after (step { State.reset with host := [.write 0x23#17 0x80000005#64] })
      (fun t => (t.len 1, t.neg 1, t.lenNeg 1)) = some (5, true, 0x80000005) := by decide +kernel

/-! ### Commands: the examples of the rules -/

/-- `STATUS = 0x80000161` becomes `0x80000000` after `NOP` (R280) and 0 after `CLRERR` (R281). -/
theorem test_nop_clrerr :
    let s := { State.reset with status := ⟨1#4, 0x16#8, true⟩ }
    s.status.word = 0x80000161 ∧ after (exec .nop s) (fun t => t.status.word) = some 0x80000000 ∧
      after (exec .clrerr s) (fun t => t.status.word) = some 0 := by decide

theorem test_w3_clr : after (exec .w3Clr (withAcc [7, 6, 5] State.reset)) accWords = some [0, 0, 0] := by decide

theorem test_w3_add :
    after (exec (.w3Add 5) (withAcc [0xFFFFFFFF, 0xFFFFFFFF, 0] (b32 [0, 0, 0, 0, 0, 1] [] []))) accWords =
      some [0, 0, 1] ∧
    after (exec (.w3Add 5) (withAcc [0xFFFFFFFF, 0xFFFFFFFF, 0xFFFFFFFF] (b32 [0, 0, 0, 0, 0, 1] [] []))) accWords =
      some [0, 0, 0] := by decide

theorem test_w3_mul :
    after (exec (.w3Mul 1 2) (b32 [0, 0xFFFFFFFF, 0xFFFFFFFF] [] [])) accWords = some [1, 0xFFFFFFFE, 0] ∧
    after (exec (.w3Mul 1 2) (withAcc [0xFFFFFFFF, 0xFFFFFFFF, 0xFFFFFFFF] (b32 [0, 0xFFFFFFFF, 0xFFFFFFFF] [] [])))
      accWords = some [0, 0xFFFFFFFE, 0] := by decide

theorem test_w3_mstep :
    after (exec (.w3Mstep 3 1 2) (withAcc [7, 0, 0] (b32 [0, 0xFFFFFFFB, 0xCCCCCCCD] [] [])))
      (fun t => (t.x 3, accWords t)) = some (0x9999999B, [0, 0x99999998, 0]) := by decide

/-- The destination is also the source `p0`. -/
theorem test_w3_mstepx :
    after (exec (.w3Mstepx 1 1 2) (withAcc [7, 0, 0] (b32 [0, 0xFFFFFFFB, 0xCCCCCCCD] [] [])))
      (fun t => (t.x 1, accWords t)) = some (0x9999999B, [0x99999998, 0, 0]) ∧
    after (exec (.w3Mstepx 3 1 6) (withAcc [7, 0, 0] (b32 [0, 0xFFFFFFFB, 0xCCCCCCCD] [] [])))
      (fun t => (t.x 3, accWords t)) = some (0, [0, 0, 0]) := by decide

theorem test_w3_extract :
    after (exec (.w3Extract 4) (withAcc [0x12345678, 0x9ABCDEF0, 0x11111111] State.reset))
      (fun t => (t.x 4, accWords t)) = some (0x12345678, [0x9ABCDEF0, 0x11111111, 0]) := by decide

theorem test_ct_maskb :
    after (exec (.ctMaskb 2 1) (b32 [0, 3] [] [])) (fun t => t.x 2) = some 0xFFFFFFFF ∧
    after (exec (.ctMaskb 2 1) (b32 [0, 2] [] [])) (fun t => t.x 2) = some 0 := by decide

theorem test_ct_masknz_maskz :
    after (exec (.ctMasknz 2 1) (b32 [0, 0x80000000] [] [])) (fun t => t.x 2) = some 0xFFFFFFFF ∧
    after (exec (.ctMaskz 2 1) (b32 [] [] [])) (fun t => t.x 2) = some 0xFFFFFFFF := by decide

theorem test_ct_maskeq_masklt :
    after (exec (.ctMaskeq 3 1 2) (b32 [0, 7, 7] [] [])) (fun t => t.x 3) = some 0xFFFFFFFF ∧
    after (exec (.ctMasklt 3 1 2) (b32 [0, 1, 0xFFFFFFFF] [] [])) (fun t => t.x 3) = some 0xFFFFFFFF ∧
    after (exec (.ctMasklt 3 2 1) (b32 [0, 1, 0xFFFFFFFF] [] [])) (fun t => t.x 3) = some 0 := by decide

/-- The example of R156, and a mixing mask over the destination. -/
theorem test_ct_sel :
    after (exec (.ctSel 4 1 2 3) (b32 [0, 0xFFFFFFFF, 0x11111111, 0x22222222] [] [])) (fun t => t.x 4) =
      some 0x11111111 ∧
    after (exec (.ctSel 1 1 2 3) (b32 [0, 0x0000FFFF, 0x12345678, 0x9ABCDEF0] [] [])) (fun t => t.x 1) =
      some 0x9ABC5678 := by decide

/-- The example of R157; `NEG` of the result is left set. -/
theorem test_ct_selm :
    after (exec (.ctSelm 2 0 1 5)
        (b32 [0, 0, 0, 0, 0, 0xFFFFFFFF] [(0, 3, false), (4, 3, false), (8, 3, true)] [1, 2, 3, 0, 7, 8, 9]))
      (fun t => (memAt 8 3 t, t.neg 2)) = some ([some 1, some 2, some 3], true) ∧
    after (exec (.ctSelm 0 0 1 5) (b32 [] [(0, 3, false), (4, 3, false)] [1, 2, 3, 0, 7, 8, 9])) (memAt 0 4) =
      some [some 7, some 8, some 9, some 0] := by decide

theorem test_ct_cmpltm :
    after (exec (.ctCmpltm 4 5 6) (b32 [] [(0, 0, false), (0, 0, false), (0, 0, false), (0, 0, false),
      (0, 2, false), (2, 1, false)] [5, 0, 5])) (fun t => t.x 6) = some 0 ∧
    after (exec (.ctCmpltm 5 4 6) (b32 [] [(0, 0, false), (0, 0, false), (0, 0, false), (0, 0, false),
      (0, 2, false), (2, 1, false)] [5, 1, 5])) (fun t => t.x 6) = some 0xFFFFFFFF := by decide

/-- `5 0` equals `5`, and `NEG` is ignored. -/
theorem test_ct_cmpeqm :
    after (exec (.ctCmpeqm 4 5 6) (b32 [] [(0, 0, false), (0, 0, false), (0, 0, false), (0, 0, false),
      (0, 2, true), (2, 1, false)] [5, 0, 5])) (fun t => t.x 6) = some 0xFFFFFFFF := by decide

theorem test_mp_mul :
    after (exec (.mpMul 2 0 1) (b32 [] [(0, 2, false), (2, 2, false), (4, 4, true)]
        [0xFFFFFFFF, 0xFFFFFFFF, 0xFFFFFFFF, 0xFFFFFFFF]))
      (fun t => (memAt 4 5 t, t.neg 2)) =
      some ([some 1, some 0, some 0xFFFFFFFE, some 0xFFFFFFFF, none], false) := by decide

theorem test_mont_pdash :
    after (exec (.montPdash 1 0) (b32 [0xFFFFFFFB] [] [])) (fun t => t.x 1) = some 0xCCCCCCCD ∧
    after (exec (.montPdash 1 0) (b32 [3] [] [])) (fun t => t.x 1) = some 0x55555555 ∧
    outcome (exec (.montPdash 1 0) (b32 [4] [] [])) = some (1, 0x19) := by decide

/-- The P-256 low word with `W = 64` (R201). -/
theorem test_mont_pdash_64 :
    after (exec (.montPdash 1 0) (build Config.example64 [0xFFFFFFFFFFFFFFFF] [] [])) (fun t => t.x 1) = some 1 := by
  decide +kernel

/-- The example of R202, and R206's example outside the preconditions. -/
theorem test_mont_redc :
    after (exec (.montRedc 2 0 1 3) (b32 [0, 0, 0, 0xCCCCCCCD] [(0, 2, false), (2, 1, false), (3, 1, false)]
      [0x9ABCDEF0, 0x12345678, 0xFFFFFFFB])) (memAt 3 1) = some [some 0x645A1CA7] ∧
    after (exec (.montRedc 2 0 1 3) (b32 [0, 0, 0, 0x55555555] [(0, 2, false), (2, 1, false), (3, 1, false)]
      [0xFFFFFFFF, 0xFFFFFFFF, 3])) (memAt 3 1) = some [some 0xFFFFFFFF] := by decide

/-- R231's and R232's examples. -/
theorem test_bar_setup :
    after (exec (.barSetups 0 0) (b32 [] [(0, 1, false)] [0xFFFFFFFB]))
      (fun t => (t.ctx 0, (t.ctx 0).info)) =
      some (⟨true, .secretModulus, 1#16, 0xFFFFFFFB, 0x100000005⟩, 0x00010001) ∧
    after (exec (.barSetupp 0 1) (b32 [] [(0, 1, false)] [0xFFFFFFFB]))
      (fun t => (t.ctx 1, (t.ctx 1).info)) =
      some (⟨true, .publicModulus, 1#16, 0xFFFFFFFB, 0x100000005⟩, 0x00010003) := by decide

/-- Slot 0 with R231's modulus; `D1` is the input, `D2` the result, `D3` a second input. -/
def barrettState (ds : List (Nat × Nat × Bool)) (mem : List Nat) : State :=
  (b32 [] ds mem).setCtx 0 ⟨true, .secretModulus, 1#16, 0xFFFFFFFB, 0x100000005⟩

/-- Freeing twice (R234). -/
theorem test_bar_free :
    after (exec (.barFree 0) (barrettState [] [])) (fun t => (t.ctx 0).info) = some 0 ∧
    outcome (exec (.barFree 0) State.reset) = some (0, 0) := by decide

/-- R238's two examples: the Barrett path and the fallback. -/
theorem test_bar_red :
    after (exec (.barRed 2 1 0) (barrettState [(0, 0, false), (0, 2, false), (8, 1, false)]
      [0x9ABCDEF0, 0x12345678])) (memAt 8 1) = some [some 0xF5C28F48] ∧
    after (exec (.barRed 2 1 0) (barrettState [(0, 0, false), (0, 3, false), (8, 1, false)] [0, 0, 1]))
      (memAt 8 1) = some [some 0x19] := by decide

/-- R239's example: `(m - 1)^2` is 1. -/
theorem test_bar_mul :
    after (exec (.barMul 2 1 3 0) (barrettState [(0, 0, false), (0, 1, false), (8, 2, true), (1, 1, false)]
      [0xFFFFFFFA, 0xFFFFFFFA])) (fun t => (memAt 8 2 t, t.neg 2)) = some ([some 1, some 0], false) := by decide

/-- R240's and R241's examples. -/
theorem test_bar_sqr_cube :
    after (exec (.barSqr 2 1 0) (barrettState [(0, 0, false), (0, 1, false), (8, 1, false)] [0x10000]))
      (memAt 8 1) = some [some 5] ∧
    after (exec (.barCube 2 1 0) (barrettState [(0, 0, false), (0, 1, false), (8, 1, false)] [0x10000]))
      (memAt 8 1) = some [some 0x00050000] := by decide

/-! ### Witnesses: encoding and decoding -/

/-- Just after reset, with one host action to come: the state of every witness whose statement asks for a
host action. -/
def issue (cfg : Config) (a : HostAction) : State := State.resetWith cfg [a] [] 0

theorem issue_host (cfg : Config) (a : HostAction) : (issue cfg a).host = a :: [] := rfl

theorem witness_EncodeInvertsDecode : ∃ (c : BitVec 32) (i : Instr), decodeWord c = .ok i :=
  ⟨0x89026000#32, .montRedc 2 0 1 3, by decide⟩

/-- Both ends of each undefined range, with the other bits all ones, and the upper half 0; the state is
`issue Config.example64` of the write. -/
theorem witness_UndefinedOpcodesRaise :
    ∀ o ∈ [0x02, 0x07, 0x0E, 0x0F, 0x19, 0x1F, 0x23, 0x27, 0x2F, 0x3F],
      ((BitVec.ofNat 64 (o * 2 ^ 26 + (2 ^ 26 - 1))).toNat < 2 ^ 32 ∧
        o = (BitVec.ofNat 64 (o * 2 ^ 26 + (2 ^ 26 - 1))).toNat % 2 ^ 32 / 2 ^ 26) ∧
      ((0x02 ≤ o ∧ o ≤ 0x07) ∨ (0x0E ≤ o ∧ o ≤ 0x0F) ∨ (0x19 ≤ o ∧ o ≤ 0x1F) ∨ (0x23 ≤ o ∧ o ≤ 0x27) ∨
        (0x2F ≤ o ∧ o ≤ 0x3F)) := by decide +kernel

/-- No command's word has bit 0 set (R97). -/
theorem encode_bit_zero (i : Instr) : (encode i).getLsbD 0 = false := by
  cases i <;> simp only [encode, getLsbD_formatN, getLsbD_formatR, getLsbD_formatM] <;> rfl

/-- The word 1: `NOP`'s opcode, and no command's word. -/
theorem witness_ReservedFieldsRaise :
    (issue Config.example32 (.write cmdSlot 1#64)).host = .write cmdSlot 1#64 :: [] ∧
    (∃ i : Instr, (encode i).toNat / 2 ^ 26 = (1#64).toNat % 2 ^ 32 / 2 ^ 26) ∧
      ∀ i : Instr, (encode i).toNat ≠ (1#64).toNat % 2 ^ 32 := by
  refine ⟨rfl, ⟨.nop, by decide⟩, fun i h => ?_⟩
  have hb := encode_bit_zero i
  rw [show encode i = 1#32 from BitVec.eq_of_toNat_eq (by simpa using h)] at hb
  exact absurd hb (by decide)

/-- The least value with a bit above 31. -/
theorem witness_UpperHalfRaises : ∃ s : State, s.host = .write cmdSlot 0x100000000#64 :: [] ∧
    s.cfg.width = .w64 ∧ 2 ^ 32 ≤ (0x100000000#64).toNat :=
  ⟨issue Config.example64 (.write cmdSlot 0x100000000#64), rfl, rfl, by decide⟩

theorem witness_StepRunsDecodedCommand : ∃ (s : State) (v : Word) (rest : List HostAction) (i : Instr),
    s.host = .write cmdSlot v :: rest ∧ decode s.cfg.width v = .ok i :=
  ⟨State.reset.withFetchWord 32 0x24140000, 0x24140000#64, [], .w3Add 5, by decide, by decide⟩

theorem witness_IdleStepHoldsState : State.reset.host = [] := rfl

/-! ### Witnesses: errors, success and `STATUS` -/

/-- An even word, and a decode error. -/
theorem witness_ErrorsChangeOnlyStatus :
    (∃ t, exec (.montPdash 0 0) State.reset = .next t ∧ t.status.code ≠ 0#4) ∧
    ∃ t, step (issue Config.example32 (.write cmdSlot 1#64)) = .next t ∧ t.status.code ≠ 0#4 :=
  ⟨⟨_, rfl, by decide⟩, _, rfl, by decide⟩

theorem witness_SuccessRecordsOk :
    (∃ t, exec .clrerr State.reset = .next t ∧ ¬∃ e : Err, ErrorEffect e.code e.detail State.reset t) ∧
    ∃ t, exec .nop State.reset = .next t ∧ ¬∃ e : Err, ErrorEffect e.code e.detail State.reset t :=
  ⟨⟨_, rfl, fun ⟨_, h, _⟩ => Bool.false_ne_true (congrArg Status.sticky h)⟩, _, rfl,
    fun ⟨_, h, _⟩ => Bool.false_ne_true (congrArg Status.sticky h)⟩

/-- The state of R280's example. -/
def stickyState (host : List HostAction) : State :=
  { State.reset with status := ⟨1#4, 0x16#8, true⟩, host := host }

/-- One witness a clause: an error, a success, `CLRERR`, and `STICKY` cleared by reset and by `CLRERR`. -/
theorem witness_OnlyClrerrAndResetClearSticky :
    (∃ t, step (issue Config.example32 (.write cmdSlot 1#64)) = .next t ∧ t.status.code ≠ 0#4) ∧
    (∃ t, step (stickyState [.write cmdSlot 0#64]) = .next t ∧ t.status.code = 0#4 ∧
      decode .w32 0#64 ≠ .ok .clrerr) ∧
    (∃ t, step (stickyState [.write cmdSlot 0x04000000#64]) = .next t ∧ t.status.code = 0#4 ∧
      decode .w32 0x04000000#64 = .ok .clrerr ∧ t.status.sticky = false) ∧
    ∃ t, step (stickyState [.reset]) = .next t ∧ (stickyState [.reset]).status.sticky = true ∧
      t.status.sticky = false :=
  ⟨⟨_, rfl, by decide⟩, ⟨_, rfl, by decide, by decide⟩, ⟨_, rfl, by decide, by decide, by decide⟩, _, rfl, rfl, rfl⟩

/-! ### Witnesses: what commands may write -/

theorem witness_OnlyTheDestinationRegisterChanges : ∃ t, exec (.ctMaskz 3 0) State.reset = .next t ∧
    t.x 3 ≠ State.reset.x 3 := ⟨_, rfl, by decide⟩

theorem witness_OnlyWord3CommandsUseTheAccumulator : usesAcc (.mpMul 2 0 1) = false := rfl

/-- A product whose result descriptor had `NEG` set. -/
def mulState : State := b32 [] [(0, 2, false), (2, 2, false), (4, 4, true)] [3, 0, 5, 0]

theorem witness_DescriptorsKeepBaseAndLen : ∃ t, exec (.mpMul 2 0 1) mulState = .next t ∧
    t.status.code = 0#4 ∧ clearedNeg (.mpMul 2 0 1) = some 2 ∧ mulState.neg 2 = true :=
  ⟨_, rfl, by decide, rfl, by decide⟩

/-- A valid slot 3, the last one, before a `BAR.FREE` and before a reset. -/
def validState (host : List HostAction) : State :=
  { (State.reset.setCtx 3 ⟨true, .publicModulus, 1#16, 5, 3689348814741910323⟩) with host := host }

theorem witness_ValidSlotsAreImmutable :
    (∃ t, step (validState [.write cmdSlot 0xA8000C00#64]) = .next t ∧
      ((validState [.write cmdSlot 0xA8000C00#64]).ctx 3).valid = true ∧
      t.ctx 3 ≠ (validState [.write cmdSlot 0xA8000C00#64]).ctx 3) ∧
    ∃ t, step (validState [.reset]) = .next t ∧ t.ctx 3 ≠ (validState [.reset]).ctx 3 :=
  ⟨⟨_, rfl, by decide, by decide⟩, _, rfl, by decide⟩

theorem witness_OnlyResultWordsChange : ∃ t, exec (.mpMul 2 0 1) mulState = .next t ∧
    t.memWord 7 ≠ mulState.memWord 7 := ⟨_, rfl, by decide⟩

theorem witness_SlotSecretsAreUnreadable : (validState [.read 0x43#17]).host = .read 0x43#17 :: [] := rfl

/-! ### Witnesses: the host's slots -/

/-- Each clause at the ends of its range: the slots of R63, and a written word at OPMEM's last address. With
`issue_host`, each is a slot the host reads. -/
theorem witness_HostReadsReturnTheSlotMap :
    (0x10#17).toNat = 0x10 + (0 : XReg).val ∧ (0x1F#17).toNat = 0x10 + (15 : XReg).val ∧
    (0x20#17).toNat = 0x20 + 2 * (0 : DReg).val ∧ (0x2E#17).toNat = 0x20 + 2 * (7 : DReg).val ∧
    (0x21#17).toNat = 0x21 + 2 * (0 : DReg).val ∧ (0x2F#17).toNat = 0x21 + 2 * (7 : DReg).val ∧
    ((3 : CtxIx).val < Config.example32.nctx ∧ (0x43#17).toNat = 0x40 + (3 : CtxIx).val) ∧
    (63 < Config.example32.memWords ∧ (0x1003F#17).toNat = 0x10000 + 63 ∧
      (State.reset.writeWords 63 [9]).memWord 63 = some 9) := by decide +kernel

theorem witness_UnwrittenWordsReadAsFreshDraws : ∃ s : State,
    s.host = [.read 0x1003F#17, .read 0x1003F#17] ∧ (0x1003F#17).toNat = 0x10000 + 63 ∧
    63 < s.cfg.memWords ∧ s.memWord 63 = none :=
  ⟨{ State.reset with host := [.read 0x1003F#17, .read 0x1003F#17] }, rfl, by decide, by decide, by decide⟩

/-- Both ends of each reserved range, with `issue_host` for the access. -/
theorem witness_ReservedSlotsReadZeroAndIgnoreWrites :
    SlotReserved Config.example32 0x5#17 ∧ SlotReserved Config.example32 0xF#17 ∧
    SlotReserved Config.example32 0x33#17 ∧ SlotReserved Config.example32 0x3F#17 ∧
    SlotReserved Config.example32 0x44#17 ∧ SlotReserved Config.example32 0x0FFFF#17 ∧
    SlotReserved Config.example32 0x10040#17 ∧ SlotReserved Config.example32 0x1FFFF#17 := by
  unfold SlotReserved; decide +kernel

theorem witness_ReadOnlySlotsIgnoreWrites :
    SlotReadOnly Config.example32 0x0#17 ∧ SlotReadOnly Config.example32 0x3#17 ∧
    SlotReadOnly Config.example32 0x40#17 ∧ SlotReadOnly Config.example32 0x43#17 := by
  unfold SlotReadOnly; decide +kernel

theorem witness_HostWritesRegisters :
    (0x10#17).toNat = 0x10 + (0 : XReg).val ∧ (0x1F#17).toNat = 0x10 + (15 : XReg).val ∧
    (0x20#17).toNat = 0x20 + 2 * (0 : DReg).val ∧ (0x2E#17).toNat = 0x20 + 2 * (7 : DReg).val ∧
    (0x21#17).toNat = 0x21 + 2 * (0 : DReg).val ∧ (0x2F#17).toNat = 0x21 + 2 * (7 : DReg).val ∧
    (0x30#17).toNat = 0x30 + (0 : Fin 3).val ∧ (0x32#17).toNat = 0x30 + (2 : Fin 3).val := by decide

theorem witness_HostWritesOpmem : (0x10000#17).toNat = 0x10000 + 0 ∧ 0 < Config.example32.memWords ∧
    (0x1003F#17).toNat = 0x10000 + 63 ∧ 63 < Config.example32.memWords := by decide

theorem witness_ResetSetsEveryResetValue : (validState [.reset]).host = .reset :: [] := rfl

/-! ### Witnesses: the invariant -/

/-- Registers, the accumulator, a descriptor, a slot, memory and an error in `STATUS`, all in use. -/
def busyState : State :=
  { (((b32 [0xFFFFFFFF] [(62, 2, true)] [0xFFFFFFFF]).setCtx 3 ⟨true, .publicModulus, 1#16, 5, 3689348814741910323⟩).writeWords
      62 [1, 2]).setAcc (2 ^ 96 - 1) with
    status := Status.failure .aliased
    host := [.write cmdSlot 0#64] }

theorem witness_StepKeepsInvariant : busyState.Inv ∧ ∃ t, step busyState = .next t where
  left :=
    { regs := by decide +kernel
      acc := by decide +kernel
      descs := by decide +kernel
      status := .inr ⟨.aliased, rfl⟩
      bctx := by unfold BarrettCtx.Legal; decide +kernel
      wsram := rfl
      opmemWf := by decide +kernel
      opmemRange := by decide +kernel }
  right := ⟨_, rfl⟩

/-! ### Witnesses: the accumulator and the selects -/

/-- R124's example: the digit is `9999999B`. -/
theorem witness_MontgomeryStepsFoldTheLowWord :
    let s := withAcc [7, 0, 0] (b32 [0, 0xFFFFFFFB, 0xCCCCCCCD] [] [])
    0x9999999B = s.acc * s.x 2 % 2 ^ s.cfg.width.bits := by decide +kernel

theorem witness_MontgomeryStepClearsTheLowWord : ∃ s : State, s.x 1 % 2 = 1 ∧
    (s.x 1 * s.x 2 + 1) % 2 ^ s.cfg.width.bits = 0 ∧ (∃ t, exec (.w3Mstep 3 1 2) s = .next t) ∧
      ∃ t, exec (.w3Mstepx 3 1 2) s = .next t :=
  ⟨b32 [0, 0xFFFFFFFB, 0xCCCCCCCD] [] [], by decide +kernel, by decide +kernel, ⟨_, rfl⟩, _, rfl⟩

theorem witness_ExtractShiftsWordsOut : (0 : XReg) ≠ 1 ∧ (0 : XReg) ≠ 15 ∧ (1 : XReg) ≠ 15 := by decide

/-- The largest accumulator below `2^(2W)`. -/
theorem witness_ProductScanningColumnsNeverWrap : ∃ (is : List Instr) (s : State),
    (∀ i ∈ is, (∃ a, i = .w3Add a) ∨ ∃ a b, i = .w3Mul a b) ∧
    s.acc < 2 ^ (2 * s.cfg.width.bits) ∧ is.length + 1 ≤ 2 ^ s.cfg.width.bits :=
  ⟨[.w3Add 0, .w3Mul 0 0], withAcc [0xFFFFFFFF, 0xFFFFFFFF] (b32 [0xFFFFFFFF] [] []),
    by intro i hi; simp at hi; rcases hi with rfl | rfl; exacts [.inl ⟨0, rfl⟩, .inr ⟨0, 0, rfl⟩],
    by decide +kernel, by decide +kernel⟩

/-- In place at OPMEM's end, so that the result overlaps an input at its very `BASE`. -/
theorem witness_ArraySelectBlendsEveryWord : ∃ s : State, InBounds s 0 ∧ InBounds s 0 ∧ InBounds s 1 ∧
    s.len 0 = s.len 0 ∧ s.len 1 = s.len 0 ∧ Overlaps s 0 0 ∧ (Overlaps s 0 0 → s.base 0 = s.base 0) ∧
      (Overlaps s 0 1 → s.base 0 = s.base 1) :=
  ⟨b32 [] [(62, 2, false), (0, 2, false)] [], by unfold InBounds Overlaps; decide +kernel⟩

theorem witness_ArrayComparesReturnMasks :
    (∃ s : State, InBounds s 0 ∧ InBounds s 1 ∧ s.base 0 + s.len 0 = s.cfg.memWords) ∧
    (∃ s : State, ¬InBounds s 0 ∧ s.base 0 + s.len 0 = s.cfg.memWords + 1) :=
  ⟨⟨b32 [] [(62, 2, false), (0, 0, false)] [], by unfold InBounds; decide +kernel⟩,
    b32 [] [(62, 3, false)] [], by unfold InBounds; decide +kernel⟩

/-! ### Witnesses: multiplication and Montgomery reduction -/

/-- The longest factor, a result of exactly the sum of the lengths, and operands side by side. -/
theorem witness_MultiplyWritesTheExactProduct : ∃ s : State,
    InBounds s 2 ∧ InBounds s 0 ∧ InBounds s 1 ∧ s.neg 0 = false ∧ s.neg 1 = false ∧
    s.len 0 ≤ s.cfg.nmax ∧ s.len 1 ≤ s.cfg.nmax ∧ s.len 0 + s.len 1 ≤ s.len 2 ∧ ¬Overlaps s 2 0 ∧
      ¬Overlaps s 2 1 :=
  ⟨b32 [] [(0, 8, false), (8, 2, false), (10, 10, true)] [], by unfold InBounds Overlaps; decide +kernel⟩

theorem witness_PDashIsTheNegatedInverse : (b32 [1] [] []).x 0 % 2 = 1 ∧ (b32 [2] [] []).x 0 % 2 = 0 := by
  decide +kernel

/-- R202's example, with `p`, `z` and the result side by side at OPMEM's end. -/
def redcState : State :=
  b32 [0, 0, 0, 0xCCCCCCCD] [(0, 2, false), (2, 1, false), (63, 1, false)] [0x9ABCDEF0, 0x12345678, 0xFFFFFFFB]

theorem witness_RedcCompletesOutsidePreconditions :
    InBounds redcState 2 ∧ InBounds redcState 0 ∧ InBounds redcState 1 ∧ redcState.neg 0 = false ∧
    redcState.neg 1 = false ∧ redcState.len 1 ≠ 0 ∧ redcState.len 1 ≤ redcState.cfg.nmax ∧
    2 * redcState.len 1 ≤ redcState.len 0 ∧ redcState.len 1 ≤ redcState.len 2 ∧ ¬Overlaps redcState 2 0 ∧
      ¬Overlaps redcState 2 1 := by unfold InBounds Overlaps; decide +kernel

theorem witness_RedcIsMontgomeryReduction :
    natOfWords redcState.cfg.width (redcState.readWords (redcState.base 0) 0 (2 * redcState.len 1)) =
      0x123456789ABCDEF0 ∧ redcState.val 1 (redcState.len 0) = 0xFFFFFFFB ∧
    MontgomeryReady redcState.cfg.width 0x123456789ABCDEF0 0xFFFFFFFB (redcState.len 1) (redcState.x 3) := by
  unfold MontgomeryReady; decide +kernel

/-- `D0` and `D1` the factors, `D2` the modulus, `D3` the product, `D4` the result. -/
def mulrState : State :=
  b32 [0, 0, 0, 0xCCCCCCCD]
    [(0, 1, false), (1, 1, false), (2, 1, false), (3, 2, true), (5, 1, true)] [0xFFFFFFFA, 7, 0xFFFFFFFB]

theorem witness_MulrIsMontgomeryMultiplication :
    (InBounds mulrState 4 ∧ InBounds mulrState 0 ∧ InBounds mulrState 1 ∧ InBounds mulrState 2 ∧
      InBounds mulrState 3 ∧ mulrState.neg 0 = false ∧ mulrState.neg 1 = false ∧ mulrState.neg 2 = false ∧
      mulrState.len 0 ≤ mulrState.cfg.nmax ∧ mulrState.len 1 ≤ mulrState.cfg.nmax ∧
      mulrState.len 0 + mulrState.len 1 ≤ mulrState.len 3 ∧ mulrState.len 2 ≠ 0 ∧
      mulrState.len 2 ≤ mulrState.cfg.nmax ∧ 2 * mulrState.len 2 ≤ mulrState.len 3 ∧
      mulrState.len 2 ≤ mulrState.len 4) ∧
    (¬Overlaps mulrState 3 0 ∧ ¬Overlaps mulrState 3 1 ∧ ¬Overlaps mulrState 3 2 ∧ ¬Overlaps mulrState 4 3 ∧
      ¬Overlaps mulrState 4 2) ∧
    (∀ j : Nat, j < 1 → (mulrState.memWord (mulrState.base 2 + j)).isSome = true) ∧ mulrState.len 2 = 1 ∧
    mulrState.val 0 0 = 0xFFFFFFFA ∧ mulrState.val 1 1 = 7 ∧ mulrState.val 2 0 = 0xFFFFFFFB ∧
    0xFFFFFFFB % 2 = 1 ∧ (0xFFFFFFFB % 2 ^ mulrState.cfg.width.bits * mulrState.x 3 + 1) %
      2 ^ mulrState.cfg.width.bits = 0 := by unfold InBounds Overlaps; decide +kernel

/-! ### Witnesses: Barrett reduction -/

/-- The largest modulus, `NMAX` significant words, for the last slot, with leading zero words. -/
theorem witness_SetupBuildsTheReducer : ∃ s : State,
    (3 : CtxIx).val < s.cfg.nctx ∧ (s.ctx 3).valid = false ∧ InBounds s 0 ∧ s.neg 0 = false ∧ s.val 0 0 ≠ 0 ∧
    s.val 0 0 < 2 ^ (s.cfg.width.bits * s.cfg.nmax) ∧ s.val 0 0 + 1 = 2 ^ (s.cfg.width.bits * s.cfg.nmax) :=
  ⟨b32 [] [(0, 9, false)] (List.replicate 8 0xFFFFFFFF ++ [0]), by unfold InBounds; decide +kernel⟩

/-- The last slot of the engine, and the first index that is none. -/
theorem witness_FreeUninitialisesTheSlot : (3 : CtxIx).val < State.reset.cfg.nctx ∧
    State.reset.cfg.nctx ≤ (4 : CtxIx).val := by decide

/-- The hypotheses the reductions share, for `D2` the result and `D1` the input. -/
def reduceReady (s : State) : Bool :=
  (s.ctx 0).valid && s.inBounds 2 && s.inBounds 1 && !s.neg 1 && decide ((s.ctx 0).words ≤ s.len 2) &&
    !s.overlap 2 1

/-- `b^(2k) - 1`, the largest value of the Barrett path, and `b^(2k)`, the least of the fallback (R238). -/
theorem witness_ReduceIsModulo :
    let s := barrettState [(0, 0, false), (0, 2, false), (8, 1, true)] [0xFFFFFFFF, 0xFFFFFFFF]
    let f := barrettState [(0, 0, false), (0, 3, false), (8, 1, true)] [0, 0, 1]
    (0 : CtxIx).val < s.cfg.nctx ∧ (s.ctx 0).Legal s.cfg ∧ reduceReady s = true ∧ s.fallback 1 0 = false ∧
      reduceReady f = true ∧ f.fallback 1 0 = true := by unfold BarrettCtx.Legal; decide +kernel

/-- Both inputs at `m - 1`. -/
theorem witness_ModularProductIsExact :
    let s := barrettState [(0, 0, false), (0, 1, false), (8, 2, true), (1, 1, false)] [0xFFFFFFFA, 0xFFFFFFFA]
    (0 : CtxIx).val < s.cfg.nctx ∧ (s.ctx 0).Legal s.cfg ∧ reduceReady s = true ∧ s.inBounds 3 = true ∧
      s.neg 3 = false ∧ s.overlap 2 3 = false ∧ s.val 1 0 < (s.ctx 0).m ∧ s.val 3 (s.len 1) < (s.ctx 0).m := by
  unfold BarrettCtx.Legal; decide +kernel

theorem witness_ModularSquareAndCubeAreExact :
    let s := barrettState [(0, 0, false), (0, 1, false), (8, 1, true)] [0xFFFFFFFA]
    (0 : CtxIx).val < s.cfg.nctx ∧ (s.ctx 0).Legal s.cfg ∧ reduceReady s = true ∧ s.val 1 0 < (s.ctx 0).m := by
  unfold BarrettCtx.Legal; decide +kernel

/-- `D0` the modulus, `D1` the value, `D2` the result. -/
theorem witness_SetupThenReduceIsModulo :
    let s := b32 [] [(0, 9, false), (9, 3, false), (16, 1, false)] [0xFFFFFFFB, 0, 0, 0, 0, 0, 0, 0, 0, 1, 2, 3]
    (0 : CtxIx).val < s.cfg.nctx ∧ (s.ctx 0).valid = false ∧ s.inBounds 0 = true ∧ s.neg 0 = false ∧
    s.val 0 0 ≠ 0 ∧ s.cfg.nmax < s.len 0 ∧ s.val 0 0 < 2 ^ (s.cfg.width.bits * s.cfg.nmax) ∧
    s.inBounds 2 = true ∧ s.inBounds 1 = true ∧ s.neg 1 = false ∧ s.len 2 < s.len 0 ∧
    s.val 0 0 < 2 ^ (s.cfg.width.bits * s.len 2) ∧ s.overlap 2 1 = false ∧ s.len 1 = 3 ∧
      ∀ j : Nat, j < 3 → (s.memWord (s.base 1 + j)).isSome = true := by decide +kernel

/-! ### Witnesses: the checks in order

For each command with several checks, the conditions of its rule in the rule's order, and one state a
check in which it is the first that holds, at the boundary; the command reports that check's class and
detail (R302). -/

def selmConditions (dr da db : DReg) (s : State) : List Bool :=
  [decide (s.cfg.memWords < s.base dr + s.len dr ∨ s.cfg.memWords < s.base da + s.len da ∨
      s.cfg.memWords < s.base db + s.len db),
    decide (s.len da ≠ s.len dr ∨ s.len db ≠ s.len dr),
    (s.overlap dr da && decide (s.base dr ≠ s.base da)) || (s.overlap dr db && decide (s.base dr ≠ s.base db))]

/-- The place of the first check, and what the command records. -/
def report (conditions : State → List Bool) (i : Instr) (s : State) : Option Nat × Option (Nat × Nat) :=
  (firstTrue (conditions s), outcome (exec i s))

theorem witness_ArraySelectChecksInOrder :
    let run := fun ds => report (selmConditions 2 0 1) (.ctSelm 2 0 1 0) (b32 [] ds [])
    run [(0, 2, false), (2, 2, false), (63, 2, false)] = (some 0, some (1, 0x11)) ∧
    run [(0, 2, false), (2, 1, false), (62, 2, false)] = (some 1, some (1, 0x16)) ∧
    run [(0, 2, false), (4, 2, false), (1, 2, false)] = (some 2, some (1, 0x17)) ∧
    run [(0, 0, false), (64, 0, false), (2, 0, true)] = (none, some (0, 0)) := by decide +kernel

def mulConditions (dr da db : DReg) (s : State) : List Bool :=
  [decide (s.cfg.memWords < s.base dr + s.len dr ∨ s.cfg.memWords < s.base da + s.len da ∨
      s.cfg.memWords < s.base db + s.len db),
    (s.neg da && decide (s.val da 0 = 0)) || (s.neg db && decide (s.val db (s.len da) = 0)),
    s.neg da || s.neg db,
    decide (s.cfg.nmax < s.len da ∨ s.cfg.nmax < s.len db),
    decide (s.len dr < s.len da + s.len db),
    s.overlap dr da || s.overlap dr db]

theorem witness_MultiplyChecksInOrder :
    let run := fun ds => report (mulConditions 2 0 1) (.mpMul 2 0 1) (b32 [] ds [1, 0, 0, 0, 0, 0, 0, 0, 0])
    run [(0, 1, false), (1, 1, true), (0, 65, false)] = (some 0, some (1, 0x11)) ∧
    run [(0, 9, true), (1, 1, true), (0, 1, false)] = (some 1, some (1, 0x12)) ∧
    run [(0, 9, false), (0, 1, true), (0, 1, false)] = (some 2, some (1, 0x13)) ∧
    run [(0, 9, false), (0, 1, false), (0, 9, false)] = (some 3, some (1, 0x15)) ∧
    run [(0, 1, false), (1, 1, false), (0, 1, false)] = (some 4, some (1, 0x16)) ∧
    run [(0, 1, false), (1, 1, false), (1, 2, false)] = (some 5, some (1, 0x17)) ∧
    run [(0, 1, false), (1, 1, false), (62, 2, true)] = (none, some (0, 0)) := by decide +kernel

def redcConditions (dr da db : DReg) (s : State) : List Bool :=
  [decide (s.cfg.memWords < s.base dr + s.len dr ∨ s.cfg.memWords < s.base da + s.len da ∨
      s.cfg.memWords < s.base db + s.len db),
    (s.neg da && decide (s.val da 0 = 0)) || (s.neg db && decide (s.val db (s.len da) = 0)),
    s.neg da || s.neg db,
    decide (s.len db = 0),
    decide (s.cfg.nmax < s.len db),
    decide (s.len da < 2 * s.len db ∨ s.len dr < s.len db),
    s.overlap dr da || s.overlap dr db]

theorem witness_RedcChecksInOrder :
    let run := fun ds => report (redcConditions 2 0 1) (.montRedc 2 0 1 3) (b32 [] ds [1, 0, 0])
    run [(0, 2, false), (2, 1, true), (64, 1, false)] = (some 0, some (1, 0x11)) ∧
    run [(0, 2, false), (0, 0, true), (3, 1, false)] = (some 1, some (1, 0x12)) ∧
    run [(0, 2, true), (0, 0, false), (3, 1, false)] = (some 2, some (1, 0x13)) ∧
    run [(0, 2, false), (0, 0, false), (3, 0, false)] = (some 3, some (1, 0x14)) ∧
    run [(0, 2, false), (0, 9, false), (3, 1, false)] = (some 4, some (1, 0x15)) ∧
    run [(0, 1, false), (2, 1, false), (3, 1, false)] = (some 5, some (1, 0x16)) ∧
    run [(0, 2, false), (2, 1, false), (2, 1, false)] = (some 6, some (1, 0x17)) ∧
    run [(0, 2, false), (2, 1, false), (3, 1, false)] = (none, some (0, 0)) := by decide +kernel

def setupConditions (da : DReg) (c : CtxIx) (s : State) : List Bool :=
  [decide (s.cfg.nctx ≤ c.val), (s.ctx c).valid, decide (s.cfg.memWords < s.base da + s.len da),
    s.neg da && decide (s.val da 0 = 0), s.neg da, decide (s.val da 0 = 0),
    decide (2 ^ (s.cfg.width.bits * s.cfg.nmax) ≤ s.val da 0)]

/-- Both setups; the last state's modulus is the least of `NMAX + 1` words. -/
theorem witness_SetupChecksInOrder : ∀ p ∈ [false, true],
    let cmd := fun c => if p then Instr.barSetups 0 c else Instr.barSetupp 0 c
    let run := fun c ds mem => report (setupConditions 0 c) (cmd c) ((b32 [] ds mem).setCtx 1
      ⟨true, .secretModulus, 1#16, 5, 3689348814741910323⟩)
    run 4 [(0, 65, true)] [] = (some 0, some (1, 0x10)) ∧
    run 1 [(0, 65, true)] [] = (some 1, some (2, 0x21)) ∧
    run 3 [(0, 65, true)] [] = (some 2, some (1, 0x11)) ∧
    run 3 [(0, 0, true)] [] = (some 3, some (1, 0x12)) ∧
    run 3 [(0, 1, true)] [1] = (some 4, some (1, 0x13)) ∧
    run 3 [(0, 1, false)] [0] = (some 5, some (1, 0x14)) ∧
    run 3 [(0, 9, false)] (List.replicate 8 0 ++ [1]) = (some 6, some (1, 0x15)) ∧
    run 3 [(0, 9, false)] (List.replicate 8 0xFFFFFFFF ++ [0]) = (none, some (0, 0)) := by decide +kernel

/-- The conditions of R235, for the inputs `ins` with their read positions. -/
def reduceConditions (ranged : Bool) (dr : DReg) (ins : List (DReg × Nat)) (c : CtxIx) (s : State) : List Bool :=
  [decide (s.cfg.nctx ≤ c.val), !(s.ctx c).valid,
    (dr :: ins.map Prod.fst).any fun d => decide (s.cfg.memWords < s.base d + s.len d),
    ins.any fun d => s.neg d.1 && decide (s.val d.1 d.2 = 0), ins.any fun d => s.neg d.1,
    decide (s.len dr < (s.ctx c).k.toNat), ins.any fun d => s.overlap dr d.1] ++
  if ranged then [ins.any fun d => decide ((s.ctx c).m ≤ s.val d.1 d.2)] else []

/-- A one-input reduction on slot `c`: `D2` the result, `D1` the input, slot 1 invalid. -/
def reduceReport (ranged : Bool) (i : CtxIx → Instr) (c : CtxIx) (ds : List (Nat × Nat × Bool)) :
    Option Nat × Option (Nat × Nat) :=
  report (reduceConditions ranged 2 [(1, 0)] c) (i c) (barrettState ((0, 0, false) :: ds) [0xFFFFFFFB, 0])

/-- The checks `BAR.RED`, `BAR.SQR` and `BAR.CUBE` share. -/
def SharedReports (ranged : Bool) (i : CtxIx → Instr) : Prop :=
  reduceReport ranged i 4 [(0, 1, false), (64, 1, false)] = (some 0, some (1, 0x10)) ∧
  reduceReport ranged i 1 [(0, 1, false), (64, 1, false)] = (some 1, some (2, 0x20)) ∧
  reduceReport ranged i 0 [(1, 1, true), (64, 1, false)] = (some 2, some (1, 0x11)) ∧
  reduceReport ranged i 0 [(1, 1, true), (63, 1, false)] = (some 3, some (1, 0x12)) ∧
  reduceReport ranged i 0 [(0, 1, true), (63, 0, false)] = (some 4, some (1, 0x13)) ∧
  reduceReport ranged i 0 [(0, 1, false), (63, 0, false)] = (some 5, some (1, 0x16)) ∧
  reduceReport ranged i 0 [(0, 1, false), (0, 1, false)] = (some 6, some (1, 0x17))

theorem witness_ReductionChecksInOrder : SharedReports false (Instr.barRed 2 1) ∧
    SharedReports true (Instr.barSqr 2 1) ∧ SharedReports true (Instr.barCube 2 1) := by
  refine ⟨?_, ?_, ?_⟩ <;> (unfold SharedReports; decide +kernel)

/-- `BAR.RED` of `m` itself is no error; the other two refuse it. -/
theorem witness_ReductionChecksInOrder_range :
    reduceReport false (Instr.barRed 2 1) 0 [(0, 1, false), (63, 1, false)] = (none, some (0, 0)) ∧
    reduceReport true (Instr.barSqr 2 1) 0 [(0, 1, false), (63, 1, false)] = (some 7, some (1, 0x18)) ∧
    reduceReport true (Instr.barCube 2 1) 0 [(0, 1, false), (63, 1, false)] = (some 7, some (1, 0x18)) := by
  decide +kernel

/-- `BAR.MUL`: the second input alone fails each check on inputs. -/
theorem witness_ReductionChecksInOrder_product :
    let run := fun c ds => report (reduceConditions true 2 [(1, 0), (3, 1)] c) (.barMul 2 1 3 c)
      (barrettState ((0, 0, false) :: (1, 1, false) :: ds) [0xFFFFFFFB, 0])
    run 4 [(64, 1, false), (0, 1, false)] = (some 0, some (1, 0x10)) ∧
    run 1 [(64, 1, false), (0, 1, false)] = (some 1, some (2, 0x20)) ∧
    run 0 [(63, 1, false), (64, 1, true)] = (some 2, some (1, 0x11)) ∧
    run 0 [(63, 1, false), (1, 1, true)] = (some 3, some (1, 0x12)) ∧
    run 0 [(63, 0, false), (0, 1, true)] = (some 4, some (1, 0x13)) ∧
    run 0 [(63, 0, false), (0, 1, false)] = (some 5, some (1, 0x16)) ∧
    run 0 [(0, 1, false), (0, 1, false)] = (some 6, some (1, 0x17)) ∧
    run 0 [(63, 1, false), (0, 1, false)] = (some 7, some (1, 0x18)) ∧
    run 0 [(63, 1, false), (1, 1, false)] = (none, some (0, 0)) := by decide +kernel

/-! ### Witnesses: constant time -/

/-- Two states of one shape and different data, in which the command ends alike: completing here, and with
`ALIAS` below. -/
theorem witness_TraceDependsOnPublicInputsOnly : ∃ s t : State, samePublic (.mpMul 2 0 1) s t ∧
    errorDetail (.mpMul 2 0 1) s = errorDetail (.mpMul 2 0 1) t ∧ s.opmem ≠ t.opmem ∧ s.neg 2 ≠ t.neg 2 :=
  ⟨b32 [1] [(0, 2, false), (2, 2, false), (4, 4, true)] [3, 0, 5, 0],
    b32 [2] [(0, 2, false), (2, 2, false), (4, 4, false)] [4, 0, 6, 0],
    by unfold samePublic; decide +kernel, by decide +kernel, by decide +kernel, by decide +kernel⟩

theorem witness_TraceDependsOnPublicInputsOnly_error : ∃ s t : State, samePublic (.mpMul 2 0 1) s t ∧
    errorDetail (.mpMul 2 0 1) s = some 0x17#8 ∧ errorDetail (.mpMul 2 0 1) t = some 0x17#8 ∧
    s.opmem ≠ t.opmem :=
  ⟨b32 [1] [(0, 2, false), (2, 2, false), (3, 4, false)] [3, 0, 5, 0],
    b32 [2] [(0, 2, false), (2, 2, false), (3, 4, true)] [4, 0, 6, 0],
    by unfold samePublic; decide +kernel, by decide +kernel, by decide +kernel, by decide +kernel⟩

/-- A `MONT.REDC` that reports `NEGATIVE` in both states, by `z` in one and by `p` in the other. -/
theorem witness_TraceDependsOnPublicInputsOnly_negative : ∃ s t : State, samePublic (.montRedc 2 0 1 3) s t ∧
    errorDetail (.montRedc 2 0 1 3) s = some 0x13#8 ∧ errorDetail (.montRedc 2 0 1 3) t = some 0x13#8 ∧
    s.neg 0 ≠ t.neg 0 ∧ s.opmem ≠ t.opmem :=
  ⟨b32 [] [(0, 3, true), (4, 1, false), (8, 1, false)] [0, 0, 1, 0, 3],
    b32 [] [(0, 3, false), (4, 1, true), (8, 1, false)] [0, 0, 2, 0, 5],
    by unfold samePublic; decide +kernel, by decide +kernel, by decide +kernel, by decide +kernel,
    by decide +kernel⟩

/-- The public inputs of R361 beyond descriptors: a fallback of `BAR.RED` shows `x` and `m`, the Barrett path
shows `K` and the path. -/
theorem test_public_inputs :
    publicInputs (.barRed 2 1 0) (barrettState [(0, 0, false), (0, 3, false), (8, 1, false)] [0, 0, 1]) =
      [8, 1, 0, 3, 1, 1, 2 ^ 64, 0xFFFFFFFB] ∧
    publicInputs (.barRed 2 1 0) (barrettState [(0, 0, false), (0, 2, false), (8, 1, false)] [0, 1]) =
      [8, 1, 0, 2, 1, 0] := by decide +kernel

/-- `MONT.REDC` reads `2n` words of `DA`, not `D[DA].LEN` (R363). -/
theorem test_redc_trace : completedTrace (.montRedc 2 0 1 3) (b32 [] [(0, 3, false), (4, 1, false), (8, 1, false)] []) =
    some [⟨.read, 0⟩, ⟨.read, 1⟩, ⟨.read, 4⟩, ⟨.write, 8⟩] := by decide

/-- A command that raises `ALIAS`: whatever reads it made, no write (R363). -/
theorem test_failed_trace : ∀ access ∈ failedTrace (.mpMul 2 0 1)
    (b32 [] [(0, 2, false), (2, 2, false), (3, 4, false)] [3, 0, 5, 0]) 0x17#8, access.dir = .read :=
  fun _ h => (mem_possibleReads (mem_failedTrace h).2).1

/-- `DESC_BOUNDS` and the checks before it are raised before operand data is read (R72, R304); a word that does
not decode makes no access. -/
theorem test_failed_trace_no_reads :
    failedTrace (.mpMul 2 0 1) (b32 [] [(0, 2, false), (2, 2, false), (63, 4, false)] [3, 0, 5, 0]) 0x11#8 = [] ∧
    mayHaveRead 0x11#8 = false ∧ mayHaveRead 0x10#8 = false ∧ mayHaveRead 0x20#8 = false ∧ mayHaveRead 0x21#8 = false ∧
    mayHaveRead 0x12#8 = true ∧ commandWriteTrace 0x08000001#64 State.reset = some [] :=
  ⟨if_neg (by decide), by decide, by decide, by decide, by decide, by decide, rfl⟩

/-- A failed `MONT.REDC` may have read `2n` words of `DA` and no more (R206), with either `NEG`. -/
theorem test_redc_possible_reads : ∀ n ∈ [false, true],
    possibleReads (.montRedc 2 0 1 3) (b32 [] [(0, 3, n), (4, 1, true), (8, 1, false)] []) =
      [⟨.read, 0⟩, ⟨.read, 1⟩, ⟨.read, 4⟩] := by decide

/-- The premise of the error clause, and of the completion clauses on a variable-time path. -/
theorem witness_ResultsDependOnTracedReadsOnly_paths :
    (∃ t, exec (.mpMul 2 0 1) (b32 [] [(0, 2, false), (2, 2, false), (3, 4, false)] [3, 0, 5, 0]) = .next t ∧
      t.status.code ≠ 0#4) ∧
    ∃ t, exec (.barRed 2 1 0) (barrettState [(0, 0, false), (0, 3, false), (8, 1, false)] [0, 0, 1]) = .next t ∧
      t.status.code = 0#4 ∧
      variableTime (.barRed 2 1 0) (barrettState [(0, 0, false), (0, 3, false), (8, 1, false)] [0, 0, 1]) = true :=
  ⟨⟨_, rfl, by decide +kernel⟩, _, rfl, by decide +kernel, by decide +kernel⟩

/-- A `CMD` write that does not decode, a command with a descriptor at the first words outside OPMEM, and a
failed `MONT.REDC` with `NEG` 1 whose `z` is longer than `2n`. -/
theorem witness_ResultsDependOnTracedReadsOnly_errors :
    (∃ t, step (issue Config.example32 (.write cmdSlot 0x08000001#64)) = .next t ∧ t.status.code ≠ 0#4 ∧
      decode .w32 0x08000001#64 = .error .undefOpcode) ∧
    (∃ t, exec (.mpMul 2 0 1) (b32 [] [(0, 2, false), (2, 2, false), (61, 4, false)] [3, 0, 5, 0]) = .next t ∧
      t.status.code ≠ 0#4 ∧
      ¬InBounds (b32 [] [(0, 2, false), (2, 2, false), (61, 4, false)] [3, 0, 5, 0]) 2) ∧
    ∃ t, exec (.montRedc 2 0 1 3) (b32 [] [(0, 3, true), (4, 1, false), (8, 1, false)] [0, 0, 1, 0, 3]) = .next t ∧
      t.status.code ≠ 0#4 :=
  ⟨⟨_, rfl, by decide +kernel, by decide⟩, ⟨_, rfl, by decide +kernel, by unfold InBounds; decide +kernel⟩,
    _, rfl, by decide +kernel⟩

/-- A memory that differs from the state's in every word the product does not read. -/
theorem witness_ResultsDependOnTracedReadsOnly : ∃ (t : State) (m : Memory),
    exec (.mpMul 2 0 1) mulState = .next t ∧ t.status.code = 0#4 ∧
    (∀ e ∈ completedReads (.mpMul 2 0 1) mulState, m.word e.addr = mulState.opmem.word e.addr) ∧
    variableTime (.mpMul 2 0 1) mulState = false ∧ m.word 4 ≠ mulState.opmem.word 4 :=
  ⟨_, [(0, 3#64), (1, 0#64), (2, 5#64), (3, 0#64), (4, 1#64), (9, 1#64)], rfl, by decide +kernel,
    by decide +kernel, rfl, by decide +kernel⟩

end Sys2Proof.Tests
end

section
/-! PROOFS. The Montgomery steps on the accumulator (R124, R125), and the selects of a word and of an array
(R156, R157). -/

namespace Sys2Proof

variable (w : Width)

/-- The modulus of the accumulator (R120). -/
theorem Width.two_pow_three_bits : 2 ^ (3 * w.bits) = w.base ^ 3 := by
  rw [Width.base, ← Nat.pow_mul, Nat.mul_comm]

end Sys2Proof

namespace Sys2Proof.Machine

/-! ### The Montgomery steps -/

section

variable (s : State)

/-- R124 computes the digit from `ACC.A0` alone: modulo `2^W` that is the whole accumulator. -/
theorem State.quotientDigit_eq (pd : XReg) :
    s.quotientDigit pd = s.acc * s.x pd % 2 ^ s.cfg.width.bits := by
  rw [State.quotientDigit, ← s.acc_mod_base, Nat.mod_mul_mod, Width.base]

theorem State.quotientDigit_lt (pd : XReg) : s.quotientDigit pd < s.cfg.width.base :=
  Nat.mod_lt _ s.cfg.width.base_pos

/-- `ACC.A2` is what two words shifted out of the accumulator leave (R22). -/
theorem State.acc_div_base_sq : s.acc / s.cfg.width.base ^ 2 = s.accWord 2 := by
  have hlow : s.accWord 0 + s.accWord 1 * s.cfg.width.base < s.cfg.width.base ^ 2 := by
    have h0 : s.accWord 0 < s.cfg.width.base := Width.low_lt _ _
    have h1 : s.accWord 1 < s.cfg.width.base := Width.low_lt _ _
    nlinarith
  calc s.acc / s.cfg.width.base ^ 2
      = (s.accWord 0 + s.accWord 1 * s.cfg.width.base + s.accWord 2 * s.cfg.width.base ^ 2) /
          s.cfg.width.base ^ 2 := rfl
    _ = s.accWord 2 := by
      rw [Nat.add_mul_div_right _ _ (Nat.pow_pos s.cfg.width.base_pos), Nat.div_eq_of_lt hlow, Nat.zero_add]

theorem State.accWord_two_eq_zero (h : s.acc < s.cfg.width.base ^ 2) : s.accWord 2 = 0 := by
  rw [← s.acc_div_base_sq, Nat.div_eq_of_lt h]

/-- `ACC <- v` and then `X[d] <- u`. -/
theorem frame_setAcc_setX (v : Nat) (d : XReg) {u : Nat} (hu : u < s.cfg.width.base) :
    ((s.setAcc v).setX d u).completed.x d = u ∧
    ((s.setAcc v).setX d u).completed.acc = v % s.cfg.width.base ^ 3 ∧
    SameXBut d s ((s.setAcc v).setX d u).completed ∧ StatusOk s ((s.setAcc v).setX d u).completed ∧
    SameHost s ((s.setAcc v).setX d u).completed ∧ SameDescs s ((s.setAcc v).setX d u).completed ∧
    SameCtx s ((s.setAcc v).setX d u).completed ∧ SameMem s ((s.setAcc v).setX d u).completed :=
  ⟨by simp [Nat.mod_eq_of_lt hu], by simp, fun _ hr => by simp [State.x_setX_of_ne _ hr], ⟨rfl, rfl, rfl⟩,
    ⟨rfl, rfl, rfl, rfl⟩, fun _ => ⟨rfl, rfl, rfl⟩, fun _ => rfl, fun _ => rfl⟩

theorem exec_w3Mstep (d p0 pd : XReg) : exec (.w3Mstep d p0 pd) s =
    .next ((s.setAcc (s.acc + s.quotientDigit pd * s.x p0)).setX d (s.quotientDigit pd)).completed := rfl

theorem exec_w3Mstepx (d p0 pd : XReg) : exec (.w3Mstepx d p0 pd) s =
    .next ((s.setAcc ((s.acc + s.quotientDigit pd * s.x p0) % s.cfg.width.base ^ 3 /
      s.cfg.width.base)).setX d (s.quotientDigit pd)).completed := rfl

end

/-- Settles O35: the digit is that of the whole old accumulator, and the shift of `W3.MSTEPX` leaves a sum of
two words, so that `ACC.A2` is 0. -/
theorem montgomeryStepsFoldTheLowWord : Obligations.MontgomeryStepsFoldTheLowWord := by
  unfold Obligations.MontgomeryStepsFoldTheLowWord
  rintro s d p0 pd u rfl
  rw [← s.quotientDigit_eq pd, Width.two_pow_three_bits]
  have hu := s.quotientDigit_lt pd
  constructor
  · obtain ⟨hx, hacc, frame⟩ := frame_setAcc_setX s (s.acc + s.quotientDigit pd * s.x p0) d hu
    exact ⟨_, exec_w3Mstep s d p0 pd, hx, hacc, frame⟩
  · obtain ⟨hx, hacc, frame⟩ := frame_setAcc_setX s
      ((s.acc + s.quotientDigit pd * s.x p0) % s.cfg.width.base ^ 3 / s.cfg.width.base) d hu
    have hshift : (s.acc + s.quotientDigit pd * s.x p0) % s.cfg.width.base ^ 3 / s.cfg.width.base <
        s.cfg.width.base ^ 2 :=
      Nat.div_lt_of_lt_mul (by rw [← Nat.pow_succ']; exact Nat.mod_lt _ (Nat.pow_pos s.cfg.width.base_pos))
    rw [Nat.mod_eq_of_lt (hshift.trans (Nat.pow_lt_pow_right s.cfg.width.one_lt_base (by decide)))] at hacc
    exact ⟨_, exec_w3Mstepx s d p0 pd, hx, hacc, State.accWord_two_eq_zero _ (hacc.trans_lt hshift), frame⟩

/-! ### Blends -/

section

variable {w : Width} {m b : Nat}

/-- Bit `j` of `~m` on `W`-bit words. -/
theorem testBit_complement (hm : m < w.base) (j : Nat) :
    (w.base - 1 - m).testBit j = (decide (j < w.bits) && !m.testBit j) := by
  rw [Nat.sub_sub, Nat.add_comm 1 m]
  exact Nat.testBit_two_pow_sub_succ hm j

/-- A blend takes each bit by the mask's bit; above `W` bits there is none of `b` to take (R156). -/
theorem testBit_blend (hm : m < w.base) (a : Nat) (hb : b < w.base) (j : Nat) :
    (blend w m a b).testBit j = if m.testBit j then a.testBit j else b.testBit j := by
  rw [blend, Nat.testBit_or, Nat.testBit_and, Nat.testBit_and, testBit_complement hm]
  by_cases hj : j < w.bits
  · cases m.testBit j <;> simp [hj]
  · have hbj : b.testBit j = false :=
      Nat.testBit_lt_two_pow (hb.trans_le (Nat.pow_le_pow_right (by decide) (not_lt.1 hj)))
    cases m.testBit j <;> simp [hbj]

theorem blend_lt (hm : m < w.base) (a : Nat) (hb : b < w.base) : blend w m a b < w.base :=
  Nat.or_lt_two_pow ((Nat.and_le_left).trans_lt hm) ((Nat.and_le_right).trans_lt hb)

end

/-! ### The select of a word -/

/-- Settles O40: the result of `CT.SEL` is a blend of the old source registers, and a word. -/
theorem selectBlendsBitByBit : Obligations.SelectBlendsBitByBit := by
  unfold Obligations.SelectBlendsBitByBit
  intro s d m a b
  obtain ⟨hx, frame⟩ := frame_setX s d (blend s.cfg.width (s.x m) (s.x a) (s.x b))
  rw [Nat.mod_eq_of_lt (blend_lt (s.x_lt m) _ (s.x_lt b))] at hx
  refine ⟨_, succeed_completed _, fun j => ?_, frame⟩
  rw [hx, testBit_blend (s.x_lt m) _ (s.x_lt b)]

/-! ### The select of an array -/

section

variable (s : State)

/-- The words `ws` over descriptor `d`, which has their number: unlike `WriteResult`, `D[d].NEG` stays. -/
theorem frame_writeWords (d : DReg) {ws : List Nat} (hl : ws.length = s.len d) :
    (∀ (j : Nat) (hj : j < ws.length),
      (s.writeWords (s.base d) ws).completed.memWord (s.base d + j) = some (ws[j] % s.cfg.width.base)) ∧
    SameMemBut d s (s.writeWords (s.base d) ws).completed ∧ SameX s (s.writeWords (s.base d) ws).completed ∧
    StatusOk s (s.writeWords (s.base d) ws).completed ∧ SameHost s (s.writeWords (s.base d) ws).completed ∧
    SameAcc s (s.writeWords (s.base d) ws).completed ∧ SameDescs s (s.writeWords (s.base d) ws).completed ∧
    SameCtx s (s.writeWords (s.base d) ws).completed := by
  refine ⟨fun j hj => ?_, fun a ha => ?_, fun _ => rfl, ⟨rfl, rfl, rfl⟩, ⟨rfl, rfl, rfl, rfl⟩,
    ⟨rfl, rfl, rfl⟩, fun _ => ⟨rfl, rfl, rfl⟩, fun _ => rfl⟩
  · rw [State.conclude_memWord, State.memWord_writeWords, dif_pos (by omega)]
    simp only [Nat.add_sub_cancel_left]
  · rw [State.conclude_memWord, State.memWord_writeWords, dif_neg (by omega)]

/-- The words `CT.SELM` writes: the blends of the input words, `DA` read before `DB` (R157, R363). -/
def State.selmWords (da db : DReg) (xm : XReg) : List Nat :=
  List.zipWith (blend s.cfg.width (s.x xm)) (s.words da 0) (s.words db (s.len da))

theorem State.selmWords_length (da db : DReg) (xm : XReg) :
    (s.selmWords da db xm).length = min (s.len da) (s.len db) := by simp [State.selmWords, State.words]

theorem State.selmWords_getElem (da db : DReg) (xm : XReg) {j : Nat}
    (hj : j < (s.selmWords da db xm).length) :
    (s.selmWords da db xm)[j] = blend s.cfg.width (s.x xm) (s.readWord (s.base da + j) j)
      (s.readWord (s.base db + j) (s.len da + j)) := by
  simp [State.selmWords, State.words, State.readWords_getElem]

end

/-- `CT.SELM` with no failed check (R157). -/
theorem exec_ctSelm {s : State} {dr da db : DReg} (xm : XReg) (h : selmError dr da db s = none) :
    exec (.ctSelm dr da db xm) s = .next (s.writeWords (s.base dr) (s.selmWords da db xm)).completed := by
  rw [exec, execCtSelm, h]
  rfl

/-- Settles O41: all reads come first, so each word written is a blend of words of the old OPMEM. -/
theorem arraySelectBlendsEveryWord : Obligations.ArraySelectBlendsEveryWord := by
  unfold Obligations.ArraySelectBlendsEveryWord
  intro s dr da db xm hr ha hb hla hlb hoa hob
  have hlen : (s.selmWords da db xm).length = s.len dr := by rw [State.selmWords_length, hla, hlb, min_self]
  obtain ⟨hword, frame⟩ := frame_writeWords s dr hlen
  refine ⟨_, exec_ctSelm xm (selmError_eq_none hr ha hb hla hlb hoa hob),
    fun j hj => ⟨_, hword j (hlen ▸ hj), fun k => ?_⟩, frame⟩
  have hm := s.x_lt xm
  have hw := s.readWord_lt (s.base db + j) (s.len da + j)
  rw [State.selmWords_getElem, Nat.mod_eq_of_lt (blend_lt hm _ hw), testBit_blend hm _ hw]

end Sys2Proof.Machine
end

section
/-! PROOFS. What one command decides to write: `exec_congr` says once that it is one write of a few shapes,
fixed by what the command reads. The frames of R21, R23, R27, R31 and the independence from `ACC` and from the
workspace (R23, R38) follow write by write. -/

namespace Sys2Proof.Machine

/-! ### The write of a command -/

/-- What a command that completes writes before the success effect (R305), as plain data. -/
inductive Write where
  | nothing
  | clearSticky
  | acc (v : Nat)
  | accAndReg (v : Nat) (rd : XReg) (u : Nat)
  | reg (rd : XReg) (u : Nat)
  | words (dr : DReg) (ws : List Nat)
  | result (dr : DReg) (v : Nat)
  | slot (c : CtxIx) (b : BarrettCtx)

def Write.apply (s : State) : Write → State
  | .nothing => s
  | .clearSticky => { s with status := s.status.clearSticky }
  | .acc v => s.setAcc v
  | .accAndReg v rd u => (s.setAcc v).setX rd u
  | .reg rd u => s.setX rd u
  | .words dr ws => s.writeWords (s.base dr) ws
  | .result dr v => s.writeResult dr v
  | .slot c b => s.setCtx c b

/-- What R21, R23, R27 and R281 let command `i` write. -/
def Write.Fits (i : Instr) : Write → Prop
  | .clearSticky => i = .clrerr
  | .acc _ => usesAcc i = true ∧ clearedNeg i = none ∧ i ≠ .clrerr
  | .accAndReg _ rd _ => usesAcc i = true ∧ destX i = some rd ∧ clearedNeg i = none ∧ i ≠ .clrerr
  | .reg rd _ => destX i = some rd ∧ clearedNeg i = none ∧ i ≠ .clrerr
  | .result dr _ => clearedNeg i = some dr ∧ i ≠ .clrerr
  | .nothing | .words _ _ | .slot _ _ => clearedNeg i = none ∧ i ≠ .clrerr

section

variable {s t : State} {i : Instr}

/-- In `s` and in `t` the command raises one error, or makes one write. -/
def SameOutcome (i : Instr) (s t : State) : Prop :=
  (∃ e, exec i s = raise e s ∧ exec i t = raise e t) ∨
    ∃ w : Write, w.Fits i ∧ exec i s = succeed (w.apply s) ∧ exec i t = succeed (w.apply t)

theorem SameOutcome.of_write (w : Write) (hw : w.Fits i) (hs : exec i s = succeed (w.apply s))
    (ht : exec i t = succeed (w.apply t)) : SameOutcome i s t := .inr ⟨w, hw, hs, ht⟩

/-- A command whose one check function gives the same answer in both states. -/
theorem SameOutcome.of_checks {o : Option Err} (w : Write) (hw : w.Fits i)
    (hs : exec i s = match (generalizing := false) o with | some e => raise e s | none => succeed (w.apply s))
    (ht : exec i t = match (generalizing := false) o with | some e => raise e t | none => succeed (w.apply t)) :
    SameOutcome i s t := by
  cases o with
  | some e => exact .inl ⟨e, hs, ht⟩
  | none => exact .inr ⟨w, hw, hs, ht⟩

theorem SameOperands.x (h : SameOperands s t) (hx : t.regs = s.regs) (r : XReg) : t.x r = s.x r := by
  simp only [State.x, h.cfg, hx]

theorem SameOperands.acc (h : SameOperands s t) (ha : SameAcc s t) : t.acc = s.acc := by
  obtain ⟨h0, h1, h2⟩ := ha
  simp only [State.acc, h.cfg, h0, h1, h2]

theorem SameOperands.accLow (h : SameOperands s t) (ha : SameAcc s t) : t.accLow = s.accLow := by
  simp only [State.accLow, h.cfg, ha.1]

theorem SameOperands.quotientDigit (h : SameOperands s t) (hx : t.regs = s.regs) (ha : SameAcc s t)
    (pd : XReg) : t.quotientDigit pd = s.quotientDigit pd := by
  simp only [State.quotientDigit, h.accLow ha, h.x hx, h.cfg]

theorem SameOperands.ctxWords (h : SameOperands s t) (c : CtxIx) : (t.ctx c).words = (s.ctx c).words := by
  simp only [BarrettCtx.words, h.k]

/-- **What a command depends on**: operands, checks and word registers, and `ACC` for the six commands of
R23. -/
theorem exec_congr (h : SameOperands s t) (hx : t.regs = s.regs) (ha : usesAcc i = true → SameAcc s t) :
    SameOutcome i s t := by
  cases i with
  | nop => exact .of_write .nothing ⟨rfl, nofun⟩ rfl rfl
  | clrerr => exact .of_write .clearSticky rfl rfl rfl
  | w3Clr => exact .of_write (.acc 0) ⟨rfl, rfl, nofun⟩ rfl rfl
  | w3Add | w3Mul =>
    refine .of_write (.acc _) ⟨rfl, rfl, nofun⟩ rfl ?_
    simp only [← h.acc (ha rfl), ← h.x hx]; rfl
  | w3Mstep | w3Mstepx | w3Extract =>
    refine .of_write (.accAndReg _ _ _) ⟨rfl, rfl, rfl, nofun⟩ rfl ?_
    simp only [← h.acc (ha rfl), ← h.accLow (ha rfl), ← h.quotientDigit hx (ha rfl), ← h.x hx, ← h.cfg]; rfl
  | ctMaskb | ctMasknz | ctMaskz | ctMaskeq | ctMasklt | ctSel =>
    refine .of_write (.reg _ _) ⟨rfl, rfl, nofun⟩ rfl ?_
    simp only [← h.x hx, ← h.cfg]; rfl
  | ctSelm dr da db xr =>
    refine .of_checks (o := selmError dr da db s) (.words dr _) ⟨rfl, nofun⟩ rfl ?_
    simp only [← h.selmError, ← h.words, ← h.len, ← h.x hx, ← h.cfg]; rfl
  | ctCmpltm da db xr | ctCmpeqm da db xr =>
    refine .of_checks (o := compareError da db s) (.reg xr _) ⟨rfl, rfl, nofun⟩ rfl ?_
    simp only [← h.compareError, ← h.val, ← h.len, ← h.cfg]; rfl
  | mpMul dr da db =>
    refine .of_checks (o := mpMulError dr da db s) (.result dr _) ⟨rfl, nofun⟩ rfl ?_
    simp only [← h.mpMulError, ← h.val, ← h.len]; rfl
  | montPdash d a =>
    refine .of_checks (o := if s.x a % 2 = 0 then some .even else none) (.reg d (pDash s.cfg.width (s.x a)))
      ⟨rfl, rfl, nofun⟩ ?_ ?_
    · simp only [exec, execMontPdash]; split <;> rfl
    · simp only [exec, execMontPdash, h.x hx, h.cfg]; split <;> rfl
  | montRedc dr da db xr =>
    refine .of_checks (o := redcError dr da db s) (.result dr _) ⟨rfl, nofun⟩ rfl ?_
    simp only [← h.redcError, ← h.readWords, ← h.words, ← h.base, ← h.len, ← h.x hx, ← h.cfg]; rfl
  | barSetups da c | barSetupp da c =>
    refine .of_checks (o := setupError da c s) (.slot c _) ⟨rfl, nofun⟩ rfl ?_
    simp only [← h.setupError, ← h.val, ← h.cfg]; rfl
  | barFree c =>
    refine .of_checks (o := if s.cfg.nctx ≤ c.val then some .ctxIndex else none) (.slot c .empty)
      ⟨rfl, nofun⟩ ?_ ?_
    · simp only [exec, execBarFree]; split <;> rfl
    · simp only [exec, execBarFree, h.cfg]; split <;> rfl
  | barRed dr da c =>
    refine .of_checks (o := reduceError false dr [(da, 0)] c s) (.result dr _) ⟨rfl, nofun⟩ rfl ?_
    simp only [← h.reduceError, ← h.val, ← h.ctxWords, ← h.m, ← h.barrett, ← h.cfg]; rfl
  | barMul dr da db c | barSqr dr da c | barCube dr da c =>
    refine .of_checks (o := reduceError true dr _ c s) (.result dr _) ⟨rfl, nofun⟩ rfl ?_
    simp only [← h.reduceError, ← h.val, ← h.len, ← h.barrett]; rfl

end

theorem SameOperands.refl (s : State) : SameOperands s s :=
  ⟨rfl, rfl, rfl, rfl, fun _ => rfl, fun _ => rfl, fun _ => rfl, fun _ => rfl⟩

/-- The next state of a command: the error effect, or one write that fits the command and the success
effect. -/
theorem exec_next_write {s t : State} {i : Instr} (h : exec i s = .next t) :
    (∃ e, t = s.conclude (Status.failure e)) ∨ ∃ w : Write, w.Fits i ∧ t = (w.apply s).completed := by
  rcases exec_congr (i := i) (.refl s) rfl fun _ => ⟨rfl, rfl, rfl⟩ with ⟨e, he, -⟩ | ⟨w, hw, he, -⟩ <;>
    rw [he] at h
  · exact .inl ⟨e, (Host.Outcome.next.inj h).symm⟩
  · exact .inr ⟨w, hw, (Host.Outcome.next.inj h).symm⟩

/-! ### What a write leaves unchanged -/

namespace Write

variable (s : State) {w : Write} {i : Instr}

theorem apply_x (hw : w.Fits i) {r : XReg} (hr : destX i ≠ some r) : (w.apply s).x r = s.x r := by
  cases w with
  | accAndReg v rd u =>
    obtain ⟨-, hd, -⟩ := hw
    exact (s.setAcc v).x_setX_of_ne (by rintro rfl; exact hr hd) u
  | reg rd u =>
    obtain ⟨hd, -⟩ := hw
    exact s.x_setX_of_ne (by rintro rfl; exact hr hd) u
  | _ => rfl

theorem apply_base (d : DReg) : (w.apply s).base d = s.base d := by
  cases w with
  | result dr v => exact s.base_writeResult dr v d
  | _ => rfl

theorem apply_len (d : DReg) : (w.apply s).len d = s.len d := by
  cases w with
  | result dr v => exact s.len_writeResult dr v d
  | _ => rfl

theorem apply_neg (hw : w.Fits i) (d : DReg) :
    (w.apply s).neg d = if clearedNeg i = some d then false else s.neg d := by
  cases w with
  | result dr v =>
    obtain ⟨hr, -⟩ := hw
    simp only [apply, State.neg_writeResult, hr, Option.some.injEq, eq_comm]
  | clearSticky => subst hw; rfl
  | acc v | reg rd u => obtain ⟨-, hn, -⟩ := hw; rw [hn]; rfl
  | accAndReg v rd u => obtain ⟨-, -, hn, -⟩ := hw; rw [hn]; rfl
  | nothing | words dr ws | slot c b => obtain ⟨hn, -⟩ := hw; rw [hn]; rfl

theorem apply_sticky (hw : w.Fits i) :
    (w.apply s).status.sticky = if i = .clrerr then false else s.status.sticky := by
  cases w with
  | clearSticky => subst hw; rfl
  | acc v | reg rd u => obtain ⟨-, -, hi⟩ := hw; rw [if_neg hi]; rfl
  | accAndReg v rd u => obtain ⟨-, -, -, hi⟩ := hw; rw [if_neg hi]; rfl
  | nothing | words dr ws | result dr v | slot c b => obtain ⟨-, hi⟩ := hw; rw [if_neg hi]; rfl

theorem apply_sameAcc (hw : w.Fits i) (hi : usesAcc i = false) : SameAcc s (w.apply s) := by
  cases w with
  | acc v | accAndReg v rd u => exact absurd hw.1 (by simp [hi])
  | _ => exact ⟨rfl, rfl, rfl⟩

end Write

/-- `STATUS` after a command (R31, R305, R306). -/
theorem exec_status {s t : State} {i : Instr} (h : exec i s = .next t) :
    (t.status.code ≠ 0#4 ∧ t.status.sticky = true) ∨
      t.status.code = 0#4 ∧ t.status.sticky = if i = .clrerr then false else s.status.sticky := by
  rcases exec_next_write h with ⟨e, rfl⟩ | ⟨w, hw, rfl⟩
  · exact .inl ⟨e.code_ne_zero, rfl⟩
  · exact .inr ⟨rfl, w.apply_sticky s hw⟩

/-- Settles O15: a write that fits the command leaves every register but its destination. -/
theorem onlyTheDestinationRegisterChanges : Obligations.OnlyTheDestinationRegisterChanges := by
  unfold Obligations.OnlyTheDestinationRegisterChanges
  intro i s t r h hne
  by_contra hr
  rcases exec_next_write h with ⟨e, rfl⟩ | ⟨w, hw, rfl⟩
  · exact hne rfl
  · exact hne (w.apply_x s hw hr)

/-- Settles O17: of the writes only a result touches a descriptor, and it only clears `NEG`. -/
theorem descriptorsKeepBaseAndLen : Obligations.DescriptorsKeepBaseAndLen := by
  unfold Obligations.DescriptorsKeepBaseAndLen
  intro i s t d h
  rcases exec_next_write h with ⟨e, rfl⟩ | ⟨w, hw, rfl⟩
  · exact ⟨rfl, rfl, by simp [e.code_ne_zero]⟩
  · exact ⟨w.apply_base s d, w.apply_len s d, by simp [w.apply_neg s hw]⟩

/-! ### Independence from `ACC` and from the workspace -/

/-- A write that does not touch `ACC` leaves the same state whatever `ACC` holds. -/
theorem Write.completed_apply_withAcc (s : State) (x0 x1 x2 : Word) {w : Write} {i : Instr} (hw : w.Fits i)
    (hi : usesAcc i = false) : (w.apply { s with a0 := x0, a1 := x1, a2 := x2 }).completed =
      { (w.apply s).completed with a0 := x0, a1 := x1, a2 := x2 } := by
  cases w with
  | acc v | accAndReg v rd u => exact absurd hw.1 (by simp [hi])
  | _ => rfl

/-- Settles O16: neither the command's write nor the state it leaves rests on `ACC`. -/
theorem onlyWord3CommandsUseTheAccumulator : Obligations.OnlyWord3CommandsUseTheAccumulator := by
  unfold Obligations.OnlyWord3CommandsUseTheAccumulator
  intro i s x0 x1 x2 hi
  have same : SameOperands s { s with a0 := x0, a1 := x1, a2 := x2 } :=
    ⟨rfl, rfl, rfl, rfl, fun _ => rfl, fun _ => rfl, fun _ => rfl, fun _ => rfl⟩
  rcases exec_congr (i := i) same rfl (by simp [hi]) with ⟨e, hs, hs'⟩ | ⟨w, hw, hs, hs'⟩
  · exact ⟨_, hs, ⟨rfl, rfl, rfl⟩, hs'⟩
  · refine ⟨_, hs, w.apply_sameAcc s hw hi, ?_⟩
    rw [hs', succeed_completed, w.completed_apply_withAcc s x0 x1 x2 hw hi]

/-- Every write leaves the same state, once the command has cleared the workspace (R38). -/
theorem Write.completed_apply_withWsram (s : State) (m : Memory) (w : Write) :
    (w.apply { s with wsram := m }).completed = (w.apply s).completed := by
  cases w <;> rfl

/-- Settles O20: the write rests on nothing of the workspace, which the end of the command clears. -/
theorem workspaceIsWipedAndUnused : Obligations.WorkspaceIsWipedAndUnused := by
  unfold Obligations.WorkspaceIsWipedAndUnused
  intro i s m
  have same : SameOperands s { s with wsram := m } :=
    ⟨rfl, rfl, rfl, rfl, fun _ => rfl, fun _ => rfl, fun _ => rfl, fun _ => rfl⟩
  rcases exec_congr (i := i) same rfl fun _ => ⟨rfl, rfl, rfl⟩ with ⟨e, hs, hs'⟩ | ⟨w, hw, hs, hs'⟩
  · exact ⟨_, hs, rfl, hs'⟩
  · exact ⟨_, hs, rfl, by rw [hs', succeed_completed, w.completed_apply_withWsram]⟩

end Sys2Proof.Machine
end

section
/-! PROOFS. The invariant of the machine (R20, R24, R30, R35, R37, R38, R60, R302): each update of the state
keeps it, so every effect of a command and every access of the host does; and reset sets it up (R43). -/

namespace Sys2Proof.Machine

/-! ### The slot map names words of OPMEM -/

/-- An OPMEM word a port names is one of the `MEM_WORDS` (R60, R63). -/
def Port.InRange (cfg : Config) : Port → Prop
  | .opmem a => a < cfg.memWords
  | _ => True

section

variable {cfg : Config} {c : Prop} [Decidable c]

theorem Port.inRange_ite {p q : Port} (hp : c → p.InRange cfg) (hq : q.InRange cfg) :
    (if c then p else q).InRange cfg := iteInduction hp fun _ => hq

theorem Port.inRange_dite {p : c → Port} {q : Port} (hp : ∀ h, (p h).InRange cfg) (hq : q.InRange cfg) :
    (if h : c then p h else q).InRange cfg := by
  by_cases h : c
  · rw [dif_pos h]; exact hp h
  · rw [dif_neg h]; exact hq

end

theorem portOf_inRange (cfg : Config) (slot : SlotAddr) : (portOf cfg slot).InRange cfg := by
  unfold portOf
  refine Port.inRange_ite (fun _ => trivial) <| Port.inRange_ite (fun _ => trivial) <|
    Port.inRange_ite (fun _ => trivial) <| Port.inRange_ite (fun _ => trivial) <|
    Port.inRange_ite (fun _ => trivial) <| Port.inRange_ite (fun _ => trivial) <|
    Port.inRange_dite (fun _ => trivial) <| Port.inRange_dite (fun _ => ?_) <|
    Port.inRange_dite (fun _ => trivial) <| Port.inRange_ite (fun _ => trivial) <|
    Port.inRange_dite (fun _ => ?_) <| Port.inRange_ite (fun _ => trivial) <| Port.inRange_ite id trivial
  · exact Port.inRange_ite (fun _ => trivial) trivial
  · exact Port.inRange_ite (fun _ => trivial) trivial

/-! ### Updates of the state -/

theorem Status.Legal.success (st : Status) : st.success.Legal := .inl ⟨rfl, rfl⟩

theorem Status.Legal.failure (e : Err) : (Status.failure e).Legal := .inr ⟨e, rfl⟩

theorem BarrettCtx.Legal.empty (cfg : Config) : BarrettCtx.empty.Legal cfg := rfl

namespace State.Inv

variable {s : State} (h : s.Inv)
include h

theorem conclude {st : Status} (hst : st.Legal) : (s.conclude st).Inv := { h with status := hst, wsram := rfl }

theorem withHost (rest : List HostAction) : (s.withHost rest).Inv := { h with }

theorem setX (r : XReg) (v : Nat) : (s.setX r v).Inv :=
  { h with
    regs := fun i => by
      simp only [State.setX_regs, State.setX_cfg, Fin.getElem_fin, Vector.getElem_set]
      split
      · exact Width.cell_lt _ _
      · exact h.regs i }

theorem setAcc (v : Nat) : (s.setAcc v).Inv :=
  { h with acc := ⟨Width.cell_lt _ _, Width.cell_lt _ _, Width.cell_lt _ _⟩ }

/-- A descriptor with fields of their widths in place of another. -/
theorem setDesc (d : DReg) {x : Descriptor} (hb : x.base.toNat < s.cfg.width.base)
    (hl : x.len.toNat < 2 ^ (s.cfg.width.bits - 1)) : ({ s with descs := s.descs.set d x } : State).Inv :=
  { h with
    descs := fun e => by
      simp only [Fin.getElem_fin, Vector.getElem_set]
      split
      · exact ⟨hb, hl⟩
      · exact h.descs e }

theorem clearNeg (d : DReg) : (s.clearNeg d).Inv := h.setDesc d (h.descs d).1 (h.descs d).2

theorem setBase (d : DReg) (v : Nat) : (s.setBase d v).Inv := h.setDesc d (Width.cell_lt _ _) (h.descs d).2

theorem setLenNeg (d : DReg) (v : Nat) : (s.setLenNeg d v).Inv := by
  refine h.setDesc d (h.descs d).1 ?_
  rw [BitVec.toNat_ofNat]
  exact (Nat.mod_le _ _).trans_lt (Nat.mod_lt _ (Nat.two_pow_pos _))

theorem setAccWord (j : Fin 3) (v : Nat) : (s.setAccWord j v).Inv := by
  obtain ⟨h0, h1, h2⟩ := h.acc
  have hv := Width.cell_lt s.cfg.width v
  match j with
  | 0 => exact { h with acc := ⟨hv, h1, h2⟩ }
  | 1 => exact { h with acc := ⟨h0, hv, h2⟩ }
  | 2 => exact { h with acc := ⟨h0, h1, hv⟩ }

/-- Words written inside OPMEM. -/
theorem writeWords {a : Nat} {ws : List Nat} (ha : a + ws.length ≤ s.cfg.memWords) :
    (s.writeWords a ws).Inv :=
  { h with
    opmemWf := Memory.storeAll_wf h.opmemWf _ _
    opmemRange := fun p hp => by
      rcases Memory.mem_storeAll hp with ⟨-, hlt, hmem⟩ | hmem
      · obtain ⟨v, -, hv⟩ := List.mem_map.1 hmem
        rw [List.length_map] at hlt
        exact ⟨hlt.trans_le ha, hv ▸ Width.cell_lt _ _⟩
      · exact h.opmemRange p hmem }

theorem writeResult {d : DReg} (hd : s.inBounds d = true) (v : Nat) : (s.writeResult d v).Inv :=
  (h.writeWords (by rw [wordsOfNat_length]; exact (s.inBounds_iff d).1 hd)).clearNeg d

/-- A reducer in a slot of the engine, or an emptied slot. -/
theorem setCtx {c : CtxIx} {b : BarrettCtx} (hb : b.Legal s.cfg) (hc : c.val < s.cfg.nctx) :
    (s.setCtx c b).Inv :=
  { h with
    bctx := fun k => by
      rw [State.ctx_setCtx]
      split
      · subst k; exact ⟨hb, fun hk => absurd hc (not_lt.2 hk)⟩
      · exact h.bctx k }

/-! ### Commands and host accesses -/

/-- Every effect of a command keeps the invariant, whatever legal `STATUS` follows it. -/
theorem effect {i : Instr} {u : State} (hu : Effect s i u) {st : Status} (hst : st.Legal) :
    (u.conclude st).Inv := by
  cases i with
  | nop => subst hu; exact h.conclude hst
  | clrerr => subst hu; exact { h.conclude hst with }
  | w3Clr | w3Add | w3Mul => obtain ⟨v, rfl⟩ := hu; exact (h.setAcc v).conclude hst
  | w3Mstep | w3Mstepx | w3Extract =>
    obtain ⟨v, x, rfl⟩ := hu; exact ((h.setAcc v).setX _ x).conclude hst
  | ctMaskb | ctMasknz | ctMaskz | ctMaskeq | ctMasklt | ctSel | montPdash | ctCmpltm | ctCmpeqm =>
    obtain ⟨x, rfl⟩ := hu; exact (h.setX _ x).conclude hst
  | ctSelm =>
    obtain ⟨hb, ws, hl, rfl⟩ := hu
    exact (h.writeWords (by rw [hl]; exact (s.inBounds_iff _).1 hb)).conclude hst
  | mpMul | montRedc | barRed | barMul | barSqr | barCube =>
    obtain ⟨hb, v, rfl⟩ := hu; exact (h.writeResult hb v).conclude hst
  | barSetups | barSetupp => obtain ⟨hc, -, b, hb, -, rfl⟩ := hu; exact (h.setCtx hb hc).conclude hst
  | barFree => obtain ⟨hc, rfl⟩ := hu; exact (h.setCtx (.empty _) hc).conclude hst

theorem exec {i : Instr} {t : State} (ht : Machine.exec i s = .next t) : t.Inv := by
  rcases exec_next_cases ht with ⟨e, rfl⟩ | ⟨u, hu, rfl⟩
  · exact h.conclude (.failure e)
  · exact h.effect hu (.success _)

theorem hostRead (slot : SlotAddr) : (hostRead slot s).Inv := { h with }

theorem setPort (v : Nat) {p : Port} (hp : p.InRange s.cfg) : (s.setPort v p).Inv := by
  cases p with
  | x r => exact h.setX r v
  | dbase d => exact h.setBase d v
  | dlen d => exact h.setLenNeg d v
  | acc j => exact h.setAccWord j v
  | opmem a => exact h.writeWords hp
  | _ => exact h

end State.Inv

theorem State.Inv.hostWrite {s : State} (h : s.Inv) (slot : SlotAddr) (v : Word) : (hostWrite slot v s).Inv :=
  { h.setPort (s.cfg.width.low v) (portOf_inRange s.cfg slot) with }

/-! ### Reset -/

theorem inv_resetWith (cfg : Config) (host : List HostAction) (reads : List Word) (draws : Nat) :
    (State.resetWith cfg host reads draws).Inv where
  regs i := by simp [State.resetWith, Width.base_pos]
  acc := ⟨cfg.width.base_pos, cfg.width.base_pos, cfg.width.base_pos⟩
  descs d := by simp [State.resetWith, Width.base_pos]
  status := .inl ⟨rfl, rfl⟩
  bctx c := by
    have hc : (State.resetWith cfg host reads draws).ctx c = BarrettCtx.empty := by
      simp [State.resetWith, State.ctx]
    rw [hc]
    exact ⟨BarrettCtx.Legal.empty _, fun _ => rfl⟩
  wsram := rfl
  opmemWf := List.Pairwise.nil
  opmemRange := by simp [State.resetWith]

/-- Settles O31. -/
theorem resetMeetsInvariant : Obligations.ResetMeetsInvariant := by
  unfold Obligations.ResetMeetsInvariant
  exact ⟨inv_resetWith, inv_resetWith _ _ _ _⟩

/-- Settles O32: each kind of step ends in an update that keeps the invariant, or in a reset. -/
theorem stepKeepsInvariant : Obligations.StepKeepsInvariant := by
  unfold Obligations.StepKeepsInvariant
  intro s t h ht
  rcases step_cases ht with ⟨-, rfl⟩ | ⟨slot, rest, -, rfl⟩ | ⟨v, rest, i, -, -, hi⟩ |
    ⟨v, rest, e, -, -, rfl⟩ | ⟨slot, v, rest, -, -, rfl⟩ | ⟨rest, -, rfl⟩
  · exact h
  · exact (h.withHost rest).hostRead slot
  · exact (h.withHost rest).exec hi
  · exact (h.withHost rest).conclude (.failure _)
  · exact (h.withHost rest).hostWrite slot v
  · exact inv_resetWith _ _ _ _

end Sys2Proof.Machine
end

section
/-! PROOFS. What a step keeps: `STICKY`, but for `CLRERR` and reset (R31), and a valid Barrett slot, but for
`BAR.FREE` of it and reset (R37). -/

namespace Sys2Proof.Machine

/-! ### Steps that run a command -/

/-- Settles O8: a `CMD` write runs what its value decodes to. -/
theorem stepRunsDecodedCommand : Obligations.StepRunsDecodedCommand := by
  unfold Obligations.StepRunsDecodedCommand
  intro s v rest i hs hd
  rw [step_of_cmd hs, runCommand, State.withHost_cfg, hd]

/-- A host write of `ACC` word `j` leaves all else (R22). -/
theorem frame_setAccWord (s : State) (j : Fin 3) (v : Nat) :
    (s.setAccWord j v).regs = s.regs ∧ (s.setAccWord j v).descs = s.descs ∧
    (s.setAccWord j v).status = s.status ∧ (s.setAccWord j v).bctx = s.bctx ∧
    (s.setAccWord j v).opmem = s.opmem ∧ (s.setAccWord j v).cfg = s.cfg ∧
    (s.setAccWord j v).reads = s.reads := by
  match j with
  | 0 | 1 | 2 => exact ⟨rfl, rfl, rfl, rfl, rfl, rfl, rfl⟩

@[simp] theorem hostWrite_status (slot : SlotAddr) (v : Word) (s : State) :
    (hostWrite slot v s).status = s.status := by
  unfold hostWrite
  cases portOf s.cfg slot with
  | acc j => obtain ⟨-, -, hstatus, -⟩ := frame_setAccWord s j (s.cfg.width.low v); exact hstatus
  | _ => rfl

@[simp] theorem hostWrite_ctx (slot : SlotAddr) (v : Word) (s : State) (c : CtxIx) :
    (hostWrite slot v s).ctx c = s.ctx c := by
  unfold hostWrite
  cases portOf s.cfg slot with
  | acc j => obtain ⟨-, -, -, hbctx, -⟩ := frame_setAccWord s j (s.cfg.width.low v); exact congrArg (·[c]) hbctx
  | _ => rfl

/-- Settles O13: by what a command leaves in `STATUS`; no other host access touches it. -/
theorem onlyClrerrAndResetClearSticky : Obligations.OnlyClrerrAndResetClearSticky := by
  unfold Obligations.OnlyClrerrAndResetClearSticky
  constructor
  · intro s t v rest hs ht
    rw [step_of_cmd hs] at ht
    rcases runCommand_cases v (s.withHost rest) with ⟨i, hd, hr⟩ | ⟨e, hd, hr⟩ <;> rw [hr] at ht <;>
      rw [State.withHost_cfg] at hd
    · have hst := exec_status ht
      refine ⟨fun hc => ?_, fun hc hi => ?_, fun hi => ?_⟩
      · exact (hst.resolve_right fun h => hc h.1).2
      · have hi' : i ≠ .clrerr := by rintro rfl; exact hi hd
        simpa [hi'] using (hst.resolve_left fun h => h.1 hc).2
      · obtain rfl := Except.ok.inj (hd.symm.trans hi)
        obtain rfl := Host.Outcome.next.inj ht
        rfl
    · obtain rfl := Host.Outcome.next.inj ht
      simp [hd, Err.code_ne_zero]
  · intro s t ht hset hclear
    rcases step_cases ht with ⟨-, rfl⟩ | ⟨slot, rest, -, rfl⟩ | ⟨v, rest, i, hs, hd, hi⟩ |
      ⟨v, rest, e, -, -, rfl⟩ | ⟨slot, v, rest, -, -, rfl⟩ | ⟨rest, hs, -⟩
    · exact absurd hset (by simp [hclear])
    · exact absurd hset (by simpa [hostRead] using hclear)
    · refine .inr ⟨v, rest, hs, ?_⟩
      rcases exec_status hi with ⟨-, hsticky⟩ | ⟨-, hsticky⟩
      · exact absurd hsticky (by simp [hclear])
      · by_cases hc : i = .clrerr
        · rw [hd, hc]
        · rw [if_neg hc] at hsticky
          exact absurd hset (by simpa [hclear] using hsticky.symm)
    · exact absurd hclear (by simp)
    · exact absurd hset (by simpa using hclear)
    · exact .inl ⟨rest, hs⟩

/-- A command leaves a valid slot, but for `BAR.FREE` of it: a setup writes an invalid one (R37, R231). -/
theorem Effect.ctx_of_valid {s u : State} {i : Instr} (h : Effect s i u) {c : CtxIx}
    (hv : (s.ctx c).valid = true) (hi : i ≠ .barFree c) : u.ctx c = s.ctx c := by
  cases i with
  | nop | clrerr => subst h; rfl
  | w3Clr | w3Add | w3Mul | ctMaskb | ctMasknz | ctMaskz | ctMaskeq | ctMasklt | ctSel | montPdash
  | ctCmpltm | ctCmpeqm => obtain ⟨v, rfl⟩ := h; rfl
  | w3Mstep | w3Mstepx | w3Extract => obtain ⟨v, x, rfl⟩ := h; rfl
  | ctSelm => obtain ⟨-, ws, -, rfl⟩ := h; rfl
  | mpMul | montRedc | barRed | barMul | barSqr | barCube => obtain ⟨-, v, rfl⟩ := h; rfl
  | barSetups da k | barSetupp da k =>
    obtain ⟨-, hk, b, -, -, rfl⟩ := h
    exact (s.ctx_setCtx k b c).trans (if_neg (by rintro rfl; simp [hk] at hv))
  | barFree k =>
    obtain ⟨-, rfl⟩ := h
    exact (s.ctx_setCtx k _ c).trans (if_neg (by rintro rfl; exact hi rfl))

/-- Settles O18. -/
theorem validSlotsAreImmutable : Obligations.ValidSlotsAreImmutable := by
  unfold Obligations.ValidSlotsAreImmutable
  intro s t c ht hv hne
  rcases step_cases ht with ⟨-, rfl⟩ | ⟨slot, rest, -, rfl⟩ | ⟨v, rest, i, hs, hd, hi⟩ |
    ⟨v, rest, e, -, -, rfl⟩ | ⟨slot, v, rest, -, -, rfl⟩ | ⟨rest, hs, rfl⟩
  · exact absurd rfl hne
  · exact absurd rfl hne
  · rcases exec_next_cases hi with ⟨e, rfl⟩ | ⟨u, hu, rfl⟩
    · exact absurd rfl hne
    · by_cases hc : i = .barFree c
      · subst hc
        obtain ⟨-, rfl⟩ := hu
        exact ⟨by simp [State.ctx_setCtx], .inr ⟨v, rest, hs, hd⟩⟩
      · exact absurd (hu.ctx_of_valid hv hc) hne
  · exact absurd rfl hne
  · exact absurd (hostWrite_ctx slot v _ c) hne
  · exact ⟨by simp [platformReset, State.resetWith, State.ctx], .inl ⟨rest, hs⟩⟩

end Sys2Proof.Machine
end

section
/-! PROOFS. The host's reads and writes of the slots of R63 (R64 to R66, R74), and reset (R43, R340). -/

namespace Sys2Proof.Machine

/-! ### Reads -/

section

variable {cfg : Config} {slot : SlotAddr}

theorem portOf_id (h : slot.toNat = 0x0) : portOf cfg slot = .id := by
  unfold portOf; exact if_pos h

theorem portOf_config (h : slot.toNat = 0x1) : portOf cfg slot = .config := by
  unfold portOf; rw [h]; rfl

theorem portOf_memsize (h : slot.toNat = 0x2) : portOf cfg slot = .memsize := by
  unfold portOf; rw [h]; rfl

theorem portOf_status (h : slot.toNat = 0x3) : portOf cfg slot = .status := by
  unfold portOf; rw [h]; rfl

theorem portOf_cmd (h : slot.toNat = 0x4) : portOf cfg slot = .cmd := by
  unfold portOf; rw [h]; rfl

end

section

variable (s : State)

theorem State.portValue_withHost (rest : List HostAction) (p : Port) :
    (s.withHost rest).portValue p = s.portValue p := by cases p <;> rfl

theorem two_pow_32_le_base (w : Width) : 2 ^ 32 ≤ w.base := by cases w <;> decide

theorem configWord_lt (cfg : Config) : configWord cfg < 2 ^ 32 := by
  have := cfg.legal
  have := cfg.width.bits_le
  unfold configWord
  omega

theorem Status.word_lt (st : Status) : st.word < 2 ^ 32 := by
  have := st.code.isLt
  have := st.detail.isLt
  unfold Status.word
  split <;> omega

theorem Mode.bit_mul_two (m : Mode) : m.bit * 2 = if m = .publicModulus then 2 else 0 := by
  cases m <;> rfl

theorem BarrettCtx.info_lt (b : BarrettCtx) : b.info < 2 ^ 32 := by
  have := b.k.isLt
  unfold BarrettCtx.info
  rw [b.mode.bit_mul_two]
  split <;> split <;> omega

theorem State.lenNeg_lt (d : DReg) : s.lenNeg d < s.cfg.width.base := by
  have hlen : s.len d < 2 ^ (s.cfg.width.bits - 1) := Nat.mod_lt _ (Nat.two_pow_pos _)
  have hbase : s.cfg.width.base = 2 ^ (s.cfg.width.bits - 1) + 2 ^ (s.cfg.width.bits - 1) := by
    rw [← Nat.two_mul, ← Nat.pow_succ', Width.base, Nat.succ_eq_add_one,
      Nat.sub_add_cancel s.cfg.width.bits_pos]
  unfold State.lenNeg
  split <;> omega

end

/-- Every value a slot holds fits the `W` bits of an access (R62). -/
theorem State.portValue_lt (s : State) {p : Port} (hp : p.InRange s.cfg) : s.portValue p < s.cfg.width.base := by
  have h32 := two_pow_32_le_base s.cfg.width
  have := s.cfg.legal
  cases p with
  | id => exact lt_of_lt_of_le (show 0x4D524544 < 2 ^ 32 by decide) h32
  | config => exact (configWord_lt s.cfg).trans_le h32
  | memsize => simp only [State.portValue]; omega
  | status => exact s.status.word_lt.trans_le h32
  | cmd => exact s.cfg.width.base_pos
  | x r => exact s.x_lt r
  | dbase d => exact Width.low_lt _ _
  | dlen d => exact s.lenNeg_lt d
  | acc j => match j with | 0 | 1 | 2 => exact Width.low_lt _ _
  | bctxinfo c => exact (s.ctx c).info_lt.trans_le h32
  | opmem a => exact s.readWord_lt a 0
  | reserved => exact s.cfg.width.base_pos

/-- A host read gives the value of the slot's port, and nothing of the engine changes (R65, R74). -/
theorem step_read {s : State} {slot : SlotAddr} {rest : List HostAction} (h : s.host = .read slot :: rest) :
    ∃ v : Word, step s = .next { s with host := rest, reads := v :: s.reads, draws := s.draws + 1 } ∧
      v.toNat = s.portValue (portOf s.cfg slot) := by
  refine ⟨_, step_of_read h, ?_⟩
  rw [Width.toNat_cell, State.portValue_withHost, State.withHost_cfg,
    Nat.mod_eq_of_lt (s.portValue_lt (portOf_inRange s.cfg slot))]

/-- Settles O23: the value read is that of the port which R63 gives the slot. -/
theorem hostReadsReturnTheSlotMap : Obligations.HostReadsReturnTheSlotMap := by
  unfold Obligations.HostReadsReturnTheSlotMap
  intro s slot rest h
  obtain ⟨v, hstep, hv⟩ := step_read h
  refine ⟨v, hstep, fun h => ?_, fun h => ?_, fun h => ?_, fun h => ?_, fun h => ?_, fun r h => ?_,
    fun d h => ?_, fun d h => ?_, fun h => ?_, fun h => ?_, fun h => ?_, fun c hc h => ?_,
    fun a x ha h hx => ?_⟩ <;> rw [hv]
  · rw [portOf_id h]; rfl
  · rw [portOf_config h]; rfl
  · rw [portOf_memsize h]; rfl
  · rw [portOf_status h]; rfl
  · rw [portOf_cmd h]; rfl
  · rw [portOf_x h]; rfl
  · rw [portOf_dbase h]; rfl
  · rw [portOf_dlen h]; rfl
  · rw [portOf_acc (j := 0) h]; rfl
  · rw [portOf_acc (j := 1) h]; rfl
  · rw [portOf_acc (j := 2) h]; rfl
  · rw [portOf_bctxinfo hc h, ← Mode.bit_mul_two]; rfl
  · rw [portOf_opmem ha h]; exact State.readWord_of_memWord hx 0

/-- No port's value has anything of a slot's `M` and `MU` (R35, R36). -/
theorem State.portValue_setCtx_secrets (s : State) (c : CtxIx) (m mu : Nat) (p : Port) :
    (s.setCtx c { s.ctx c with m := m, mu := mu }).portValue p = s.portValue p := by
  cases p with
  | bctxinfo k =>
    simp only [State.portValue, State.ctx_setCtx]
    split
    · subst k; rfl
    · rfl
  | _ => rfl

/-- Settles O22: the value read is a port's value, which rests on no `M` or `MU`. -/
theorem slotSecretsAreUnreadable : Obligations.SlotSecretsAreUnreadable := by
  unfold Obligations.SlotSecretsAreUnreadable
  intro s c m mu slot rest h
  refine ⟨_, _, step_of_read h, step_of_read h, ?_⟩
  simp only [hostRead, State.portValue_withHost, State.portValue_setCtx_secrets, State.withHost_cfg,
    State.withHost_reads, State.setCtx_cfg, State.setCtx_reads]

/-! ### Writes -/

theorem State.setPort_withHost (s : State) (rest : List HostAction) (v : Nat) (p : Port) :
    (s.withHost rest).setPort v p = { s.setPort v p with host := rest } := by
  cases p with
  | acc j => match j with | 0 | 1 | 2 => rfl
  | _ => rfl

/-- A host write of a slot other than `CMD` writes the port that R63 gives the slot (R65). -/
theorem step_write {s : State} {slot : SlotAddr} {v : Word} {rest : List HostAction}
    (h : s.host = .write slot v :: rest) (hs : slot.toNat ≠ 0x4) :
    step s = .next { s.setPort (s.cfg.width.low v) (portOf s.cfg slot) with
      host := rest, draws := s.draws + 1 } := by
  rw [step_of_write h (by rintro rfl; exact hs rfl), hostWrite, State.setPort_withHost]
  rfl

/-- Settles O26. -/
theorem readOnlySlotsIgnoreWrites : Obligations.ReadOnlySlotsIgnoreWrites := by
  unfold Obligations.ReadOnlySlotsIgnoreWrites
  intro s slot v rest hro h
  have hs : slot.toNat ≠ 0x4 := by unfold SlotReadOnly at hro; omega
  rw [step_write h hs, setPort_of_readOnly s _ hro]

section

variable (s : State)

theorem State.desc_setBase (d : DReg) (v : Nat) (e : DReg) :
    (s.setBase d v).descs[e] =
      if e = d then { s.descs[d] with base := s.cfg.width.cell v } else s.descs[e] := by
  simp only [State.setBase_descs, Fin.getElem_fin, Vector.getElem_set, Fin.ext_iff, eq_comm]

/-- `D[d].BASE <- v` (R25). -/
theorem frame_setBase (d : DReg) (v : Nat) :
    (s.setBase d v).base d = v % s.cfg.width.base ∧ (s.setBase d v).len d = s.len d ∧
    (s.setBase d v).neg d = s.neg d ∧
    ∀ e : DReg, e ≠ d → (s.setBase d v).base e = s.base e ∧ (s.setBase d v).len e = s.len e ∧
      (s.setBase d v).neg e = s.neg e := by
  simp only [State.base, State.len, State.neg, State.desc_setBase, State.setBase_cfg]
  exact ⟨by simp, by simp, by simp, fun e he => by simp [he]⟩

theorem State.desc_setLenNeg (d : DReg) (v : Nat) (e : DReg) :
    (s.setLenNeg d v).descs[e] =
      if e = d then { s.descs[d] with
        len := BitVec.ofNat 63 (v % 2 ^ (s.cfg.width.bits - 1))
        neg := v.testBit (s.cfg.width.bits - 1) } else s.descs[e] := by
  simp only [State.setLenNeg, Fin.getElem_fin, Vector.getElem_set, Fin.ext_iff, eq_comm]

/-- `D[d].LEN` and `D[d].NEG` from one slot value (R25). -/
theorem frame_setLenNeg (d : DReg) (v : Nat) :
    (s.setLenNeg d v).len d = v % 2 ^ (s.cfg.width.bits - 1) ∧
    (s.setLenNeg d v).neg d = v.testBit (s.cfg.width.bits - 1) ∧ (s.setLenNeg d v).base d = s.base d ∧
    ∀ e : DReg, e ≠ d → (s.setLenNeg d v).base e = s.base e ∧ (s.setLenNeg d v).len e = s.len e ∧
      (s.setLenNeg d v).neg e = s.neg e := by
  have hfit : v % 2 ^ (s.cfg.width.bits - 1) < 2 ^ 63 :=
    (Nat.mod_lt _ (Nat.two_pow_pos _)).trans_le
      (Nat.pow_le_pow_right (by decide) (by have := s.cfg.width.bits_le; omega))
  simp only [State.base, State.len, State.neg, State.desc_setLenNeg, State.setLenNeg_cfg]
  exact ⟨by rw [if_pos trivial, BitVec.toNat_ofNat, Nat.mod_eq_of_lt hfit, Nat.mod_mod], by simp, by simp,
    fun e he => by simp [he]⟩

theorem State.accWord_setAccWord (j k : Fin 3) (v : Nat) :
    (s.setAccWord j v).accWord k = if k = j then v % s.cfg.width.base else s.accWord k := by
  match j, k with
  | 0, 0 | 1, 1 | 2, 2 => exact Width.low_cell _ _
  | 0, 1 | 0, 2 | 1, 0 | 1, 2 | 2, 0 | 2, 1 => rfl

end

/-- Settles O27: each clause is the frame of the one update the slot's port names. -/
theorem hostWritesRegisters : Obligations.HostWritesRegisters := by
  unfold Obligations.HostWritesRegisters
  intro s slot v rest h
  have hlow : s.cfg.width.low v % s.cfg.width.base = v.toNat % 2 ^ s.cfg.width.bits := Nat.mod_mod _ _
  have hbits : s.cfg.width.bits - 1 < s.cfg.width.bits := Nat.sub_lt s.cfg.width.bits_pos Nat.one_pos
  refine ⟨fun r hs => ⟨_, step_write h (by omega), ?_⟩, fun d hs => ⟨_, step_write h (by omega), ?_⟩,
    fun d hs => ⟨_, step_write h (by omega), ?_⟩, fun j hs => ⟨_, step_write h (by omega), ?_⟩⟩
  · rw [portOf_x hs]
    obtain ⟨hx, hother, -⟩ := frame_setX s r (s.cfg.width.low v)
    exact ⟨hx.trans hlow, hother, ⟨rfl, rfl, rfl⟩, fun _ => ⟨rfl, rfl, rfl⟩, rfl, fun _ => rfl, fun _ => rfl,
      rfl, rfl, rfl, rfl⟩
  · rw [portOf_dbase hs]
    obtain ⟨hbase, hlen, hneg, hother⟩ := frame_setBase s d (s.cfg.width.low v)
    exact ⟨hbase.trans hlow, hlen, hneg, hother, fun _ => rfl, ⟨rfl, rfl, rfl⟩, rfl, fun _ => rfl,
      fun _ => rfl, rfl, rfl, rfl, rfl⟩
  · rw [portOf_dlen hs]
    obtain ⟨hlen, hneg, hbase, hother⟩ := frame_setLenNeg s d (s.cfg.width.low v)
    refine ⟨hlen.trans ?_, hneg.trans ?_, hbase, hother, fun _ => rfl, ⟨rfl, rfl, rfl⟩, rfl, fun _ => rfl,
      fun _ => rfl, rfl, rfl, rfl, rfl⟩
    · exact Nat.mod_mod_of_dvd _ (Nat.pow_dvd_pow 2 hbits.le)
    · rw [Width.low, Width.base, Nat.testBit_mod_two_pow, decide_eq_true hbits, Bool.true_and,
        Nat.testBit_eq_decide_div_mod_eq]
  · rw [portOf_acc hs]
    obtain ⟨hregs, hdescs, hstatus, hbctx, hopmem, hcfg, hreads⟩ := frame_setAccWord s j (s.cfg.width.low v)
    refine ⟨?_, fun k hk => ?_, fun r => ?_, fun d => ?_, hstatus, fun c => ?_, fun a => ?_, hcfg, rfl, hreads, rfl⟩
    · exact (s.accWord_setAccWord j j _).trans ((if_pos rfl).trans hlow)
    · exact (s.accWord_setAccWord j k _).trans (if_neg hk)
    · simp only [State.x, State.setPort, hcfg, hregs]
    · simp only [State.base, State.len, State.neg, State.setPort, hcfg, hdescs, and_self]
    · simp only [State.ctx, State.setPort, hbctx]
    · simp only [State.memWord, State.setPort, hcfg, hopmem]

/-! ### Reset -/

theorem afterReset_resetWith (cfg : Config) (host : List HostAction) (reads : List Word) (draws : Nat) :
    AfterReset (State.resetWith cfg host reads draws) := by
  have hctx (c : CtxIx) : (State.resetWith cfg host reads draws).ctx c = BarrettCtx.empty := by
    simp [State.resetWith, State.ctx]
  refine ⟨fun r => ?_, fun j => ?_, fun d => ?_, rfl, fun c => ?_, rfl, fun a => rfl⟩
  · simp [State.x, State.resetWith, Width.low]
  · match j with | 0 | 1 | 2 => exact Nat.zero_mod _
  · simp [State.base, State.len, State.neg, State.resetWith, Width.low]
  · rw [hctx c]; exact ⟨rfl, rfl, rfl, rfl, rfl⟩

/-- Settles O29. -/
theorem resetSetsEveryResetValue : Obligations.ResetSetsEveryResetValue := by
  unfold Obligations.ResetSetsEveryResetValue
  intro s rest h
  exact ⟨_, step_of_reset h, afterReset_resetWith _ _ _ _, rfl, rfl, rfl, Nat.lt_succ_self _⟩

/-- Settles O30. -/
theorem resetStateIsR43 : Obligations.ResetStateIsR43 := by
  unfold Obligations.ResetStateIsR43
  exact ⟨afterReset_resetWith _ _ _ _, rfl⟩

end Sys2Proof.Machine
end

section
/-! PROOFS. Checks in the order of R304, said once over the chain of conditions a check function is; and what the
array compares, `MP.MUL`, `MONT.REDC` and the Barrett setups do when their checks pass. -/

namespace Sys2Proof.Machine

/-! ### Checks in order -/

/-- `o` is the error of the first check of the list that fails, and `none` if none fails. -/
def FirstFailure : List (Prop × BitVec 4 × BitVec 8) → Option Err → Prop
  | [], o => o = none
  | (failed, code, detail) :: rest, o =>
    (failed → ∃ e, o = some e ∧ e.code = code ∧ e.detail = detail) ∧ (¬failed → FirstFailure rest o)

/-- One check of a chain. -/
theorem FirstFailure.check {failed c : Prop} [Decidable c] {e : Err} {o : Option Err}
    {rest : List (Prop × BitVec 4 × BitVec 8)} (hc : c ↔ failed) (hrest : FirstFailure rest o) :
    FirstFailure ((failed, e.code, e.detail) :: rest) (if c then some e else o) := by
  refine ⟨fun h => ⟨e, if_pos (hc.2 h), rfl, rfl⟩, fun h => ?_⟩
  rwa [if_neg (mt hc.1 h)]

/-- A command that raises the error its checks give, and succeeds with `STICKY` kept when they give none. -/
theorem FirstFailure.raisesInOrder {i : Instr} {s : State} {o : Option Err}
    (hraise : ∀ e, o = some e → exec i s = raise e s)
    (hok : o = none → ∃ t, exec i s = .next t ∧ StatusOk s t) :
    ∀ {checks : List (Prop × BitVec 4 × BitVec 8)}, FirstFailure checks o → RaisesInOrder i s checks
  | [], h => hok h
  | (_, _, _) :: _, ⟨hfail, hpass⟩ => by
    refine ⟨fun h => ?_, fun h => FirstFailure.raisesInOrder hraise hok (hpass h)⟩
    obtain ⟨e, ho, rfl, rfl⟩ := hfail h
    exact ⟨_, hraise e ho, errorEffect_raise e s⟩

section

variable {s : State} {dr da db : DReg}

/-- `DESC_BOUNDS` of three descriptors (R72). -/
theorem outOfBounds_iff : (!(s.inBounds dr && s.inBounds da && s.inBounds db)) = true ↔
    ¬InBounds s dr ∨ ¬InBounds s da ∨ ¬InBounds s db := by
  simp only [← State.inBounds_iff, Bool.not_eq_true', Bool.and_eq_false_iff, Bool.not_eq_true, or_assoc]

/-- `NEG_ZERO` of two inputs (R26). -/
theorem eitherNegZero_iff {p q : Nat} : (s.negZero da p || s.negZero db q) = true ↔
    (s.neg da = true ∧ s.val da p = 0) ∨ (s.neg db = true ∧ s.val db q = 0) := by
  rw [Bool.or_eq_true, State.negZero_iff, State.negZero_iff]

/-- `ALIAS` of a result with two inputs (R73). -/
theorem eitherOverlaps_iff : (s.overlap dr da || s.overlap dr db) = true ↔
    Overlaps s dr da ∨ Overlaps s dr db := by
  rw [Bool.or_eq_true, State.overlap_iff, State.overlap_iff]

/-! ### The array compares -/

theorem maskOf_mod_base (w : Width) (c : Prop) [Decidable c] :
    maskOf w (decide c) % w.base = if c then 2 ^ w.bits - 1 else 0 := by
  have := w.base_pos
  unfold maskOf
  by_cases h : c
  · simp only [h, decide_true, if_true]
    exact Nat.mod_eq_of_lt (by omega)
  · simp [h]

/-- `MASK(c)` into `X[d]` (R150). -/
theorem frame_writeMask (s : State) (d : XReg) (c : Prop) [Decidable c] : ∃ t,
    writeMask d (decide c) s = .next t ∧ t.x d = (if c then 2 ^ s.cfg.width.bits - 1 else 0) ∧
      SameXBut d s t ∧ StatusOk s t ∧ SameHost s t ∧ SameAcc s t ∧ SameDescs s t ∧ SameCtx s t ∧
      SameMem s t := by
  obtain ⟨hx, frame⟩ := frame_setX s d (maskOf s.cfg.width (decide c))
  exact ⟨_, succeed_completed _, hx.trans (maskOf_mod_base _ c), frame⟩

theorem compareError_eq_none (ha : InBounds s da) (hb : InBounds s db) : compareError da db s = none := by
  rw [← State.inBounds_iff] at ha hb
  simp [compareError, ha, hb]

theorem compareError_of_not_inBounds (h : ¬InBounds s da ∨ ¬InBounds s db) :
    compareError da db s = some .descBounds := by
  simp only [← State.inBounds_iff, Bool.not_eq_true] at h
  unfold compareError
  rw [if_pos]
  simpa using h

end

/-- Settles O43: the compares are a mask written once `DESC_BOUNDS` has passed. -/
theorem arrayComparesReturnMasks : Obligations.ArrayComparesReturnMasks := by
  unfold Obligations.ArrayComparesReturnMasks
  intro s da db d
  constructor
  · intro ha hb
    simp only [exec, execCtCmpltm, execCtCmpeqm, compareError_eq_none ha hb]
    exact ⟨frame_writeMask s d _, frame_writeMask s d _⟩
  · intro h
    simp only [exec, execCtCmpltm, execCtCmpeqm, compareError_of_not_inBounds h]
    exact ⟨⟨_, raise_eq _ _, errorEffect_raise _ s⟩, _, raise_eq _ _, errorEffect_raise _ s⟩

/-! ### `MP.MUL` -/

section

variable {s : State} {dr da db : DReg}

theorem exec_mpMul (h : mpMulError dr da db s = none) : exec (.mpMul dr da db) s =
    .next (s.writeResult dr (s.val da 0 * s.val db (s.len da))).completed := by
  rw [exec, execMpMul, h]; rfl

theorem exec_mpMul_of_error {e : Err} (h : mpMulError dr da db s = some e) :
    exec (.mpMul dr da db) s = raise e s := by
  rw [exec, execMpMul, h]

/-- The product fits the result that `SIZE` asks for (R190). -/
theorem State.val_mul_val_lt (hl : s.len da + s.len db ≤ s.len dr) (p q : Nat) :
    s.val da p * s.val db q < s.cfg.width.base ^ s.len dr :=
  calc s.val da p * s.val db q < s.cfg.width.base ^ s.len da * s.cfg.width.base ^ s.len db :=
        Nat.mul_lt_mul'' (s.val_lt da p) (s.val_lt db q)
    _ = s.cfg.width.base ^ (s.len da + s.len db) := (Nat.pow_add _ _ _).symm
    _ ≤ s.cfg.width.base ^ s.len dr := Nat.pow_le_pow_right s.cfg.width.base_pos hl

end

/-- Settles O44: the result is written whole, because it fits. -/
theorem multiplyWritesTheExactProduct : Obligations.MultiplyWritesTheExactProduct := by
  unfold Obligations.MultiplyWritesTheExactProduct
  intro s dr da db hr ha hb hna hnb hca hcb hl hoa hob
  obtain ⟨hres, hdescs, frame⟩ := frame_writeResult s dr (s.val da 0 * s.val db (s.len da))
  exact ⟨_, exec_mpMul (mpMulError_eq_none hr ha hb hna hnb hca hcb hl hoa hob), hres,
    val_of_resultIs hres hdescs rfl (State.val_mul_val_lt hl _ _), hdescs, frame⟩

/-- Settles O45: the check function is a chain in R190's order. -/
theorem multiplyChecksInOrder : Obligations.MultiplyChecksInOrder := by
  unfold Obligations.MultiplyChecksInOrder
  intro s dr da db
  refine FirstFailure.raisesInOrder (fun e => exec_mpMul_of_error)
    (fun h => ⟨_, exec_mpMul h, rfl, rfl, rfl⟩) ?_
  exact .check (e := .descBounds) outOfBounds_iff <| .check (e := .negZero) eitherNegZero_iff <|
    .check (e := .negative) (Bool.or_eq_true _ _).to_iff <| .check (e := .capacity) .rfl <|
    .check (e := .size) .rfl <| .check (e := .aliased) eitherOverlaps_iff rfl

/-! ### `MONT.REDC` -/

theorem exec_montRedc_of_error {s : State} {dr da db : DReg} (xr : XReg) {e : Err}
    (h : redcError dr da db s = some e) : exec (.montRedc dr da db xr) s = raise e s := by
  rw [exec, execMontRedc, h]

theorem exec_montRedc {s : State} {dr da db : DReg} (xr : XReg) (h : redcError dr da db s = none) :
    exec (.montRedc dr da db xr) s = .next (s.writeResult dr (montyRedcCore s.cfg.width
      (s.readWords (s.base da) 0 (2 * s.len db)) (s.words db (s.len da)) (s.len db) (s.x xr))).completed := by
  rw [exec, execMontRedc, h]; rfl

/-- Settles O49: the check function is a chain in R202's order. -/
theorem redcChecksInOrder : Obligations.RedcChecksInOrder := by
  unfold Obligations.RedcChecksInOrder
  intro s dr dz dp xpd
  refine FirstFailure.raisesInOrder (fun e => exec_montRedc_of_error xpd)
    (fun h => ⟨_, exec_montRedc xpd h, rfl, rfl, rfl⟩) ?_
  exact .check (e := .descBounds) outOfBounds_iff <| .check (e := .negZero) eitherNegZero_iff <|
    .check (e := .negative) (Bool.or_eq_true _ _).to_iff <| .check (e := .zeroModulus) .rfl <|
    .check (e := .capacity) .rfl <| .check (e := .size) .rfl <| .check (e := .aliased) eitherOverlaps_iff rfl

/-! ### The Barrett setups -/

/-- The reducer of a positive modulus, in powers of 2 (R230, R231). -/
theorem barrettCtxOf_bounds {cfg : Config} {m : Nat} (mode : Mode) (hm : m ≠ 0)
    (h : sigWords cfg.width m ≤ cfg.nmax) (b : BarrettCtx) (hb : b = barrettCtxOf cfg.width mode m) :
    b.valid = true ∧ b.mode = mode ∧ b.m = m ∧ 1 ≤ b.words ∧ 2 ^ (cfg.width.bits * (b.words - 1)) ≤ m ∧
      m < 2 ^ (cfg.width.bits * b.words) ∧ b.mu = 2 ^ (cfg.width.bits * (2 * b.words)) / m := by
  have hlegal := barrettCtxOf_legal mode hm h
  rw [← hb, BarrettCtx.Legal, if_pos (by rw [hb]; rfl)] at hlegal
  obtain ⟨hk, -, hlo, hhi, hmu⟩ := hlegal
  have hbm : b.m = m := by rw [hb]; rfl
  simp only [hbm, Width.base, ← Nat.pow_mul] at hlo hhi hmu
  exact ⟨by rw [hb]; rfl, by rw [hb]; rfl, hbm, hk, hlo, hhi, hmu⟩

/-- Settles O51: both setups write the reducer of the modulus. -/
theorem setupBuildsTheReducer : Obligations.SetupBuildsTheReducer := by
  unfold Obligations.SetupBuildsTheReducer
  intro s da c hc hv hb hn hz hlt
  have hk : sigWords s.cfg.width (s.val da 0) ≤ s.cfg.nmax := by
    rwa [sigWords_le_iff, Width.base, ← Nat.pow_mul]
  have hnone := setupError_eq_none hc hv hb hn hz hk
  have build (mode : Mode) := frame_setCtx s c (barrettCtxOf s.cfg.width mode (s.val da 0))
  constructor
  · obtain ⟨hctx, frame⟩ := build .secretModulus
    obtain ⟨hvalid, hmode, hm, hk1, hlo, hhi, hmu⟩ := barrettCtxOf_bounds .secretModulus hz hk _ hctx
    exact ⟨_, by rw [exec, execBarSetups, hnone]; rfl, hvalid, hmode, hm, hk1, hlo, hhi, hmu, frame⟩
  · obtain ⟨hctx, frame⟩ := build .publicModulus
    obtain ⟨hvalid, hmode, hm, hk1, hlo, hhi, hmu⟩ := barrettCtxOf_bounds .publicModulus hz hk _ hctx
    exact ⟨_, by rw [exec, execBarSetupp, hnone]; rfl, hvalid, hmode, hm, hk1, hlo, hhi, hmu, frame⟩

end Sys2Proof.Machine
end

section
/-! PROOFS. OPMEM (`20_memory.md`): what commands and the host write there, what a host reads there, and the
checks of `CT.SELM`. -/

namespace Sys2Proof.Machine

/-! ### What a command changes -/

/-- The only words an effect changes are those of the result descriptor, which is inside OPMEM (R71, R72). -/
theorem Effect.memWord_ne {s u : State} {i : Instr} (h : Effect s i u) {a : Nat}
    (ha : u.memWord a ≠ s.memWord a) : a < s.cfg.memWords ∧
      ∃ d, resultDesc i = some d ∧ s.base d ≤ a ∧ a < s.base d + s.len d := by
  cases i with
  | nop | clrerr => subst h; exact absurd rfl ha
  | w3Clr | w3Add | w3Mul | ctMaskb | ctMasknz | ctMaskz | ctMaskeq | ctMasklt | ctSel | montPdash
  | ctCmpltm | ctCmpeqm => obtain ⟨v, rfl⟩ := h; exact absurd rfl ha
  | w3Mstep | w3Mstepx | w3Extract => obtain ⟨v, x, rfl⟩ := h; exact absurd rfl ha
  | barSetups | barSetupp => obtain ⟨-, -, b, -, -, rfl⟩ := h; exact absurd rfl ha
  | barFree => obtain ⟨-, rfl⟩ := h; exact absurd rfl ha
  | ctSelm dr =>
    obtain ⟨hb, ws, hl, rfl⟩ := h
    have hin : s.base dr ≤ a ∧ a < s.base dr + s.len dr := by
      by_contra hout
      exact ha ((s.memWord_writeWords _ ws a).trans (dif_neg (by rwa [hl])))
    exact ⟨hin.2.trans_le ((s.inBounds_iff dr).1 hb), dr, rfl, hin⟩
  | mpMul dr | montRedc dr | barRed dr | barMul dr | barSqr dr | barCube dr =>
    obtain ⟨hb, v, rfl⟩ := h
    have hin : s.base dr ≤ a ∧ a < s.base dr + s.len dr := by
      by_contra hout
      exact ha ((s.memWord_writeResult dr v a).trans (if_neg hout))
    exact ⟨hin.2.trans_le ((s.inBounds_iff dr).1 hb), dr, rfl, hin⟩

/-- Settles O19: an error changes no word, and an effect only those of the result. -/
theorem onlyResultWordsChange : Obligations.OnlyResultWordsChange := by
  unfold Obligations.OnlyResultWordsChange
  intro i s t a h ha
  rcases exec_next_cases h with ⟨e, rfl⟩ | ⟨u, hu, rfl⟩
  · exact absurd rfl ha
  · exact ⟨rfl, hu.memWord_ne ha⟩

/-! ### What the host reads and writes -/

/-- Settles O25: the slot's port holds 0 and takes no value. -/
theorem reservedSlotsReadZeroAndIgnoreWrites : Obligations.ReservedSlotsReadZeroAndIgnoreWrites := by
  unfold Obligations.ReservedSlotsReadZeroAndIgnoreWrites
  intro s slot v rest hr
  have hport := portOf_reserved hr
  constructor
  · intro h
    obtain ⟨x, hstep, hx⟩ := step_read h
    rw [hport] at hx
    obtain rfl : x = 0#64 := BitVec.eq_of_toNat_eq hx
    exact hstep
  · intro h
    have hs : slot.toNat ≠ 0x4 := by have := s.cfg.legal; unfold SlotReserved at hr; omega
    rw [step_write h hs, hport]
    rfl

/-- Settles O28: the write of one word into the port that R63 gives the slot. -/
theorem hostWritesOpmem : Obligations.HostWritesOpmem := by
  unfold Obligations.HostWritesOpmem
  intro s slot v rest a h hslot ha
  have hword (b : Nat) := s.memWord_writeWords a [s.cfg.width.low v] b
  refine ⟨_, step_write h (by omega), ?_⟩
  rw [portOf_opmem ha hslot]
  refine ⟨(hword a).trans ?_, fun b hb => (hword b).trans (dif_neg ?_), fun _ => rfl, ⟨rfl, rfl, rfl⟩,
    fun _ => ⟨rfl, rfl, rfl⟩, rfl, fun _ => rfl, rfl, rfl, rfl, rfl⟩
  · simp [Width.low, Width.base]
  · simp only [List.length_singleton]; omega

/-- A host read of an unwritten word gives the draw of its own access (R61). -/
theorem step_read_unwritten {s : State} {slot : SlotAddr} {rest : List HostAction} {a : Nat}
    (h : s.host = .read slot :: rest) (hslot : slot.toNat = 0x10000 + a) (ha : a < s.cfg.memWords)
    (hnone : s.memWord a = none) : ∃ v : Word,
      step s = .next { s with host := rest, reads := v :: s.reads, draws := s.draws + 1 } ∧
      v.toNat = (Config.freeWord s.draws 0).toNat % 2 ^ s.cfg.width.bits := by
  obtain ⟨v, hstep, hv⟩ := step_read h
  rw [portOf_opmem ha hslot, State.portValue, State.readWord, hnone] at hv
  exact ⟨v, hstep, hv⟩

/-- Settles O24: each read draws by the counter of its own access. -/
theorem unwrittenWordsReadAsFreshDraws : Obligations.UnwrittenWordsReadAsFreshDraws := by
  unfold Obligations.UnwrittenWordsReadAsFreshDraws
  intro s slot rest a h hslot ha hnone
  obtain ⟨x, hstep, hx⟩ := step_read_unwritten h hslot ha hnone
  obtain ⟨y, hstep', hy⟩ := step_read_unwritten (s := { s with
    host := .read slot :: rest, reads := x :: s.reads, draws := s.draws + 1 }) rfl hslot ha hnone
  refine ⟨_, _, hstep, hstep', ?_⟩
  rw [List.map_cons, List.map_cons, hx, hy]

/-! ### The checks of `CT.SELM` -/

theorem exec_ctSelm_of_error {s : State} {dr da db : DReg} (xm : XReg) {e : Err}
    (h : selmError dr da db s = some e) : exec (.ctSelm dr da db xm) s = raise e s := by
  rw [exec, execCtSelm, h]

/-- `ALIAS` of an array select: an overlap that is not the whole of an input (R157). -/
theorem selmOverlaps_iff {s : State} {dr da db : DReg} :
    ((s.overlap dr da && decide (s.base dr ≠ s.base da)) ||
      (s.overlap dr db && decide (s.base dr ≠ s.base db))) = true ↔
    (Overlaps s dr da ∧ s.base dr ≠ s.base da) ∨ (Overlaps s dr db ∧ s.base dr ≠ s.base db) := by
  simp only [Bool.or_eq_true, Bool.and_eq_true, decide_eq_true_eq, State.overlap_iff]

/-- Settles O42: the check function is a chain in R157's order. -/
theorem arraySelectChecksInOrder : Obligations.ArraySelectChecksInOrder := by
  unfold Obligations.ArraySelectChecksInOrder
  intro s dr da db xm
  refine FirstFailure.raisesInOrder (fun e => exec_ctSelm_of_error xm)
    (fun h => ⟨_, exec_ctSelm xm h, rfl, rfl, rfl⟩) ?_
  exact .check (e := .descBounds) outOfBounds_iff <| .check (e := .size) .rfl <|
    .check (e := .aliased) selmOverlaps_iff rfl

end Sys2Proof.Machine
end

section
/-! PROOFS. The traces of R363 held against `exec`: a command that ends in error reads within its descriptors
and writes nothing, and one that completes depends on the words it reads only. -/

namespace Sys2Proof.Machine

/-! ### Errors before operand data is read -/

/-- A check function's error that comes before operand data is read (R72, R304). -/
def EarlyError (o : Option Err) : Prop := ∃ e, o = some e ∧ mayHaveRead e.detail = false

theorem EarlyError.exec_raises {o : Option Err} {i : Instr} {s u : State} (h : EarlyError o)
    (hs : exec i s = match (generalizing := false) o with | some e => raise e s | none => succeed u) :
    ∃ e, exec i s = raise e s ∧ mayHaveRead e.detail = false := by
  obtain ⟨e, rfl, he⟩ := h
  exact ⟨e, hs, he⟩

section

variable {s : State} {dr da db : DReg}

theorem setupError_early (h : ¬InBounds s da) (c : CtxIx) : EarlyError (setupError da c s) := by
  rw [← s.inBounds_iff, Bool.not_eq_true] at h
  unfold setupError
  by_cases hc : s.cfg.nctx ≤ c.val
  · exact ⟨_, if_pos hc, rfl⟩
  · rw [if_neg hc]
    by_cases hv : (s.ctx c).valid = true
    · exact ⟨_, if_pos hv, rfl⟩
    · rw [if_neg hv]
      exact ⟨_, if_pos (by simp [h]), rfl⟩

theorem reduceError_early {ins : List (DReg × Nat)} (h : ¬InBounds s dr ∨ ∃ p ∈ ins, ¬InBounds s p.1)
    (ranged : Bool) (c : CtxIx) : EarlyError (reduceError ranged dr ins c s) := by
  simp only [← s.inBounds_iff, Bool.not_eq_true] at h
  unfold reduceError
  by_cases hc : s.cfg.nctx ≤ c.val
  · exact ⟨_, if_pos hc, rfl⟩
  · rw [if_neg hc]
    by_cases hv : (s.ctx c).valid = true
    · rw [if_neg (by simp [hv])]
      refine ⟨_, if_pos ?_, rfl⟩
      simpa only [Bool.not_eq_true', Bool.and_eq_false_iff, List.all_eq_false, Bool.not_eq_true] using h
    · exact ⟨_, if_pos (by simpa using hv), rfl⟩

end

/-- A command with a descriptor outside OPMEM raises before it reads operand data (R72, R304). -/
theorem exec_of_not_inBounds {i : Instr} {s : State} {d : DReg}
    (hd : resultDesc i = some d ∨ d ∈ inputDescs i) (h : ¬InBounds s d) :
    ∃ e, exec i s = raise e s ∧ mayHaveRead e.detail = false := by
  cases i <;> simp only [resultDesc, inputDescs, Option.some.injEq, List.mem_cons, List.not_mem_nil,
    reduceCtorEq, or_false, false_or] at hd
  case ctSelm dr da db _ | mpMul dr da db | montRedc dr da db _ =>
    have hout : ¬InBounds s dr ∨ ¬InBounds s da ∨ ¬InBounds s db := by
      rcases hd with rfl | rfl | rfl <;> simp [h]
    exact EarlyError.exec_raises ⟨.descBounds, if_pos (outOfBounds_iff.2 hout), rfl⟩ rfl
  case ctCmpltm da db xr | ctCmpeqm da db xr =>
    have hout : ¬InBounds s da ∨ ¬InBounds s db := by rcases hd with rfl | rfl <;> simp [h]
    exact EarlyError.exec_raises ⟨_, compareError_of_not_inBounds hout, rfl⟩ rfl
  case barSetups da c | barSetupp da c => exact (setupError_early (hd ▸ h) c).exec_raises rfl
  case barRed dr da c | barSqr dr da c | barCube dr da c =>
    exact (reduceError_early (by rcases hd with rfl | rfl <;> simp [h]) _ c).exec_raises rfl
  case barMul dr da db c =>
    exact (reduceError_early (by rcases hd with rfl | rfl | rfl <;> simp [h]) _ c).exec_raises rfl

/-- A command that ends in error with a trace of some access has all its descriptors inside OPMEM. -/
theorem inBounds_of_mem_failedTrace {i : Instr} {s t : State} (h : exec i s = .next t)
    {x : OpmemAccess} (hx : x ∈ failedTrace i s t.status.detail) {d : DReg}
    (hd : resultDesc i = some d ∨ d ∈ inputDescs i) : InBounds s d := by
  by_contra hout
  obtain ⟨e, he, hread⟩ := exec_of_not_inBounds hd hout
  obtain rfl := Host.Outcome.next.inj (he.symm.trans h)
  exact absurd (mem_failedTrace hx).1 (by simp [hread])

/-- The reads a failed `MONT.REDC` may have made (R206). -/
theorem mem_possibleReads_montRedc {s : State} {dr dz dp : DReg} {xpd : XReg} {x : OpmemAccess}
    (h : x ∈ possibleReads (.montRedc dr dz dp xpd) s) :
    (s.base dz ≤ x.addr ∧ x.addr < s.base dz + 2 * s.len dp) ∨
      (s.base dp ≤ x.addr ∧ x.addr < s.base dp + s.len dp) := by
  rcases List.mem_append.1 h with h | h <;> obtain ⟨-, hlo, hhi⟩ := mem_sweep.1 h
  · exact .inl ⟨hlo, by omega⟩
  · exact .inr ⟨hlo, hhi⟩

/-! ### The same command on another memory -/

def State.withOpmem (s : State) (m : Memory) : State := { s with opmem := m }

/-- `m` holds the words of descriptor `d` as `s` has them. -/
def SameWords (s : State) (m : Memory) (d : DReg) : Prop :=
  ∀ pos, (s.withOpmem m).words d pos = s.words d pos

section

variable {i : Instr} {s : State} {m : Memory} {dr da db : DReg}

theorem State.readWords_withOpmem {a n : Nat} (h : ∀ b, a ≤ b → b < a + n → m.word b = s.opmem.word b)
    (pos : Nat) : (s.withOpmem m).readWords a pos n = s.readWords a pos n :=
  State.readWords_congr (s := s) (t := s.withOpmem m) rfl
    (fun j hj => congrArg (Option.map s.cfg.width.low) (h (a + j) (by omega) (by omega))) rfl

/-- Every command but `MONT.REDC` reads each word of its inputs (R363). -/
theorem sameWords_of_reads (hi : completedReads i s = (inputDescs i).flatMap s.readSweep)
    (h : ∀ a, (⟨.read, a⟩ : OpmemAccess) ∈ completedReads i s → m.word a = s.opmem.word a) {d : DReg}
    (hd : d ∈ inputDescs i) : SameWords s m d :=
  State.readWords_withOpmem fun a hlo hhi => h a (hi ▸ mem_readSweeps.2 ⟨rfl, d, hd, hlo, hhi⟩)

theorem SameWords.val (h : SameWords s m da) (pos : Nat) : (s.withOpmem m).val da pos = s.val da pos :=
  congrArg (natOfWords s.cfg.width) (h pos)

theorem SameWords.negZero (h : SameWords s m da) (pos : Nat) :
    (s.withOpmem m).negZero da pos = s.negZero da pos := by
  simp only [State.negZero, h.val]; rfl

theorem mpMulError_withOpmem (ha : SameWords s m da) (hb : SameWords s m db) :
    mpMulError dr da db (s.withOpmem m) = mpMulError dr da db s := by
  simp only [mpMulError, ha.negZero, hb.negZero]; rfl

theorem setupError_withOpmem (ha : SameWords s m da) (c : CtxIx) :
    setupError da c (s.withOpmem m) = setupError da c s := by
  simp only [setupError, ha.negZero, ha.val]; rfl

theorem any_congr_of_mem {α : Type} {l : List α} {f g : α → Bool} (h : ∀ x ∈ l, f x = g x) :
    l.any f = l.any g := by
  simpa using congrArg (List.any · id) (List.map_congr_left h)

theorem reduceError_withOpmem {ins : List (DReg × Nat)} (h : ∀ p ∈ ins, SameWords s m p.1) (ranged : Bool)
    (c : CtxIx) : reduceError ranged dr ins c (s.withOpmem m) = reduceError ranged dr ins c s := by
  have hzero : (ins.any fun p => (s.withOpmem m).negZero p.1 p.2) = ins.any fun p => s.negZero p.1 p.2 :=
    any_congr_of_mem fun p hp => (h p hp).negZero p.2
  have hrange : (ins.any fun p => decide (((s.withOpmem m).ctx c).m ≤ (s.withOpmem m).val p.1 p.2)) =
      ins.any fun p => decide ((s.ctx c).m ≤ s.val p.1 p.2) :=
    any_congr_of_mem fun p hp => by rw [(h p hp).val]; rfl
  simp only [reduceError, hzero, hrange]; rfl

/-- One check of a chain passes, and so do the others. -/
theorem check_eq_none_iff {c : Prop} [Decidable c] {e : Err} {o : Option Err} :
    (if c then some e else o) = none ↔ ¬c ∧ o = none := by
  by_cases h : c <;> simp [h]

/-- `MONT.REDC` asks for the value of a negative operand only, and passes no negative operand: its checks do not
depend on words of `z` past those it reads (R202, R206). -/
theorem redcError_withOpmem (h : redcError dr da db s = none) : redcError dr da db (s.withOpmem m) = none := by
  have hpass := h
  simp only [redcError, check_eq_none_iff, Bool.or_eq_true, not_or, Bool.not_eq_true] at hpass
  obtain ⟨-, -, ⟨hna, hnb⟩, -⟩ := hpass
  have hna' : (s.withOpmem m).neg da = false := hna
  have hnb' : (s.withOpmem m).neg db = false := hnb
  rw [← h]
  simp only [redcError, State.negZero, hna, hnb, hna', hnb', Bool.false_and]; rfl

end

/-! ### The write of a command that completes -/

theorem exec_ne_raise {i : Instr} {s t : State} (h : exec i s = .next t) (hc : t.status.code = 0#4) (e : Err) :
    exec i s ≠ raise e s := by
  intro he
  obtain rfl := Host.Outcome.next.inj (he.symm.trans h)
  exact e.code_ne_zero hc

/-- The words a write makes are those of the command's result (R71). -/
def Write.Covers (i : Instr) (s : State) : Write → Prop
  | .words dr ws => resultDesc i = some dr ∧ ws.length = s.len dr
  | .result dr _ => resultDesc i = some dr
  | _ => resultDesc i = none

section

variable {i : Instr} {s : State} {m : Memory}

/-- The command completes, with one write, and makes the same write on memory `m`. -/
def SameWrite (i : Instr) (s : State) (m : Memory) : Prop :=
  ∃ w : Write, w.Covers i s ∧ exec i s = succeed (w.apply s) ∧
    exec i (s.withOpmem m) = succeed (w.apply (s.withOpmem m))

theorem SameWrite.of_checks {o o' : Option Err} (w : Write) (hok : ∀ e, exec i s ≠ raise e s)
    (hs : exec i s = match (generalizing := false) o with | some e => raise e s | none => succeed (w.apply s))
    (hs' : exec i (s.withOpmem m) = match (generalizing := false) o' with
      | some e => raise e (s.withOpmem m) | none => succeed (w.apply (s.withOpmem m)))
    (ho : o = none → w.Covers i s ∧ o' = none) : SameWrite i s m := by
  cases o with
  | some e => exact absurd hs (hok e)
  | none =>
    obtain ⟨hw, rfl⟩ := ho rfl
    exact ⟨w, hw, hs, hs'⟩

/-- **What a command that completes depends on**: beside registers, descriptors and slots, the words of its
reads (R363). -/
theorem sameWrite_of_reads (hok : ∀ e, exec i s ≠ raise e s)
    (h : ∀ a, (⟨.read, a⟩ : OpmemAccess) ∈ completedReads i s → m.word a = s.opmem.word a) :
    SameWrite i s m := by
  cases i with
  | nop => exact ⟨.nothing, rfl, rfl, rfl⟩
  | clrerr => exact ⟨.clearSticky, rfl, rfl, rfl⟩
  | w3Clr | w3Add | w3Mul => exact ⟨.acc _, rfl, rfl, rfl⟩
  | w3Mstep | w3Mstepx | w3Extract => exact ⟨.accAndReg _ _ _, rfl, rfl, rfl⟩
  | ctMaskb | ctMasknz | ctMaskz | ctMaskeq | ctMasklt | ctSel => exact ⟨.reg _ _, rfl, rfl, rfl⟩
  | montPdash d a =>
    by_cases ha : s.x a % 2 = 0
    · exact absurd (if_pos ha) (hok .even)
    · exact ⟨.reg d _, rfl, if_neg ha, if_neg ha⟩
  | barFree c =>
    by_cases hc : s.cfg.nctx ≤ c.val
    · exact absurd (if_pos hc) (hok .ctxIndex)
    · exact ⟨.slot c .empty, rfl, if_neg hc, if_neg hc⟩
  | ctSelm dr da db xr =>
    have ha : SameWords s m da := sameWords_of_reads rfl h (.head _)
    have hb : SameWords s m db := sameWords_of_reads rfl h (.tail _ (.head _))
    refine .of_checks (.words dr (s.selmWords da db xr)) hok rfl
      (o := selmError dr da db s) (o' := selmError dr da db s) ?_ fun hnone => ⟨⟨rfl, ?_⟩, hnone⟩
    · simp only [State.selmWords, ← ha _, ← hb _]; rfl
    · obtain ⟨-, hla, hlb⟩ := selmError_none hnone
      rw [State.selmWords_length, hla, hlb, min_self]
  | ctCmpltm da db xr | ctCmpeqm da db xr =>
    have ha : SameWords s m da := sameWords_of_reads rfl h (.head _)
    have hb : SameWords s m db := sameWords_of_reads rfl h (.tail _ (.head _))
    refine .of_checks (.reg xr _) hok rfl (o := compareError da db s) (o' := compareError da db s) ?_
      fun hnone => ⟨rfl, hnone⟩
    simp only [← ha.val, ← hb.val]; rfl
  | mpMul dr da db =>
    have ha : SameWords s m da := sameWords_of_reads rfl h (.head _)
    have hb : SameWords s m db := sameWords_of_reads rfl h (.tail _ (.head _))
    refine .of_checks (.result dr _) hok rfl (o := mpMulError dr da db s)
      (o' := mpMulError dr da db (s.withOpmem m)) ?_
      fun hnone => ⟨rfl, (mpMulError_withOpmem ha hb).trans hnone⟩
    simp only [← ha.val, ← hb.val]; rfl
  | montRedc dr da db xr =>
    have hz := State.readWords_withOpmem (m := m) (a := s.base da) (n := 2 * s.len db) fun a hlo hhi =>
      h a (List.mem_append.2 (.inl (mem_sweep.2 ⟨rfl, hlo, hhi⟩)))
    have hb : SameWords s m db := State.readWords_withOpmem fun a hlo hhi =>
      h a (List.mem_append.2 (.inr (mem_sweep.2 ⟨rfl, hlo, hhi⟩)))
    refine .of_checks (.result dr _) hok rfl (o := redcError dr da db s)
      (o' := redcError dr da db (s.withOpmem m)) ?_ fun hnone => ⟨rfl, redcError_withOpmem hnone⟩
    simp only [← hz, ← hb _]; rfl
  | barSetups da c | barSetupp da c =>
    have ha : SameWords s m da := sameWords_of_reads rfl h (.head _)
    refine .of_checks (.slot c _) hok rfl (o := setupError da c s)
      (o' := setupError da c (s.withOpmem m)) ?_ fun hnone => ⟨rfl, (setupError_withOpmem ha c).trans hnone⟩
    simp only [← ha.val]; rfl
  | barRed dr da c | barSqr dr da c | barCube dr da c =>
    have ha : SameWords s m da := sameWords_of_reads rfl h (.head _)
    refine .of_checks (.result dr _) hok rfl (o := reduceError _ dr [(da, 0)] c s)
      (o' := reduceError _ dr [(da, 0)] c (s.withOpmem m)) ?_
      fun hnone => ⟨rfl, (reduceError_withOpmem (by simpa using ha) _ c).trans hnone⟩
    simp only [← ha.val]; rfl
  | barMul dr da db c =>
    have ha : SameWords s m da := sameWords_of_reads rfl h (.head _)
    have hb : SameWords s m db := sameWords_of_reads rfl h (.tail _ (.head _))
    refine .of_checks (.result dr _) hok rfl (o := reduceError true dr [(da, 0), (db, s.len da)] c s)
      (o' := reduceError true dr [(da, 0), (db, s.len da)] c (s.withOpmem m)) ?_
      fun hnone => ⟨rfl, (reduceError_withOpmem (by simpa using ⟨ha, hb⟩) _ c).trans hnone⟩
    simp only [← ha.val, ← hb.val]; rfl

/-- A word of the result holds what the write puts there, whatever memory the write meets. -/
theorem Write.memWord_withOpmem {w : Write} (hw : w.Covers i s) {a : Nat}
    (ha : (⟨.write, a⟩ : OpmemAccess) ∈ completedWrites i s) :
    (w.apply (s.withOpmem m)).memWord a = (w.apply s).memWord a := by
  obtain ⟨-, d, hd, hlo, hhi⟩ := mem_completedWrites.1 ha
  cases w with
  | words dr ws =>
    obtain ⟨hr, hl⟩ := hw
    obtain rfl := Option.some.inj (hd.symm.trans hr)
    have hin : s.base d ≤ a ∧ a < s.base d + ws.length := ⟨hlo, hl ▸ hhi⟩
    exact (((s.withOpmem m).memWord_writeWords _ _ _).trans (dif_pos hin)).trans
      ((s.memWord_writeWords _ _ _).trans (dif_pos hin)).symm
  | result dr v =>
    obtain rfl := Option.some.inj (hd.symm.trans hw)
    exact (((s.withOpmem m).memWord_writeResult _ _ _).trans (if_pos ⟨hlo, hhi⟩)).trans
      ((s.memWord_writeResult _ _ _).trans (if_pos ⟨hlo, hhi⟩)).symm
  | _ => exact absurd (hd.symm.trans hw) nofun

/-- What a write leaves outside OPMEM takes nothing from OPMEM. -/
theorem Write.completed_withOpmem (w : Write) :
    (w.apply (s.withOpmem m)).completed.status = (w.apply s).completed.status ∧
    (w.apply (s.withOpmem m)).completed.regs = (w.apply s).completed.regs ∧
    SameAcc (w.apply s).completed (w.apply (s.withOpmem m)).completed ∧
    (w.apply (s.withOpmem m)).completed.descs = (w.apply s).completed.descs ∧
    (w.apply (s.withOpmem m)).completed.bctx = (w.apply s).completed.bctx := by
  cases w <;> exact ⟨rfl, rfl, ⟨rfl, rfl, rfl⟩, rfl, rfl⟩

end

/-- Settles O60: an error leaves a trace of possible reads and, with a descriptor outside OPMEM, comes before
them; a command that completes makes the same write on every memory that holds the words it reads. -/
theorem resultsDependOnTracedReadsOnly : Obligations.ResultsDependOnTracedReadsOnly := by
  unfold Obligations.ResultsDependOnTracedReadsOnly
  constructor
  · intro s t v rest hs ht hc
    rw [step_of_cmd hs] at ht
    unfold commandWriteTrace
    rcases runCommand_cases v (s.withHost rest) with ⟨i, hd, hr⟩ | ⟨e, hd, -⟩ <;> rw [hd]
    · exact ⟨_, opmemTrace_failed (hr ▸ ht) hc, fun x hx => (mem_possibleReads (mem_failedTrace hx).2).1,
        fun hno => absurd hd (hno i)⟩
    · exact ⟨[], rfl, nofun, fun _ => rfl⟩
  · intro i s t ht
    constructor
    · intro hc
      refine ⟨_, opmemTrace_failed ht hc, fun x hx => ?_, fun d hd hout => ?_, ?_⟩
      · obtain ⟨hdir, d, hd, hlo, hhi⟩ := mem_possibleReads (mem_failedTrace hx).2
        have hin : InBounds s d := inBounds_of_mem_failedTrace ht hx (.inr hd)
        exact ⟨hdir, hhi.trans_le hin, d, hd, hlo, hhi⟩
      · exact List.eq_nil_iff_forall_not_mem.2 fun x hx => hout (inBounds_of_mem_failedTrace ht hx hd)
      · rintro dr dz dp xpd rfl x hx
        exact mem_possibleReads_montRedc (mem_failedTrace hx).2
    · intro hc
      refine ⟨fun hv => ?_, fun a ha => ?_, fun m hm => ?_⟩
      · rw [opmemTrace_completed ht hc, completedTrace, hv]; rfl
      · obtain ⟨-, -, hd⟩ := onlyResultWordsChange i s t a ht ha
        exact mem_completedWrites.2 ⟨rfl, hd⟩
      · obtain ⟨w, hw, hs, hs'⟩ := sameWrite_of_reads (exec_ne_raise ht hc) hm
        obtain rfl := Host.Outcome.next.inj (hs.symm.trans ht)
        obtain ⟨hstatus, hregs, hacc, hdescs, hbctx⟩ := w.completed_withOpmem (s := s) (m := m)
        exact ⟨_, hs', hstatus, hregs, hacc, hdescs, hbctx, fun a ha => w.memWord_withOpmem hw ha⟩

end Sys2Proof.Machine
end

section
/-! PROOFS. The encoder and the decoder against each other (R90 to R101): each command's word decodes to it, and
each row of R96 rebuilds the word it decodes. -/

namespace Sys2Proof

/-! ### The encoding of a command decodes to it -/

/-- `RoundTrip` for every command. -/
theorem decodeWord_encode (i : Instr) : decodeWord (encode i) = .ok i := by
  cases i with
  | nop => exact Laws.RoundTrip.nop
  | clrerr => exact Laws.RoundTrip.clrerr
  | w3Clr => exact Laws.RoundTrip.w3Clr
  | w3Add rs1 => exact Laws.RoundTrip.w3Add rs1
  | w3Mul rs1 rs2 => exact Laws.RoundTrip.w3Mul rs1 rs2
  | w3Mstep rd rs1 rs2 => exact Laws.RoundTrip.w3Mstep rd rs1 rs2
  | w3Mstepx rd rs1 rs2 => exact Laws.RoundTrip.w3Mstepx rd rs1 rs2
  | w3Extract rd => exact Laws.RoundTrip.w3Extract rd
  | ctMaskb rd rs1 => exact Laws.RoundTrip.ctMaskb rd rs1
  | ctMasknz rd rs1 => exact Laws.RoundTrip.ctMasknz rd rs1
  | ctMaskz rd rs1 => exact Laws.RoundTrip.ctMaskz rd rs1
  | ctMaskeq rd rs1 rs2 => exact Laws.RoundTrip.ctMaskeq rd rs1 rs2
  | ctMasklt rd rs1 rs2 => exact Laws.RoundTrip.ctMasklt rd rs1 rs2
  | ctSel rd rs1 rs2 rs3 => exact Laws.RoundTrip.ctSel rd rs1 rs2 rs3
  | ctSelm dr da db xr => exact Laws.RoundTrip.ctSelm dr da db xr
  | ctCmpltm da db xr => exact Laws.RoundTrip.ctCmpltm da db xr
  | ctCmpeqm da db xr => exact Laws.RoundTrip.ctCmpeqm da db xr
  | mpMul dr da db => exact Laws.RoundTrip.mpMul dr da db
  | montPdash rd rs1 => exact Laws.RoundTrip.montPdash rd rs1
  | montRedc dr da db xr => exact Laws.RoundTrip.montRedc dr da db xr
  | barSetups da ctx => exact Laws.RoundTrip.barSetups da ctx
  | barSetupp da ctx => exact Laws.RoundTrip.barSetupp da ctx
  | barFree ctx => exact Laws.RoundTrip.barFree ctx
  | barRed dr da ctx => exact Laws.RoundTrip.barRed dr da ctx
  | barMul dr da db ctx => exact Laws.RoundTrip.barMul dr da db ctx
  | barSqr dr da ctx => exact Laws.RoundTrip.barSqr dr da ctx
  | barCube dr da ctx => exact Laws.RoundTrip.barCube dr da ctx

/-- A `CMD` value without a bit above 31 decodes as its low word, at either width (R90). -/
theorem decode_of_lt {w : Width} {v : Word} (h : w = .w64 → v.toNat < 2 ^ 32) :
    decode w v = decodeWord (v.extractLsb' 0 32) := by
  refine if_neg fun ⟨hw, hne⟩ => hne (BitVec.eq_of_toNat_eq ?_)
  rw [BitVec.extractLsb'_toNat, Nat.shiftRight_eq_div_pow, Nat.div_eq_of_lt (h hw)]; rfl

theorem commandValue_toNat_lt (i : Instr) : (commandValue i).toNat < 2 ^ 32 := by
  rw [commandValue, BitVec.toNat_setWidth_of_le (by decide)]; exact (encode i).isLt

theorem extractLsb'_commandValue (i : Instr) : (commandValue i).extractLsb' 0 32 = encode i := by
  rw [commandValue, ← BitVec.setWidth_eq_extractLsb' (by decide), BitVec.setWidth_setWidth_of_le _ (by decide),
    BitVec.setWidth_eq]

/-- Settles O1: the value a host writes has nothing above bit 31, so it decodes as the word. -/
theorem decodeInvertsEncode : Obligations.DecodeInvertsEncode := by
  unfold Obligations.DecodeInvertsEncode
  intro w i
  refine ⟨decodeWord_encode i, ?_⟩
  rw [decode_of_lt fun _ => commandValue_toNat_lt i, extractLsb'_commandValue, decodeWord_encode]

/-! ### A word that decodes is rebuilt from its fields -/

section

variable {c : BitVec 32}

/-- A word with its low ten bits 0 is format R of its own fields (R93). -/
theorem formatR_eq {op : BitVec 6} {rd rs1 rs2 rs3 : XReg} (hop : opField c = op)
    (hlow : c.extractLsb' 0 10 = 0#10) (hrd : fieldRD c = rd) (hrs1 : fieldRS1 c = rs1) (hrs2 : fieldRS2 c = rs2)
    (hrs3 : fieldRS3 c = rs3) : formatR op rd rs1 rs2 rs3 = c := by
  subst hop hrd hrs1 hrs2 hrs3
  change c.extractLsb' 26 6 ++ c.extractLsb' 22 4 ++ c.extractLsb' 18 4 ++ c.extractLsb' 14 4 ++
    c.extractLsb' 10 4 ++ 0#10 = c
  rw [← hlow]
  iterate 5 rw [BitVec.extractLsb'_append_extractLsb'_eq_extractLsb' (by rfl)]
  exact BitVec.extractLsb'_eq_self

/-- A word with its low ten bits 0 is format M of its own fields (R94). -/
theorem formatM_eq {op : BitVec 6} {dr da db : DReg} {xr : XReg} {ctx : CtxIx} (hop : opField c = op)
    (hlow : c.extractLsb' 0 10 = 0#10) (hdr : fieldDR c = dr) (hda : fieldDA c = da) (hdb : fieldDB c = db)
    (hxr : fieldXR c = xr) (hctx : fieldCTX c = ctx) : formatM op dr da db xr ctx = c := by
  subst hop hdr hda hdb hxr hctx
  change c.extractLsb' 26 6 ++ c.extractLsb' 23 3 ++ c.extractLsb' 20 3 ++ c.extractLsb' 17 3 ++
    c.extractLsb' 13 4 ++ c.extractLsb' 10 3 ++ 0#10 = c
  rw [← hlow]
  iterate 6 rw [BitVec.extractLsb'_append_extractLsb'_eq_extractLsb' (by rfl)]
  exact BitVec.extractLsb'_eq_self

/-- The word meets the row's `mask` and `match` (R96, R100). -/
def OpRow.Accepts (r : OpRow) (c : BitVec 32) : Prop := c &&& r.mask = r.pattern

namespace OpRow.Accepts

variable {r : OpRow} (h : r.Accepts c) {lo n : Nat}
include h

/-- The bits that the mask covers are those of `match` (R97). -/
theorem bits (hm : r.mask.extractLsb' lo n = BitVec.allOnes n) :
    c.extractLsb' lo n = r.pattern.extractLsb' lo n := by
  rw [← show c &&& r.mask = r.pattern from h, BitVec.extractLsb'_and, hm, BitVec.and_allOnes]

theorem xField (hm : r.mask.extractLsb' lo 4 = BitVec.allOnes 4) :
    Sys2Proof.xField c lo = Sys2Proof.xField r.pattern lo := by
  simp only [Sys2Proof.xField, h.bits hm]

theorem dField (hm : r.mask.extractLsb' lo 3 = BitVec.allOnes 3) :
    Sys2Proof.dField c lo = Sys2Proof.dField r.pattern lo := by
  simp only [Sys2Proof.dField, h.bits hm]

end OpRow.Accepts

end

/-- The command that the row builds from a word it accepts has that word as its encoding (R99): each field is
either the command's operand or fixed by the mask. -/
def OpRow.Rebuilds (r : OpRow) : Prop := ∀ c : BitVec 32, r.Accepts c → encode (r.build c) = c

theorem controlRows_rebuild : ∀ r ∈ controlRows, r.Rebuilds := by
  simp only [controlRows, List.forall_mem_cons, List.not_mem_nil, false_implies, implies_true, and_true]
  exact ⟨fun _ h => h.symm.trans BitVec.and_allOnes,
    fun _ h => h.symm.trans BitVec.and_allOnes,
    fun _ h => h.symm.trans BitVec.and_allOnes,
    fun _ h => formatR_eq (h.bits rfl) (h.bits rfl) (h.xField rfl) rfl (h.xField rfl) (h.xField rfl),
    fun _ h => formatR_eq (h.bits rfl) (h.bits rfl) (h.xField rfl) rfl rfl (h.xField rfl),
    fun _ h => formatR_eq (h.bits rfl) (h.bits rfl) rfl rfl rfl (h.xField rfl),
    fun _ h => formatR_eq (h.bits rfl) (h.bits rfl) rfl rfl rfl (h.xField rfl),
    fun _ h => formatR_eq (h.bits rfl) (h.bits rfl) rfl (h.xField rfl) (h.xField rfl) (h.xField rfl)⟩

theorem constantTimeRows_rebuild : ∀ r ∈ constantTimeRows, r.Rebuilds := by
  simp only [constantTimeRows, List.forall_mem_cons, List.not_mem_nil, false_implies, implies_true, and_true]
  exact ⟨fun _ h => formatR_eq (h.bits rfl) (h.bits rfl) rfl rfl (h.xField rfl) (h.xField rfl),
    fun _ h => formatR_eq (h.bits rfl) (h.bits rfl) rfl rfl (h.xField rfl) (h.xField rfl),
    fun _ h => formatR_eq (h.bits rfl) (h.bits rfl) rfl rfl (h.xField rfl) (h.xField rfl),
    fun _ h => formatR_eq (h.bits rfl) (h.bits rfl) rfl rfl rfl (h.xField rfl),
    fun _ h => formatR_eq (h.bits rfl) (h.bits rfl) rfl rfl rfl (h.xField rfl),
    fun _ h => formatR_eq (h.bits rfl) (h.bits rfl) rfl rfl rfl rfl,
    fun _ h => formatM_eq (h.bits rfl) (h.bits rfl) rfl rfl rfl rfl (h.dField rfl),
    fun _ h => formatM_eq (h.bits rfl) (h.bits rfl) (h.dField rfl) rfl rfl rfl (h.dField rfl),
    fun _ h => formatM_eq (h.bits rfl) (h.bits rfl) (h.dField rfl) rfl rfl rfl (h.dField rfl)⟩

theorem reductionRows_rebuild : ∀ r ∈ reductionRows, r.Rebuilds := by
  simp only [reductionRows, List.forall_mem_cons, List.not_mem_nil, false_implies, implies_true, and_true]
  exact ⟨fun _ h => formatM_eq (h.bits rfl) (h.bits rfl) rfl rfl rfl (h.xField rfl) (h.dField rfl),
    fun _ h => formatR_eq (h.bits rfl) (h.bits rfl) rfl rfl (h.xField rfl) (h.xField rfl),
    fun _ h => formatM_eq (h.bits rfl) (h.bits rfl) rfl rfl rfl rfl (h.dField rfl),
    fun _ h => formatM_eq (h.bits rfl) (h.bits rfl) (h.dField rfl) rfl (h.dField rfl) (h.xField rfl) rfl,
    fun _ h => formatM_eq (h.bits rfl) (h.bits rfl) (h.dField rfl) rfl (h.dField rfl) (h.xField rfl) rfl,
    fun _ h => formatM_eq (h.bits rfl) (h.bits rfl) (h.dField rfl) (h.dField rfl) (h.dField rfl) (h.xField rfl) rfl,
    fun _ h => formatM_eq (h.bits rfl) (h.bits rfl) rfl rfl (h.dField rfl) (h.xField rfl) rfl,
    fun _ h => formatM_eq (h.bits rfl) (h.bits rfl) rfl rfl rfl (h.xField rfl) rfl,
    fun _ h => formatM_eq (h.bits rfl) (h.bits rfl) rfl rfl (h.dField rfl) (h.xField rfl) rfl,
    fun _ h => formatM_eq (h.bits rfl) (h.bits rfl) rfl rfl (h.dField rfl) (h.xField rfl) rfl⟩

/-- What it takes for a word to decode (R100). -/
theorem decodeWord_ok {c : BitVec 32} {i : Instr} (h : decodeWord c = .ok i) :
    ∃ r ∈ opRows, r.Accepts c ∧ r.build c = i := by
  unfold decodeWord at h
  split at h
  · cases h
  · next r hr =>
    split at h
    · next hm => exact ⟨r, List.mem_of_find?_eq_some hr, hm, Except.ok.inj h⟩
    · cases h

/-- Settles O2: each row rebuilds the words it accepts. -/
theorem encodeInvertsDecode : Obligations.EncodeInvertsDecode := by
  unfold Obligations.EncodeInvertsDecode
  intro c i h
  obtain ⟨r, hr, hm, rfl⟩ := decodeWord_ok h
  simp only [opRows, List.mem_append, or_assoc] at hr
  rcases hr with hr | hr | hr
  · exact controlRows_rebuild r hr c hm
  · exact constantTimeRows_rebuild r hr c hm
  · exact reductionRows_rebuild r hr c hm

/-! ### The words of the rules -/

section

variable (op : BitVec 6)

theorem toNat_append_eq_add {m n : Nat} (x : BitVec m) (y : BitVec n) :
    (x ++ y).toNat = x.toNat * 2 ^ n + y.toNat := by
  rw [BitVec.toNat_append, ← Nat.shiftLeft_add_eq_or_of_lt y.isLt, Nat.shiftLeft_eq]

/-- Format N as a number (R92). -/
theorem toNat_formatN : (formatN op).toNat = op.toNat * 2 ^ 26 := by
  rw [formatN, toNat_append_eq_add, BitVec.toNat_ofNat, Nat.zero_mod, Nat.add_zero]

/-- Format R as a number (R93). -/
theorem toNat_formatR (rd rs1 rs2 rs3 : XReg) : (formatR op rd rs1 rs2 rs3).toNat =
    op.toNat * 2 ^ 26 + rd.val * 2 ^ 22 + rs1.val * 2 ^ 18 + rs2.val * 2 ^ 14 + rs3.val * 2 ^ 10 := by
  simp only [formatR, toNat_append_eq_add, BitVec.toNat_ofFin, BitVec.toNat_ofNat]
  omega

/-- Format M as a number (R94). -/
theorem toNat_formatM (dr da db : DReg) (xr : XReg) (ctx : CtxIx) : (formatM op dr da db xr ctx).toNat =
    op.toNat * 2 ^ 26 + dr.val * 2 ^ 23 + da.val * 2 ^ 20 + db.val * 2 ^ 17 + xr.val * 2 ^ 13 +
      ctx.val * 2 ^ 10 := by
  simp only [formatM, toNat_append_eq_add, BitVec.toNat_ofFin, BitVec.toNat_ofNat]
  omega

end

/-- Settles O3: each format's number, with the fields a command does not use 0. -/
theorem encodingsAreTheRulesWords : Obligations.EncodingsAreTheRulesWords := by
  unfold Obligations.EncodingsAreTheRulesWords
  simp [encode, toNat_formatN, toNat_formatR, toNat_formatM]

/-- Settles O4. -/
theorem exampleWordsDecode : Obligations.ExampleWordsDecode := by
  unfold Obligations.ExampleWordsDecode
  decide

end Sys2Proof
end

section
/-! PROOFS. Writes of `CMD` that decode to no command (R90, R97, R98, R100). -/

namespace Sys2Proof

/-! ### The two decode errors of a word -/

section

variable {c : BitVec 32}

theorem toNat_opField (c : BitVec 32) : (opField c).toNat = c.toNat / 2 ^ 26 := by
  have := c.isLt
  rw [opField, BitVec.extractLsb'_toNat, Nat.shiftRight_eq_div_pow]
  omega

/-- `UNDEF_OPCODE` depends on the opcode alone (R98). -/
theorem decodeWord_eq_undefOpcode_iff :
    decodeWord c = .error .undefOpcode ↔ opRows.find? (fun r => r.op == opField c) = none := by
  unfold decodeWord
  split
  · next h => exact ⟨fun _ => h, fun _ => rfl⟩
  · next r h =>
    rw [h]
    refine ⟨fun he => ?_, nofun⟩
    split at he <;> cases he

/-- The five ranges of R98 hold no opcode of R96. -/
theorem find?_opRows_of_undefined : ∀ op : BitVec 6,
    ((0x02 ≤ op.toNat ∧ op.toNat ≤ 0x07) ∨ (0x0E ≤ op.toNat ∧ op.toNat ≤ 0x0F) ∨
      (0x19 ≤ op.toNat ∧ op.toNat ≤ 0x1F) ∨ (0x23 ≤ op.toNat ∧ op.toNat ≤ 0x27) ∨
      (0x2F ≤ op.toNat ∧ op.toNat ≤ 0x3F)) → opRows.find? (fun r => r.op == op) = none := by
  decide

/-- A word with some command's opcode that is no command's word has a reserved bit set (R97). -/
theorem decodeWord_eq_reservedField {i : Instr} (hop : opField (encode i) = opField c)
    (hno : ∀ j, encode j ≠ c) : decodeWord c = .error .reservedField := by
  cases h : decodeWord c with
  | ok j => exact absurd (encodeInvertsDecode c j h) (hno j)
  | error e =>
    cases e with
    | reservedField => rfl
    | undefOpcode =>
      rw [decodeWord_eq_undefOpcode_iff, ← hop, ← decodeWord_eq_undefOpcode_iff, decodeWord_encode] at h
      cases h

end

end Sys2Proof

namespace Sys2Proof.Machine

/-! ### The step of a `CMD` write that does not decode -/

/-- A decode error has the error effect on the state with the action taken from the host's list (R306). -/
theorem step_of_decode_error {s : State} {v : Word} {rest : List HostAction} {e : DecodeError}
    (hs : s.host = .write cmdSlot v :: rest) (hd : decode s.cfg.width v = .error e) :
    ∃ t, step s = .next t ∧
      ErrorEffect (errOfDecode e).code (errOfDecode e).detail (s.withHost rest) t := by
  refine ⟨_, ?_, errorEffect_raise _ _⟩
  rw [step_of_cmd hs, runCommand, State.withHost_cfg, hd]; rfl

/-- Settles O5: no row of the opcode map has the opcode. -/
theorem undefinedOpcodesRaise : Obligations.UndefinedOpcodesRaise := by
  unfold Obligations.UndefinedOpcodesRaise
  rintro s v rest o hs hv rfl ho
  refine step_of_decode_error (e := .undefOpcode) hs ?_
  rw [decode_of_lt hv, decodeWord_eq_undefOpcode_iff]
  apply find?_opRows_of_undefined
  rwa [toNat_opField, BitVec.extractLsb'_toNat]

/-- Settles O6: the word has a row but does not decode, since a word that decodes is a command's (R99). -/
theorem reservedFieldsRaise : Obligations.ReservedFieldsRaise := by
  unfold Obligations.ReservedFieldsRaise
  rintro s v rest hs hv ⟨i, hi⟩ hno
  refine step_of_decode_error (e := .reservedField) hs ?_
  have hword : (v.extractLsb' 0 32).toNat = v.toNat % 2 ^ 32 := BitVec.extractLsb'_toNat ..
  rw [decode_of_lt hv]
  refine decodeWord_eq_reservedField (i := i) (BitVec.eq_of_toNat_eq ?_) fun j hj => hno j ?_
  · rw [toNat_opField, toNat_opField, hi, hword]
  · rw [hj, hword]

/-- Settles O7: bits `[63:32]` are not 0, which R100 checks first. -/
theorem upperHalfRaises : Obligations.UpperHalfRaises := by
  unfold Obligations.UpperHalfRaises
  intro s v rest hs hw hv
  refine step_of_decode_error (e := .reservedField) hs (if_pos ⟨hw, fun hz => ?_⟩)
  have hz := congrArg BitVec.toNat hz
  have := v.isLt
  rw [BitVec.extractLsb'_toNat, Nat.shiftRight_eq_div_pow, BitVec.toNat_ofNat] at hz
  omega

end Sys2Proof.Machine
end

section
/-! PROOFS. `MONT.REDC` under its preconditions (R205), and `MONT.MULR` as `MP.MUL` and then `MONT.REDC` (R104,
R207). -/

namespace Sys2Proof.Machine

/-! ### Reading a result back -/

section

variable {s t : State} {d : DReg} {v : Nat}

/-- The first words of a result hold its value if it fits them. -/
theorem natOfWords_readWords_of_resultIs (hr : ResultIs d v s t) {n : Nat} (hn : n ≤ s.len d)
    (hv : v < s.cfg.width.base ^ n) (pos : Nat) :
    natOfWords s.cfg.width (t.readWords (s.base d) pos n) = v := by
  have hwords : t.readWords (s.base d) pos n = wordsOfNat s.cfg.width n v := by
    apply List.ext_getElem (by simp)
    intro j hj _
    rw [State.readWords_length] at hj
    rw [State.readWords_getElem, State.readWord_of_memWord (hr j (by omega)), wordsOfNat_getElem]
  rw [hwords, natOfWords_wordsOfNat, Nat.mod_eq_of_lt hv]

/-- A written operand that no word of the result touches reads as before, at whatever position. -/
theorem val_of_not_overlaps {e : DReg} (hd : DescsWithResult d s t) (hc : t.cfg = s.cfg) (hm : SameMemBut d s t)
    (ho : ¬Overlaps s d e) (hw : s.Written e) (pos pos' : Nat) : t.val e pos' = s.val e pos := by
  obtain ⟨hbase, hlen, -⟩ := hd e
  have hmem : ∀ j < s.len e, t.memWord (s.base e + j) = s.memWord (s.base e + j) := fun j hj =>
    hm _ fun hin => ho (by unfold Overlaps; omega)
  rw [State.val, State.val, State.words, State.words, hbase, hlen, hc,
    State.readWords_eq_of_written hmem hw (pos := pos)]

namespace DescsWithResult

variable (hd : DescsWithResult d s t) {e f : DReg}
include hd

theorem base_eq (e : DReg) : t.base e = s.base e := (hd e).1

theorem len_eq (e : DReg) : t.len e = s.len e := (hd e).2.1

theorem inBounds (hc : t.cfg = s.cfg) (h : InBounds s e) : InBounds t e := by
  unfold InBounds
  rwa [hd.base_eq e, hd.len_eq e, hc]

theorem not_overlaps (h : ¬Overlaps s e f) : ¬Overlaps t e f := by
  unfold Overlaps
  rwa [hd.base_eq e, hd.len_eq e, hd.base_eq f, hd.len_eq f]

theorem neg_result : t.neg d = false := (hd d).2.2.trans (if_pos rfl)

theorem neg_eq_false (h : s.neg e = false) : t.neg e = false := by
  rw [(hd e).2.2, h, ite_self]

end DescsWithResult

end

/-! ### `MONT.REDC` under its preconditions -/

/-- The low word of a number is its first word (R9). -/
theorem natOfWords_mod_base {w : Width} {ws : List Nat} (h : ∀ x ∈ ws, x < w.base) :
    natOfWords w ws % w.base = ws.getD 0 0 := by
  cases ws with
  | nil => exact Nat.zero_mod _
  | cons x xs =>
    rw [natOfWords, Nat.add_mul_mod_self_left, Nat.mod_eq_of_lt (h x (by simp)), List.getD_cons_zero]

/-- Past its checks and under its preconditions, `MONT.REDC` writes the Montgomery reduction (R205). -/
theorem exec_montRedc_of_ready {s : State} {dr dz dp : DReg} {xpd : XReg} {z p : Nat}
    (hnone : redcError dr dz dp s = none)
    (hz : z = natOfWords s.cfg.width (s.readWords (s.base dz) 0 (2 * s.len dp)))
    (hp : p = s.val dp (s.len dz)) (hready : MontgomeryReady s.cfg.width z p (s.len dp) (s.x xpd)) :
    ∃ r, exec (.montRedc dr dz dp xpd) s = .next (s.writeResult dr r).completed ∧ r < p ∧
      r * 2 ^ (s.cfg.width.bits * s.len dp) % p = z % p := by
  obtain ⟨-, hpd, hlt⟩ := hready
  subst hz hp
  have hwords : ∀ x ∈ s.words dp (s.len dz), x < s.cfg.width.base := fun _ => State.readWords_lt
  rw [State.val, natOfWords_mod_base hwords] at hpd
  obtain ⟨hr, hmod⟩ := montyRedcCore_spec s.cfg.width (s.readWords_length _ _ _) (s.readWords_length _ _ _)
    hwords hpd hlt
  exact ⟨_, exec_montRedc xpd hnone, hr, by rwa [Nat.pow_mul]⟩

/-! ### `MONT.MULR` -/

theorem exec_next (i : Instr) (s : State) : ∃ t, exec i s = .next t := by
  rcases exec_cases i s with ⟨e, he⟩ | ⟨u, -, he⟩
  · exact ⟨_, he⟩
  · exact ⟨_, he⟩

/-- The two commands of `MONT.MULR` run one after the other (R104). -/
theorem runCommands_expand {p : Mulr} {s u t : State} (hmul : exec (.mpMul p.dt p.da p.db) s = .next u)
    (hredc : exec (.montRedc p.dr p.dt p.dp p.xpd) u = .next t) : runCommands p.expand s = .next t := by
  simp only [Mulr.expand, runCommands, hmul, hredc]

/-- Settles O50: `MP.MUL` leaves the whole product in `dt` and the modulus as it was, so that `MONT.REDC` finds
its preconditions met. -/
theorem mulrIsMontgomeryMultiplication : Obligations.MulrIsMontgomeryMultiplication := by
  unfold Obligations.MulrIsMontgomeryMultiplication
  constructor
  · intro s dr da db dp dt xpd a b p hbr hba hbb hbp hbt hna hnb hnp hca hcb hlt hn hcp hlp hlr hota hotb
      hotp hort horp hwp ha hb hp hodd hpd hap hbp'
    have hmul := exec_mpMul (mpMulError_eq_none hbt hba hbb hna hnb hca hcb hlt hota hotb)
    rw [← ha, ← hb] at hmul
    obtain ⟨hres, hdescs, hmem, hx, ⟨-, -, hsticky⟩, ⟨hc, -⟩, -⟩ := frame_writeResult s dt (a * b)
    generalize (s.writeResult dt (a * b)).completed = u at *
    have hnone : redcError dr dt dp u = none := by
      refine redcError_eq_none (hdescs.inBounds hc hbr) (hdescs.inBounds hc hbt) (hdescs.inBounds hc hbp)
        hdescs.neg_result (hdescs.neg_eq_false hnp) ?_ ?_ ?_ ?_ (hdescs.not_overlaps hort)
        (hdescs.not_overlaps horp) <;> simpa only [hdescs.len_eq, hc]
    have hpR : p < s.cfg.width.base ^ s.len dp := hp ▸ s.val_lt dp 0
    have hzR : a * b < p * s.cfg.width.base ^ s.len dp := Nat.mul_lt_mul'' hap (hbp'.trans hpR)
    have hfit : a * b < s.cfg.width.base ^ (2 * s.len dp) := by
      rw [Nat.two_mul, Nat.pow_add]
      exact hzR.trans_le (Nat.mul_le_mul_right _ hpR.le)
    have hz : a * b = natOfWords u.cfg.width (u.readWords (u.base dt) 0 (2 * u.len dp)) := by
      rw [hc, hdescs.base_eq dt, hdescs.len_eq dp, natOfWords_readWords_of_resultIs hres hlp hfit]
    have hpu : p = u.val dp (u.len dt) := hp.trans (val_of_not_overlaps hdescs hc hmem hotp hwp 0 _).symm
    have hready : MontgomeryReady u.cfg.width (a * b) p (u.len dp) (u.x xpd) := by
      rw [hc, hdescs.len_eq dp, hx xpd]
      exact ⟨hodd, hpd, hzR⟩
    obtain ⟨r, hredc, hr, hmod⟩ := exec_montRedc_of_ready hnone hz hpu hready
    obtain ⟨hresult, -, -, -, ⟨hcode, hdetail, hsticky'⟩, -⟩ := frame_writeResult u dr r
    rw [hc, hdescs.len_eq dp] at hmod
    refine ⟨_, r, runCommands_expand (p := ⟨dr, da, db, dp, xpd, dt⟩) hmul hredc,
      ⟨hcode, hdetail, hsticky'.trans hsticky⟩, fun j hj => ?_, hr, hmod⟩
    have hword := hresult j (hdescs.len_eq dr ▸ hj)
    rwa [hc, hdescs.base_eq dr] at hword
  · intro s dr da db dp dt xpd
    obtain ⟨u, hu⟩ := exec_next (.mpMul dt da db) s
    obtain ⟨t, ht⟩ := exec_next (.montRedc dr dt dp xpd) u
    exact ⟨u, t, hu, ht, runCommands_expand (p := ⟨dr, da, db, dp, xpd, dt⟩) hu ht⟩

end Sys2Proof.Machine
end

section
/-! PROOFS. The accumulator under its commands: sums modulo `2^(3W)` (R120 to R123), the low word a Montgomery
step clears (R127), the words `W3.EXTRACT` takes out (R126) and columns that never wrap (R128). -/

namespace Sys2Proof.Machine

/-! ### Sums into the accumulator -/

/-- The commands of a product-scanning column (R128). -/
def AddsTerm (i : Instr) : Prop := (∃ a, i = .w3Add a) ∨ ∃ a b, i = .w3Mul a b

section

variable {i : Instr} (s : State)

/-- `W3.ADD` and `W3.MUL` add their term to the accumulator (R122, R123). -/
theorem exec_of_addsTerm (hi : AddsTerm i) :
    exec i s = .next (s.setAcc (s.acc + accTerm s i)).completed := by
  rcases hi with ⟨a, rfl⟩ | ⟨a, b, rfl⟩
  · rfl
  · rfl

/-- A term is a word or a product of two words. -/
theorem accTerm_lt (hi : AddsTerm i) : accTerm s i < s.cfg.width.base ^ 2 := by
  rcases hi with ⟨a, rfl⟩ | ⟨a, b, rfl⟩
  · exact (s.x_lt a).trans (lt_self_pow₀ s.cfg.width.one_lt_base (by decide))
  · exact (Nat.mul_lt_mul'' (s.x_lt a) (s.x_lt b)).trans_eq (Nat.pow_two _).symm

theorem exec_w3Clr : exec .w3Clr s = .next (s.setAcc 0).completed := rfl

end

/-- Settles O34: each of the three commands is one write of `ACC`. -/
theorem accumulatorAddsModulo3W : Obligations.AccumulatorAddsModulo3W := by
  unfold Obligations.AccumulatorAddsModulo3W
  intro s a b
  rw [Width.two_pow_three_bits]
  obtain ⟨hclr, frame⟩ := frame_setAcc s 0
  exact ⟨⟨_, exec_w3Clr s, hclr.trans (Nat.zero_mod _), frame⟩,
    ⟨_, exec_of_addsTerm s (.inl ⟨a, rfl⟩), frame_setAcc s _⟩,
    _, exec_of_addsTerm s (.inr ⟨a, b, rfl⟩), frame_setAcc s _⟩

/-! ### The low word of a Montgomery step -/

/-- Where `pd` is the negated inverse of `p`, the digit `a·pd mod b` makes `a` plus its product with `p` a
multiple of `b` (R127). -/
theorem dvd_add_digit_mul {b p pd : Nat} (h : (p * pd + 1) % b = 0) (a : Nat) : b ∣ a + a * pd % b * p := by
  have hmod : a + a * pd % b * p ≡ a + a * pd * p [MOD b] := ((Nat.mod_modEq _ _).mul_right p).add_left a
  have hfactor : a + a * pd * p = a * (p * pd + 1) := by ring
  rw [hmod.dvd_iff dvd_rfl, hfactor]
  exact (Nat.dvd_of_mod_eq_zero h).mul_left a

/-- Settles O36: the sum is a multiple of `2^W`, and stays one when it is reduced modulo `2^(3W)`. -/
theorem montgomeryStepClearsTheLowWord : Obligations.MontgomeryStepClearsTheLowWord := by
  unfold Obligations.MontgomeryStepClearsTheLowWord
  intro s t d p0 pd _ hinv
  obtain ⟨⟨t₁, hstep, -, hacc, -, -, ⟨hc, -⟩, -⟩, t₂, hstepx, -, haccx, -⟩ :=
    montgomeryStepsFoldTheLowWord s d p0 pd _ rfl
  have hdvd := (Nat.dvd_mod_iff (n := 2 ^ (3 * s.cfg.width.bits)) (pow_dvd_pow 2 (by omega))).2
    (dvd_add_digit_mul hinv s.acc)
  constructor
  · intro ht
    obtain rfl : t₁ = t := Host.Outcome.next.inj (hstep.symm.trans ht)
    calc t₁.accWord 0 = t₁.acc % t₁.cfg.width.base := t₁.acc_mod_base.symm
      _ = 0 := by rw [hacc, hc]; exact Nat.mod_eq_zero_of_dvd hdvd
  · intro ht
    obtain rfl : t₂ = t := Host.Outcome.next.inj (hstepx.symm.trans ht)
    rw [haccx, Nat.div_mul_cancel hdvd]

/-! ### Extracts -/

section

variable (s : State) (d : XReg)

theorem State.accWord_lt (j : Fin 3) : s.accWord j < s.cfg.width.base := by
  match j with
  | 0 | 1 | 2 => exact Width.low_lt _ _

/-- The accumulator without its low word (R22). -/
theorem State.acc_div_base : s.acc / s.cfg.width.base = s.accWord 1 + s.accWord 2 * s.cfg.width.base := by
  have hacc : s.acc = s.accWord 0 + s.cfg.width.base * (s.accWord 1 + s.accWord 2 * s.cfg.width.base) := by
    simp only [State.acc, State.accWord]; ring
  rw [hacc, Nat.add_mul_div_left _ _ s.cfg.width.base_pos, Nat.div_eq_of_lt (s.accWord_lt 0), Nat.zero_add]

/-- The state `W3.EXTRACT` leaves (R126). -/
def State.extracted : State := ((s.setAcc (s.acc / s.cfg.width.base)).setX d s.accLow).completed

theorem exec_w3Extract : exec (.w3Extract d) s = .next (s.extracted d) := rfl

/-- An extract writes the low word, and the shifted accumulator fits its three words. -/
theorem frame_extracted :
    (s.extracted d).x d = s.accWord 0 ∧ (s.extracted d).acc = s.acc / s.cfg.width.base ∧
    SameXBut d s (s.extracted d) ∧ StatusOk s (s.extracted d) ∧ SameHost s (s.extracted d) ∧
    SameDescs s (s.extracted d) ∧ SameCtx s (s.extracted d) ∧ SameMem s (s.extracted d) := by
  obtain ⟨hx, hacc, frame⟩ := frame_setAcc_setX s (s.acc / s.cfg.width.base) d s.accLow_lt
  rw [Nat.mod_eq_of_lt ((Nat.div_le_self _ _).trans_lt s.acc_lt)] at hacc
  exact ⟨hx, hacc, frame⟩

theorem State.extracted_accWord_zero : (s.extracted d).accWord 0 = s.accWord 1 := by
  calc (s.extracted d).accWord 0 = s.acc / s.cfg.width.base % s.cfg.width.base := Width.low_cell _ _
    _ = s.accWord 1 := by
      rw [s.acc_div_base, Nat.add_mul_mod_self_right, Nat.mod_eq_of_lt (s.accWord_lt 1)]

theorem State.extracted_accWord_one : (s.extracted d).accWord 1 = s.accWord 2 := by
  calc (s.extracted d).accWord 1
      = s.acc / s.cfg.width.base / s.cfg.width.base % s.cfg.width.base := Width.low_cell _ _
    _ = s.accWord 2 := by
      rw [Nat.div_div_eq_div_mul, ← Nat.pow_two, s.acc_div_base_sq, Nat.mod_eq_of_lt (s.accWord_lt 2)]

theorem State.extracted_accWord_two : (s.extracted d).accWord 2 = 0 := by
  refine State.accWord_two_eq_zero _ ?_
  obtain ⟨-, hacc, -⟩ := frame_extracted s d
  rw [hacc]
  exact Nat.div_lt_of_lt_mul (s.acc_lt.trans_eq (Nat.pow_succ' ..))

end

/-- Settles O37: each extract moves the words of the accumulator down one place, with 0 moving in at the
top. -/
theorem extractShiftsWordsOut : Obligations.ExtractShiftsWordsOut := by
  unfold Obligations.ExtractShiftsWordsOut
  refine ⟨fun s d => ⟨_, exec_w3Extract s d, frame_extracted s d⟩, fun s d e f hde hdf hef =>
    ⟨((s.extracted d).extracted e).extracted f, rfl, ?_⟩⟩
  obtain ⟨hd, -⟩ := frame_extracted s d
  obtain ⟨he, -, hframe₂, -⟩ := frame_extracted (s.extracted d) e
  obtain ⟨hf, hacc, hframe₃, -⟩ := frame_extracted ((s.extracted d).extracted e) f
  refine ⟨?_, ?_, ?_, ?_⟩
  · rw [hframe₃ d hdf, hframe₂ d hde, hd]
  · rw [hframe₃ e hef, he, State.extracted_accWord_zero]
  · rw [hf, State.extracted_accWord_zero, State.extracted_accWord_one]
  · rw [hacc, State.acc_div_base, State.extracted_accWord_one, State.extracted_accWord_two,
      State.extracted_accWord_two, Nat.zero_mul]

/-! ### Columns -/

/-- A term depends on the word registers alone. -/
theorem accTerm_congr {s t : State} (h : SameX s t) : accTerm t = accTerm s := by
  funext i
  cases i with
  | w3Add a => exact h a
  | w3Mul a b => exact congrArg₂ (· * ·) (h a) (h b)
  | _ => rfl

theorem sum_accTerm_le {is : List Instr} (s : State) (his : ∀ i ∈ is, AddsTerm i) :
    (is.map (accTerm s)).sum ≤ is.length * s.cfg.width.base ^ 2 := by
  have hle : ∀ n ∈ is.map (accTerm s), n ≤ s.cfg.width.base ^ 2 :=
    List.forall_mem_map.2 fun i hi => (accTerm_lt s (his i hi)).le
  simpa using List.sum_le_card_nsmul _ _ hle

/-- With room for one `b^2` per command left below `b^3`, no sum of the sequence wraps (R128). -/
theorem runCommands_column {is : List Instr} (his : ∀ i ∈ is, AddsTerm i) {s : State}
    (hroom : s.acc + is.length * s.cfg.width.base ^ 2 < s.cfg.width.base ^ 3) :
    ∃ t, runCommands is s = .next t ∧ t.acc = s.acc + (is.map (accTerm s)).sum ∧ SameX s t := by
  induction is generalizing s with
  | nil => exact ⟨s, rfl, rfl, fun _ => rfl⟩
  | cons i is ih =>
    obtain ⟨hi, his⟩ := List.forall_mem_cons.1 his
    have hterm := accTerm_lt s hi
    rw [List.length_cons, Nat.succ_mul] at hroom
    obtain ⟨hacc, -, ⟨hc, -⟩, hx, -⟩ := frame_setAcc s (s.acc + accTerm s i)
    rw [Nat.mod_eq_of_lt (by omega)] at hacc
    have hexec := exec_of_addsTerm s hi
    generalize (s.setAcc (s.acc + accTerm s i)).completed = u at *
    obtain ⟨t, hrun, hsum, hxt⟩ := ih his (s := u) (by rw [hacc, hc]; omega)
    refine ⟨t, by rw [runCommands, hexec]; exact hrun, ?_, fun r => (hxt r).trans (hx r)⟩
    rw [hsum, hacc, accTerm_congr hx, List.map_cons, List.sum_cons, Nat.add_assoc]

/-- Settles O38: `2^W` times `b^2` is `b^3`, so that every command of the column has room. -/
theorem productScanningColumnsNeverWrap : Obligations.ProductScanningColumnsNeverWrap := by
  unfold Obligations.ProductScanningColumnsNeverWrap
  intro is s his hacc hlen
  have hsq : 2 ^ (2 * s.cfg.width.bits) = s.cfg.width.base ^ 2 := by
    rw [Width.base, ← Nat.pow_mul, Nat.mul_comm]
  rw [hsq] at hacc ⊢
  have hfit : (is.length + 1) * s.cfg.width.base ^ 2 ≤ s.cfg.width.base ^ 3 :=
    (Nat.mul_le_mul_right _ hlen).trans_eq (Nat.pow_succ' ..).symm
  have hsum := sum_accTerm_le s his
  rw [Nat.succ_mul] at hfit ⊢
  obtain ⟨t, hrun, htacc, hx⟩ := runCommands_column his (by omega : _ < s.cfg.width.base ^ 3)
  exact ⟨t, hrun, htacc, by omega, hx⟩

end Sys2Proof.Machine
end

section
/-! PROOFS. The mask commands (R150 to R155). -/

namespace Sys2Proof.Machine

/-- Settles O39: each of the five commands is `MASK` of its condition, written to the register it names. -/
theorem maskCommandsWriteMasks : Obligations.MaskCommandsWriteMasks := by
  unfold Obligations.MaskCommandsWriteMasks
  intro s d a b
  simp only [exec, execCtMaskb, execCtMasknz, execCtMaskz, execCtMaskeq, execCtMasklt]
  exact ⟨frame_writeMask s d (s.x a % 2 = 1), frame_writeMask s d (s.x a ≠ 0),
    frame_writeMask s d (s.x a = 0), frame_writeMask s d (s.x a = s.x b),
    frame_writeMask s d (s.x a < s.x b)⟩

end Sys2Proof.Machine
end

section
/-! PROOFS. `MONT.PDASH` (R200, R201), and `MONT.REDC` on all values and under its preconditions (R202 to
R206). -/

namespace Sys2Proof.Machine

/-! ### `MONT.PDASH` -/

/-- A number whose product with another is -1 modulo `2^W` is odd: `2^W` is even, so the product is odd. -/
theorem odd_of_mul_add_one_mod_base {w : Width} {x y : Nat} (h : (x * y + 1) % w.base = 0) : y % 2 = 1 := by
  have htwo : 2 ∣ w.base := dvd_pow_self 2 w.bits_pos.ne'
  have hsucc : 2 ∣ x * y + 1 := htwo.trans (Nat.dvd_of_mod_eq_zero h)
  have hodd : Odd (x * y) := Nat.odd_iff.2 (by omega)
  exact Nat.odd_iff.1 (Nat.odd_mul.1 hodd).2

section

variable {s : State} (d : XReg) {a : XReg}

theorem exec_montPdash_of_odd (h : s.x a % 2 = 1) :
    exec (.montPdash d a) s = .next (s.setX d (pDash s.cfg.width (s.x a))).completed := by
  rw [exec, execMontPdash, if_neg (by omega)]; rfl

theorem exec_montPdash_of_even (h : s.x a % 2 = 0) : exec (.montPdash d a) s = raise .even s := by
  rw [exec, execMontPdash, if_pos h]

end

/-- Settles O46: an odd word has a `p'`, a word itself, and its own product is odd. -/
theorem pDashIsTheNegatedInverse : Obligations.PDashIsTheNegatedInverse := by
  unfold Obligations.PDashIsTheNegatedInverse
  intro s d a
  constructor
  · intro hodd
    obtain ⟨hx, frame⟩ := frame_setX s d (pDash s.cfg.width (s.x a))
    have hlt := pDash_lt s.cfg.width (s.x a)
    have hinv := pDash_spec s.cfg.width hodd
    rw [Nat.mod_eq_of_lt hlt] at hx
    rw [← hx] at hlt hinv
    exact ⟨_, exec_montPdash_of_odd d hodd, hinv, odd_of_mul_add_one_mod_base hinv, hlt, frame⟩
  · intro heven
    exact ⟨_, exec_montPdash_of_even d heven, errorEffect_raise .even s⟩

/-! ### `MONT.REDC` -/

/-- Settles O47: the result of the algorithm is below `2^(W·n)` whatever its operands are, so that it fits the
`n` words `SIZE` asks for. -/
theorem redcCompletesOutsidePreconditions : Obligations.RedcCompletesOutsidePreconditions := by
  unfold Obligations.RedcCompletesOutsidePreconditions
  intro s dr dz dp xpd hr hz hp hnz hnp hn hcap hlz hlr hoz hop
  have hexec := exec_montRedc xpd (redcError_eq_none hr hz hp hnz hnp hn hcap hlz hlr hoz hop)
  obtain ⟨hres, hdescs, frame⟩ := frame_writeResult s dr (montyRedcCore s.cfg.width
    (s.readWords (s.base dz) 0 (2 * s.len dp)) (s.words dp (s.len dz)) (s.len dp) (s.x xpd))
  have hwords : s.cfg.width.base ^ s.len dp ≤ s.cfg.width.base ^ s.len dr :=
    Nat.pow_le_pow_right s.cfg.width.base_pos hlr
  exact ⟨_, _, hexec, rfl, (montyRedcCore_lt ..).trans_eq (Nat.pow_mul ..).symm, hres,
    val_of_resultIs hres hdescs rfl ((montyRedcCore_lt ..).trans_le hwords), hdescs, frame⟩

/-- Settles O48: past its checks `MONT.REDC` writes the Montgomery reduction. -/
theorem redcIsMontgomeryReduction : Obligations.RedcIsMontgomeryReduction := by
  unfold Obligations.RedcIsMontgomeryReduction
  intro s dr dz dp xpd z p hbr hbz hbp hnz hnp hn hcap hlz hlr hoz hop hz hp hready
  have hnone := redcError_eq_none hbr hbz hbp hnz hnp hn hcap hlz hlr hoz hop
  obtain ⟨r, hexec, hlt, hmod⟩ := exec_montRedc_of_ready hnone hz hp hready
  obtain ⟨hres, -⟩ := frame_writeResult s dr r
  exact ⟨_, r, hexec, hres, hlt, hmod⟩

end Sys2Proof.Machine
end

section
/-! PROOFS. The Barrett commands (`45_barrett.md`): their checks in order (R231, R235), the life of a slot (R231 to
R234), and exact reduction by a valid slot (R237 to R241). -/

namespace Sys2Proof.Machine

/-! ### A command with one check function -/

/-- The end of a command whose first failed check is `o` and which writes `u` when none fails (R304 to R306). -/
def checked (o : Option Err) (s u : State) : Result :=
  match o with
  | some e => raise e s
  | none => succeed u

section

variable {i : Instr} {s u : State} {o : Option Err} (hi : exec i s = checked o s u)
include hi

theorem exec_of_checked_none (ho : o = none) : exec i s = .next u.completed := by rw [hi, ho]; rfl

theorem exec_of_checked_some {e : Err} (ho : o = some e) : exec i s = raise e s := by rw [hi, ho]; rfl

theorem FirstFailure.raisesInOrder_checked {checks : List (Prop × BitVec 4 × BitVec 8)}
    (h : FirstFailure checks o) (hu : StatusOk s u.completed) : RaisesInOrder i s checks :=
  h.raisesInOrder (fun _ => exec_of_checked_some hi) fun ho => ⟨_, exec_of_checked_none hi ho, hu⟩

end

/-! ### The setups and `BAR.FREE` -/

/-- The setup that builds a slot of mode `md` (R231, R232). -/
def Mode.setup (md : Mode) (da : DReg) (c : CtxIx) : Instr :=
  match md with
  | .secretModulus => .barSetups da c
  | .publicModulus => .barSetupp da c

section

variable {s : State} {da : DReg} {c : CtxIx}

theorem exec_setup (md : Mode) : exec (md.setup da c) s =
    checked (setupError da c s) s (s.setCtx c (barrettCtxOf s.cfg.width md (s.val da 0))) := by
  cases md <;> rfl

theorem eq_setup {i : Instr} (h : i = .barSetups da c ∨ i = .barSetupp da c) : ∃ md : Mode, i = md.setup da c :=
  h.elim (fun h => ⟨.secretModulus, h⟩) fun h => ⟨.publicModulus, h⟩

theorem not_inBounds_iff : (!s.inBounds da) = true ↔ ¬InBounds s da := by
  rw [Bool.not_eq_true', ← Bool.not_eq_true, s.inBounds_iff]

/-- `CAPACITY` in powers of 2 (R231). -/
theorem lt_sigWords_iff (w : Width) (v n : Nat) : n < sigWords w v ↔ 2 ^ (w.bits * n) ≤ v := by
  rw [← Nat.not_le, sigWords_le_iff, Nat.not_lt, Width.base, ← Nat.pow_mul]

theorem exec_barFree (h : c.val < s.cfg.nctx) : exec (.barFree c) s = .next (s.setCtx c .empty).completed :=
  if_neg (Nat.not_le.2 h)

theorem exec_barFree_of_no_slot (h : s.cfg.nctx ≤ c.val) : exec (.barFree c) s = raise .ctxIndex s :=
  if_pos h

end

/-- Settles O52: the check function is a chain in R231's order. -/
theorem setupChecksInOrder : Obligations.SetupChecksInOrder := by
  unfold Obligations.SetupChecksInOrder
  intro s da c i hi
  obtain ⟨md, rfl⟩ := eq_setup hi
  refine FirstFailure.raisesInOrder_checked (exec_setup md) ?_ ⟨rfl, rfl, rfl⟩
  exact .check (e := .ctxIndex) .rfl <| .check (e := .ctxInuse) .rfl <|
    .check (e := .descBounds) not_inBounds_iff <| .check (e := .negZero) (s.negZero_iff da 0) <|
    .check (e := .negative) .rfl <| .check (e := .zeroModulus) .rfl <|
    .check (e := .capacity) (lt_sigWords_iff _ _ _) rfl

/-- Settles O53: the slot holds `BCTX`'s reset value, or there is no slot. -/
theorem freeUninitialisesTheSlot : Obligations.FreeUninitialisesTheSlot := by
  unfold Obligations.FreeUninitialisesTheSlot
  intro s c
  constructor
  · intro hc
    obtain ⟨hctx, frame⟩ := frame_setCtx s c .empty
    refine ⟨_, exec_barFree hc, ?_⟩
    rw [hctx]
    exact ⟨rfl, rfl, rfl, rfl, rfl, frame⟩
  · intro hc
    exact ⟨_, exec_barFree_of_no_slot hc, errorEffect_raise .ctxIndex s⟩

/-! ### `MODE` -/

/-- The fields of a slot that reductions use are equal: all but `MODE` (R233). -/
def SameReducer (a b : BarrettCtx) : Prop := b.valid = a.valid ∧ b.k = a.k ∧ b.m = a.m ∧ b.mu = a.mu

/-- State `t` differs from `s` in `MODE` of slots at most, of what a command may write. -/
def SameButMode (s t : State) : Prop :=
  t.status = s.status ∧ t.regs = s.regs ∧ t.descs = s.descs ∧ t.opmem = s.opmem ∧ SameAcc s t ∧
    ∀ k : CtxIx, SameReducer (s.ctx k) (t.ctx k)

def State.withMode (s : State) (c : CtxIx) (md : Mode) : State := s.setCtx c { s.ctx c with mode := md }

section

variable (s : State) (c : CtxIx) (md : Mode)

theorem sameReducer_withMode (k : CtxIx) : SameReducer (s.ctx k) ((s.withMode c md).ctx k) := by
  rw [State.withMode, State.ctx_setCtx]
  split
  · subst k; exact ⟨rfl, rfl, rfl, rfl⟩
  · exact ⟨rfl, rfl, rfl, rfl⟩

theorem sameOperands_withMode : SameOperands s (s.withMode c md) := by
  have h := sameReducer_withMode s c md
  simp only [SameReducer, forall_and] at h
  obtain ⟨hvalid, hk, hm, hmu⟩ := h
  exact ⟨rfl, rfl, rfl, rfl, hvalid, hk, hm, hmu⟩

/-- A write over another `MODE` leaves that difference at most. -/
theorem Write.sameButMode (w : Write) :
    SameButMode (w.apply s).completed (w.apply (s.withMode c md)).completed := by
  cases w with
  | slot c' b =>
    refine ⟨rfl, rfl, rfl, rfl, ⟨rfl, rfl, rfl⟩, fun k => ?_⟩
    simp only [Write.apply, State.conclude_ctx, State.ctx_setCtx]
    split
    · exact ⟨rfl, rfl, rfl, rfl⟩
    · exact sameReducer_withMode s c md k
  | _ => exact ⟨rfl, rfl, rfl, rfl, ⟨rfl, rfl, rfl⟩, sameReducer_withMode s c md⟩

/-- The two runs of a command that differ in the `MODE` of one slot. -/
theorem exec_withMode_sameButMode (i : Instr) :
    ∃ t t' : State, exec i s = .next t ∧ exec i (s.withMode c md) = .next t' ∧ SameButMode t t' := by
  rcases exec_congr (i := i) (sameOperands_withMode s c md) rfl fun _ => ⟨rfl, rfl, rfl⟩ with
    ⟨e, hs, hs'⟩ | ⟨w, -, hs, hs'⟩
  · exact ⟨_, _, hs, hs', rfl, rfl, rfl, rfl, ⟨rfl, rfl, rfl⟩, sameReducer_withMode s c md⟩
  · exact ⟨_, _, hs, hs', w.sameButMode s c md⟩

/-- The two setups from one operand build the same reducer, or raise the same error. -/
theorem exec_setups_sameReducer (da : DReg) : ∃ t t' : State,
    exec (.barSetups da c) s = .next t ∧ exec (.barSetupp da c) s = .next t' ∧ t'.status = t.status ∧
      SameReducer (t.ctx c) (t'.ctx c) := by
  have hsecret := exec_setup (s := s) (da := da) (c := c) .secretModulus
  have hpublic := exec_setup (s := s) (da := da) (c := c) .publicModulus
  cases ho : setupError da c s with
  | some e =>
    exact ⟨_, _, exec_of_checked_some hsecret ho, exec_of_checked_some hpublic ho, rfl, rfl, rfl, rfl, rfl⟩
  | none =>
    refine ⟨_, _, exec_of_checked_none hsecret ho, exec_of_checked_none hpublic ho, rfl, ?_⟩
    rw [(frame_setCtx s c _).1, (frame_setCtx s c _).1]
    exact ⟨rfl, rfl, rfl, rfl⟩

end

/-- Settles O21: `exec_congr` reads no `MODE`. -/
theorem modeChangesNoResult : Obligations.ModeChangesNoResult := by
  unfold Obligations.ModeChangesNoResult
  exact ⟨fun da c s => exec_setups_sameReducer s c da, fun i s c md => exec_withMode_sameButMode s c md i⟩

/-! ### The checks of the reductions -/

/-- The checks of R235 over the inputs `ins`, in order; `RANGE` only where the command has it. -/
def reduceChecks (ranged : Bool) (dr : DReg) (ins : List (DReg × Nat)) (c : CtxIx) (s : State) :
    List (Prop × BitVec 4 × BitVec 8) :=
  [ (s.cfg.nctx ≤ c.val, 1#4, 0x10#8),
    ((s.ctx c).valid = false, 2#4, 0x20#8),
    (¬InBounds s dr ∨ ∃ p ∈ ins, ¬InBounds s p.1, 1#4, 0x11#8),
    (∃ p ∈ ins, s.neg p.1 = true ∧ s.val p.1 p.2 = 0, 1#4, 0x12#8),
    (∃ p ∈ ins, s.neg p.1 = true, 1#4, 0x13#8),
    (s.len dr < (s.ctx c).words, 1#4, 0x16#8),
    (∃ p ∈ ins, Overlaps s dr p.1, 1#4, 0x17#8) ] ++
  if ranged then [(∃ p ∈ ins, (s.ctx c).m ≤ s.val p.1 p.2, 1#4, 0x18#8)] else []

section

variable (s : State) (dr da db : DReg) (c : CtxIx)

theorem reduceError_firstFailure (ranged : Bool) (ins : List (DReg × Nat)) :
    FirstFailure (reduceChecks ranged dr ins c s) (reduceError ranged dr ins c s) := by
  refine .check (e := .ctxIndex) .rfl <| .check (e := .ctxUninit) ?_ <| .check (e := .descBounds) ?_ <|
    .check (e := .negZero) ?_ <| .check (e := .negative) ?_ <| .check (e := .size) .rfl <|
    .check (e := .aliased) ?_ ?_
  · rw [Bool.not_eq_true']
  · simp [← s.inBounds_iff]
  · simp [State.negZero]
  · simp
  · simp [← s.overlap_iff]
  · cases ranged with
    | false => exact if_neg (by simp)
    | true => exact .check (e := .range) (by simp) rfl

theorem raisesInOrder_of_reduceChecks {i : Instr} {ranged : Bool} {ins : List (DReg × Nat)} {v : Nat}
    (hi : exec i s = checked (reduceError ranged dr ins c s) s (s.writeResult dr v)) :
    RaisesInOrder i s (reduceChecks ranged dr ins c s) :=
  (reduceError_firstFailure s dr c ranged ins).raisesInOrder_checked hi ⟨rfl, rfl, rfl⟩

theorem exec_barRed : exec (.barRed dr da c) s = checked (reduceError false dr [(da, 0)] c s) s
    (s.writeResult dr (if 2 * (s.ctx c).words < sigWords s.cfg.width (s.val da 0) then
      s.val da 0 % (s.ctx c).m else s.barrett c (s.val da 0))) := rfl

theorem exec_barMul : exec (.barMul dr da db c) s =
    checked (reduceError true dr [(da, 0), (db, s.len da)] c s) s
      (s.writeResult dr (s.barrett c (s.val da 0 * s.val db (s.len da)))) := rfl

theorem exec_barSqr : exec (.barSqr dr da c) s = checked (reduceError true dr [(da, 0)] c s) s
    (s.writeResult dr (s.barrett c (s.val da 0 * s.val da 0))) := rfl

theorem exec_barCube : exec (.barCube dr da c) s = checked (reduceError true dr [(da, 0)] c s) s
    (s.writeResult dr (s.barrett c (s.val da 0 * s.barrett c (s.val da 0 * s.val da 0)))) := rfl

end

/-- Settles O57: each list is R235's, over the inputs of the command. -/
theorem reductionChecksInOrder : Obligations.ReductionChecksInOrder := by
  unfold Obligations.ReductionChecksInOrder
  intro s dr da db c
  have red := raisesInOrder_of_reduceChecks s dr c (exec_barRed s dr da c)
  have mul := raisesInOrder_of_reduceChecks s dr c (exec_barMul s dr da db c)
  have sqr := raisesInOrder_of_reduceChecks s dr c (exec_barSqr s dr da c)
  have cube := raisesInOrder_of_reduceChecks s dr c (exec_barCube s dr da c)
  simp only [reduceChecks, List.mem_cons, List.not_mem_nil, or_false, exists_eq_or_imp, exists_eq_left]
    at red mul sqr cube
  refine ⟨red, mul, fun i hi => ?_⟩
  rcases hi with rfl | rfl
  · exact sqr
  · exact cube

/-! ### Exact reduction -/

/-- What a valid slot of the invariant holds (R35, R230). -/
theorem BarrettCtx.Legal.bounds {cfg : Config} {b : BarrettCtx} (hl : b.Legal cfg) (hv : b.valid = true) :
    1 ≤ b.words ∧ cfg.width.base ^ (b.words - 1) ≤ b.m ∧ b.m < cfg.width.base ^ b.words ∧
      b.mu = cfg.width.base ^ (2 * b.words) / b.m := by
  rw [BarrettCtx.Legal, if_pos hv] at hl
  obtain ⟨hk, -, hbounds⟩ := hl
  exact ⟨hk, hbounds⟩

section

variable {s : State} {c : CtxIx} (hv : (s.ctx c).valid = true) (hl : (s.ctx c).Legal s.cfg)
include hv hl

/-- The slot's reducer computes `x mod m` on the Barrett path (R237). -/
theorem State.barrett_eq_mod {x : Nat} (hx : x < s.cfg.width.base ^ (2 * (s.ctx c).words)) :
    s.barrett c x = x % (s.ctx c).m := by
  obtain ⟨hk, hlo, hhi, hmu⟩ := hl.bounds hv
  exact barrettCore_eq_mod s.cfg.width hk hlo hhi hmu hx

/-- A product of two values below `m` is on the Barrett path. -/
theorem State.barrett_mul_eq_mod {x y : Nat} (hx : x < (s.ctx c).m) (hy : y < (s.ctx c).m) :
    s.barrett c (x * y) = x * y % (s.ctx c).m := by
  refine State.barrett_eq_mod hv hl ?_
  obtain ⟨-, -, hhi, -⟩ := hl.bounds hv
  rw [Nat.two_mul, Nat.pow_add]
  exact Nat.mul_lt_mul'' (hx.trans hhi) (hy.trans hhi)

theorem State.mod_lt_of_words_le {d : DReg} (hd : (s.ctx c).words ≤ s.len d) (x : Nat) :
    x % (s.ctx c).m < s.cfg.width.base ^ s.len d := by
  obtain ⟨-, hlo, hhi, -⟩ := hl.bounds hv
  have hm : 0 < (s.ctx c).m := (Nat.pow_pos s.cfg.width.base_pos).trans_le hlo
  exact ((Nat.mod_lt x hm).trans hhi).trans_le (Nat.pow_le_pow_right s.cfg.width.base_pos hd)

/-- Both paths of `BAR.RED` give `x mod m` (R238). -/
theorem exec_barRed_of_legal {dr da : DReg} (hnone : reduceError false dr [(da, 0)] c s = none) :
    exec (.barRed dr da c) s = .next (s.writeResult dr (s.val da 0 % (s.ctx c).m)).completed := by
  rw [exec_of_checked_none (exec_barRed s dr da c) hnone]
  split
  · rfl
  · rw [State.barrett_eq_mod hv hl ((sigWords_le_iff _ _ _).1 (by omega))]

end

/-- The checks of a reduction with one input (R235). -/
theorem reduceError_one_eq_none {s : State} {ranged : Bool} {dr da : DReg} {c : CtxIx} (hc : c.val < s.cfg.nctx)
    (hv : (s.ctx c).valid = true) (hr : InBounds s dr) (ha : InBounds s da) (hn : s.neg da = false)
    (hw : (s.ctx c).words ≤ s.len dr) (ho : ¬Overlaps s dr da)
    (hm : ranged = true → s.val da 0 < (s.ctx c).m) : reduceError ranged dr [(da, 0)] c s = none :=
  reduceError_eq_none hc hv hr (by simpa) (by simpa) hw (by simpa) (by simpa)

/-- Settles O54: the result is below the modulus, which fits the result's words. -/
theorem reduceIsModulo : Obligations.ReduceIsModulo := by
  unfold Obligations.ReduceIsModulo
  intro s dr da c hc hv hl hr ha hn hw ho
  obtain ⟨hres, hdescs, frame⟩ := frame_writeResult s dr (s.val da 0 % (s.ctx c).m)
  exact ⟨_, exec_barRed_of_legal hv hl (reduceError_one_eq_none hc hv hr ha hn hw ho nofun), hres,
    val_of_resultIs hres hdescs rfl (State.mod_lt_of_words_le hv hl hw _), hdescs, frame⟩

/-- Settles O55: the product of two values below `m` is on the Barrett path. -/
theorem modularProductIsExact : Obligations.ModularProductIsExact := by
  unfold Obligations.ModularProductIsExact
  intro s dr da db c hc hv hl hr ha hb hna hnb hw hoa hob hx hy
  have hnone : reduceError true dr [(da, 0), (db, s.len da)] c s = none :=
    reduceError_eq_none hc hv hr (by simp [ha, hb]) (by simp [hna, hnb]) hw (by simp [hoa, hob])
      fun _ => by simp [hx, hy]
  rw [exec_of_checked_none (exec_barMul s dr da db c) hnone, State.barrett_mul_eq_mod hv hl hx hy]
  exact ⟨_, rfl, frame_writeResult s dr _⟩

/-- Settles O56: `BAR.CUBE` reduces the square first, so its second product is below `m²` too. -/
theorem modularSquareAndCubeAreExact : Obligations.ModularSquareAndCubeAreExact := by
  unfold Obligations.ModularSquareAndCubeAreExact
  intro s dr da c hc hv hl hr ha hn hw ho hx
  have hnone : reduceError true dr [(da, 0)] c s = none :=
    reduceError_one_eq_none hc hv hr ha hn hw ho fun _ => hx
  have hsq := State.barrett_mul_eq_mod hv hl hx hx
  have hcube : s.barrett c (s.val da 0 * s.barrett c (s.val da 0 * s.val da 0)) =
      s.val da 0 ^ 3 % (s.ctx c).m := by
    rw [hsq, State.barrett_mul_eq_mod hv hl hx (Nat.mod_lt _ (Nat.zero_lt_of_lt hx)), Nat.mul_mod_mod, Nat.pow_succ',
      Nat.pow_two]
  rw [exec_of_checked_none (exec_barSqr s dr da c) hnone, exec_of_checked_none (exec_barCube s dr da c) hnone,
    hcube, hsq, ← Nat.pow_two]
  exact ⟨⟨_, rfl, frame_writeResult s dr _⟩, _, rfl, frame_writeResult s dr _⟩

/-! ### A setup and then a reduction -/

theorem runCommands_pair {i j : Instr} {s u t : State} (hi : exec i s = .next u) (hj : exec j u = .next t) :
    runCommands [i, j] s = .next t := by
  simp only [runCommands, hi, hj]

/-- A new slot changes no written operand. -/
theorem val_setCtx_completed {s : State} {d : DReg} (hw : s.Written d) (c : CtxIx) (b : BarrettCtx) (pos : Nat) :
    (s.setCtx c b).completed.val d pos = s.val d pos :=
  congrArg (natOfWords s.cfg.width) (State.readWords_eq_of_written (fun _ _ => rfl) hw)

/-- Settles O58: the slot a setup builds is a reducer of the modulus, and its `K` words fit the result. -/
theorem setupThenReduceIsModulo : Obligations.SetupThenReduceIsModulo := by
  unfold Obligations.SetupThenReduceIsModulo
  intro s dm dr dx c setup hsetup hc hv hbm hnm hz hcap hbr hbx hnx hfit ho hw
  obtain ⟨md, rfl⟩ := eq_setup hsetup
  rw [Nat.pow_mul] at hcap hfit
  have hk := (sigWords_le_iff s.cfg.width _ _).2 hcap
  have hkr := (sigWords_le_iff s.cfg.width _ _).2 hfit
  have hrun := exec_of_checked_none (exec_setup md) (setupError_eq_none hc hv hbm hnm hz hk)
  have hval := val_setCtx_completed hw c (barrettCtxOf s.cfg.width md (s.val dm 0)) 0
  obtain ⟨hctx, -⟩ := frame_setCtx s c (barrettCtxOf s.cfg.width md (s.val dm 0))
  set u := (s.setCtx c (barrettCtxOf s.cfg.width md (s.val dm 0))).completed
  have hvu : (u.ctx c).valid = true := by rw [hctx]; rfl
  have hlu : (u.ctx c).Legal u.cfg := by rw [hctx]; exact barrettCtxOf_legal md hz hk
  have hwu : (u.ctx c).words ≤ u.len dr := by rw [hctx, barrettCtxOf_words md hk]; exact hkr
  have hred := exec_barRed_of_legal hvu hlu (reduceError_one_eq_none hc hvu hbr hbx hnx hwu ho nofun)
  rw [hval, hctx] at hred
  obtain ⟨hres, -, -, -, hok, -⟩ := frame_writeResult u dr (s.val dx 0 % s.val dm 0)
  exact ⟨_, runCommands_pair hrun hred, hok, hres⟩

end Sys2Proof.Machine
end

section
/-! PROOFS. The engine control commands `NOP` and `CLRERR` (R280, R281). -/

namespace Sys2Proof.Machine

/-- The end of a command, whatever `STATUS` it leaves. -/
theorem frame_conclude (s : State) (st : Status) :
    SameHost s (s.conclude st) ∧ SameX s (s.conclude st) ∧ SameAcc s (s.conclude st) ∧
    SameDescs s (s.conclude st) ∧ SameCtx s (s.conclude st) ∧ SameMem s (s.conclude st) :=
  ⟨⟨rfl, rfl, rfl, rfl⟩, fun _ => rfl, ⟨rfl, rfl, rfl⟩, fun _ => ⟨rfl, rfl, rfl⟩, fun _ => rfl, fun _ => rfl⟩

/-- R280. -/
theorem exec_nop (s : State) : exec .nop s = .next (s.conclude s.status.success) := rfl

/-- R281: the success effect clears what `STICKY <- 0` leaves of `STATUS`. -/
theorem exec_clrerr (s : State) : exec .clrerr s = .next (s.conclude Status.zero) := rfl

theorem Status.word_zero : Status.zero.word = 0 := by decide

/-- Settles O33: each of the two commands is the end of a command and nothing else. -/
theorem controlCommandsTouchOnlyStatus : Obligations.ControlCommandsTouchOnlyStatus := by
  unfold Obligations.ControlCommandsTouchOnlyStatus
  intro s
  exact ⟨⟨_, exec_nop s, ⟨rfl, rfl, rfl⟩, frame_conclude s _⟩,
    _, exec_clrerr s, Status.word_zero, frame_conclude s _⟩

end Sys2Proof.Machine
end

section
/-! PROOFS. How commands and steps end: the success effect or the error effect of one cause (R300, R305, R306,
R317), whatever `STATUS` held before (R309, R318). -/

namespace Sys2Proof.Machine

/-! ### The end of a command -/

/-- **How a command ends**: with the error effect of one cause (R306), or with what R305 says of `STATUS`. -/
theorem exec_ends {i : Instr} {s t : State} (h : exec i s = .next t) :
    (∃ e : Err, ErrorEffect e.code e.detail s t) ∨
      t.status.code = 0#4 ∧ t.status.detail = 0#8 ∧
        t.status.sticky = if i = .clrerr then false else s.status.sticky := by
  rcases exec_next_write h with ⟨e, rfl⟩ | ⟨w, hw, rfl⟩
  · exact .inl ⟨e, errorEffect_raise e s⟩
  · exact .inr ⟨rfl, rfl, w.apply_sticky s hw⟩

theorem exec_error {i : Instr} {s t : State} (h : exec i s = .next t) (hc : t.status.code ≠ 0#4) :
    ∃ e : Err, ErrorEffect e.code e.detail s t :=
  (exec_ends h).resolve_right fun ⟨hcode, _⟩ => hc hcode

theorem runCommand_next (v : Word) (s : State) : ∃ t, runCommand v s = .next t := by
  rcases runCommand_cases v s with ⟨i, -, hr⟩ | ⟨e, -, hr⟩ <;> rw [hr]
  · exact exec_next i s
  · exact ⟨_, raise_eq _ s⟩

/-- No host action stops the machine (R317). -/
theorem step_next (s : State) : ∃ t, step s = .next t := by
  cases hs : s.host with
  | nil => exact ⟨_, step_of_nil hs⟩
  | cons a rest =>
    cases a with
    | read slot => exact ⟨_, step_of_read hs⟩
    | reset => exact ⟨_, step_of_reset hs⟩
    | write slot v =>
      by_cases hslot : slot = cmdSlot
      · subst hslot
        rw [step_of_cmd hs]
        exact runCommand_next v _
      · exact ⟨_, step_of_write hs hslot⟩

/-- Settles O10: the two ends of a command, and a next state for each kind of host action. -/
theorem everyCommandEnds : Obligations.EveryCommandEnds := by
  unfold Obligations.EveryCommandEnds
  refine ⟨fun i s => ?_, step_next⟩
  obtain ⟨t, ht⟩ := exec_next i s
  rcases exec_ends ht with herror | ⟨hcode, hdetail, -⟩
  · exact ⟨t, ht, .inr herror⟩
  · exact ⟨t, ht, .inl ⟨hcode, hdetail⟩⟩

/-- Settles O11: a `CMD` write runs a command or raises its decode error, and `CODE` not 0 leaves a command
only the error effect. -/
theorem errorsChangeOnlyStatus : Obligations.ErrorsChangeOnlyStatus := by
  unfold Obligations.ErrorsChangeOnlyStatus
  refine ⟨fun i s t => exec_error, fun s t v rest hs ht hc => ?_⟩
  rw [step_of_cmd hs] at ht
  rcases runCommand_cases v (s.withHost rest) with ⟨i, -, hr⟩ | ⟨e, -, hr⟩ <;> rw [hr] at ht
  · exact exec_error ht hc
  · obtain rfl := Host.Outcome.next.inj ht
    exact ⟨_, errorEffect_raise _ _⟩

/-- Settles O12: the other end of a command. -/
theorem successRecordsOk : Obligations.SuccessRecordsOk := by
  unfold Obligations.SuccessRecordsOk
  exact fun i s t h hno => (exec_ends h).resolve_left hno

/-! ### Independence from `STATUS` -/

/-- Every write leaves the same state whatever `STATUS` held, but for `STATUS` itself. -/
theorem Write.completed_apply_withStatus (s : State) (st st' : Status) (w : Write) :
    { (w.apply { s with status := st }).completed with status := st' } =
      { (w.apply s).completed with status := st' } := by
  cases w <;> rfl

/-- Settles O14: neither the command's error nor its write rests on `STATUS`. -/
theorem statusNeverBlocksCommands : Obligations.StatusNeverBlocksCommands := by
  unfold Obligations.StatusNeverBlocksCommands
  intro i s st
  have same : SameOperands s { s with status := st } :=
    ⟨rfl, rfl, rfl, rfl, fun _ => rfl, fun _ => rfl, fun _ => rfl, fun _ => rfl⟩
  rcases exec_congr (i := i) same rfl fun _ => ⟨rfl, rfl, rfl⟩ with ⟨e, hs, hs'⟩ | ⟨w, -, hs, hs'⟩
  · exact ⟨_, _, hs, hs', rfl, rfl, rfl⟩
  · exact ⟨_, _, hs, hs', rfl, rfl, w.completed_apply_withStatus s st _⟩

/-! ### The idle engine -/

/-- Settles O9: the step of an empty list. -/
theorem idleStepHoldsState : Obligations.IdleStepHoldsState := by
  unfold Obligations.IdleStepHoldsState
  exact fun _ => step_of_nil

end Sys2Proof.Machine
end

section
/-! PROOFS. The trace of a command and its public inputs (R361 to R363): the shape of the list of public inputs
gives each descriptor and the path of `BAR.RED` back, and these fix every access. -/

namespace Sys2Proof.Machine

/-- A list of pairs, written out flat, gives every pair back. -/
theorem pairs_eq_of_flatMap_eq {α β : Type} {f g f' g' : α → β} :
    ∀ {l : List α}, (l.flatMap fun d => [f d, g d]) = (l.flatMap fun d => [f' d, g' d]) →
      ∀ d ∈ l, f d = f' d ∧ g d = g' d
  | [], _ => nofun
  | a :: l, h => by
    simp only [List.flatMap_cons, List.cons_append, List.nil_append, List.cons.injEq] at h
    obtain ⟨hf, hg, hl⟩ := h
    exact List.forall_mem_cons.2 ⟨⟨hf, hg⟩, pairs_eq_of_flatMap_eq hl⟩

section

variable {i : Instr} {s t : State}

/-- Two states with the same public inputs agree on every descriptor the command uses and on the further public
inputs (R361). -/
theorem samePublic_parts (h : samePublic i s t) :
    (∀ d ∈ (resultDesc i).toList ++ inputDescs i, s.base d = t.base d ∧ s.len d = t.len d) ∧
      furtherPublicInputs i s = furtherPublicInputs i t := by
  obtain ⟨hdescs, hfurther⟩ := List.append_inj h.2 (by simp [List.length_flatMap])
  exact ⟨pairs_eq_of_flatMap_eq hdescs, hfurther⟩

/-- The path of `BAR.RED` shows in the number of its public inputs (R361). -/
theorem fallback_eq_length_furtherPublicInputs (dr da : DReg) (c : CtxIx) (s : State) :
    s.fallback da c = ((furtherPublicInputs (.barRed dr da c) s).length == 4) := by
  cases hpath : s.fallback da c <;> simp [furtherPublicInputs, hpath]

theorem variableTime_congr (h : samePublic i s t) : variableTime i s = variableTime i t := by
  cases i with
  | barRed dr da c =>
    have hfurther := (samePublic_parts h).2
    change s.fallback da c = t.fallback da c
    rw [fallback_eq_length_furtherPublicInputs dr da c s, fallback_eq_length_furtherPublicInputs dr da c t, hfurther]
  | _ => rfl

theorem completedReads_congr (h : samePublic i s t) : completedReads i s = completedReads i t := by
  have hin : ∀ d ∈ inputDescs i, s.base d = t.base d ∧ s.len d = t.len d :=
    fun d hd => (samePublic_parts h).1 d (List.mem_append_right _ hd)
  cases i with
  | montRedc dr da db xr =>
    obtain ⟨hbase, -⟩ := hin da (.head _)
    obtain ⟨hbase', hlen'⟩ := hin db (.tail _ (.head _))
    simp only [completedReads, State.readSweep, hbase, hbase', hlen']
  | _ => exact List.flatMap_congr fun d hd => congrArg₂ (sweep .read) (hin d hd).1 (hin d hd).2

theorem completedWrites_congr (h : samePublic i s t) : completedWrites i s = completedWrites i t := by
  refine List.flatMap_congr fun d hd => ?_
  obtain ⟨hbase, hlen⟩ := (samePublic_parts h).1 d (List.mem_append_left _ hd)
  exact congrArg₂ (sweep .write) hbase hlen

/-- The trace of a command that completes depends on its public inputs only (R362, R363). -/
theorem completedTrace_congr (h : samePublic i s t) : completedTrace i s = completedTrace i t := by
  simp only [completedTrace, variableTime_congr h, completedReads_congr h, completedWrites_congr h]

/-- So does the trace of any command, once it is known how it ends (R365). -/
theorem opmemTrace_congr (h : samePublic i s t) (hend : errorDetail i s = errorDetail i t) :
    opmemTrace i s = opmemTrace i t := by
  simp only [opmemTrace, hend, failedTrace_congr h, completedTrace_congr h]

end

/-- Settles O59: both traces are made of sweeps over the command's descriptors, which are public. -/
theorem traceDependsOnPublicInputsOnly : Obligations.TraceDependsOnPublicInputsOnly := by
  unfold Obligations.TraceDependsOnPublicInputsOnly
  exact fun i s t h => ⟨completedTrace_congr h, opmemTrace_congr h⟩

end Sys2Proof.Machine
end
